-- ==== Sys2Proof/Word.lean ====
section
/-! DEFINITION. The two word types of the machine: a 32-bit word (register, special register, address: `00_scope.md` R5
`XLEN`) and a byte (the unit of memory: `10_state.md` R41). -/

namespace Sys2Proof

/-- A 32-bit value: a register, a special register or an address (`00_scope.md` R8). -/
abbrev Word := BitVec 32

/-- One byte of memory (`10_state.md` R41). -/
abbrev Byte := BitVec 8

end Sys2Proof
end

