-- ==== Sys2Proof/Config.lean ====
section
/-! DEFINITION. The implementation parameters of `00_scope.md` R5 as plain data, and the free values the spec leaves open.
The values the spec uses are in `Sys2Proof/Machine/Params.lean`. -/

namespace Sys2Proof

/-- The byte order of every memory access and of instruction fetch (`20_memory.md` R52, parameter `ENDIAN`). -/
inductive Endian where
  | big
  | little
deriving DecidableEq, Repr

/-- Which address special register 5 receives on a synchronous exception (`60_exceptions.md` R286, `EXC_RA_MODE`). -/
inductive ExcRaMode where
  /-- the address of the instruction after the causing one -/
  | next
  /-- the address of the causing instruction -/
  | current
deriving DecidableEq, Repr

/-- What `MemMap` says of a range of addresses (`20_memory.md` R50, R68). -/
inductive RegionKind where
  /-- backed memory that holds program text: no store may write it -/
  | text
  /-- any other backed memory -/
  | data
deriving DecidableEq, Repr

/-- One range of backed addresses of `MemMap`: `base` up to but not including `base + size`. -/
structure Region where
  base : Nat
  size : Nat
  kind : RegionKind
deriving DecidableEq, Repr

/-- The parameters of `00_scope.md` R5 that are values. `XLEN` and `NGPR` are fixed by the types; `MISALIGN_POLICY` has the
one value `fault` (assumption log 18); `ShiftOver` and `IrqEnabled` are free values. -/
structure Config where
  /-- `ENDIAN` -/
  endian : Endian
  /-- `NUM_SREGS` -/
  numSregs : Nat
  /-- `MemMap`: an address that no region lists is not backed -/
  memMap : List Region
  /-- `RESET_PC` -/
  resetPc : Word
  /-- `BRANCH_BASE` -/
  branchBase : Word
  /-- `EX_DIV0` -/
  exDiv0 : Word
  /-- `EX_BAD` -/
  exBad : Word
  /-- `EX_IRQ` -/
  exIrq : Word
  /-- `EX_SWI` -/
  exSwi : Word
  /-- `EXC_RA_MODE` -/
  excRaMode : ExcRaMode
  /-- `IRQ_PRESENT` -/
  irqPresent : Bool
  /-- `DTB_PTR` -/
  dtbPtr : Word
deriving DecidableEq, Repr

/-- The values the spec admits for the parameters: the four codes pairwise distinct (`60_exceptions.md` R280), `RESET_PC`
even (`70_reset_and_hazards.md` R320), `BRANCH_BASE` 0 or 2 (`42_compare_branch.md` R182), at most 256 special registers
(`10_state.md` R27). -/
abbrev Config.wf (c : Config) : Prop :=
  [c.exDiv0, c.exBad, c.exIrq, c.exSwi].Nodup ∧ c.resetPc.toNat % 2 = 0 ∧
    (c.branchBase = 0 ∨ c.branchBase = 2) ∧ c.numSregs ≤ 256

/-- The three shifts, as the first argument of `ShiftOver`. -/
inductive ShiftOp where
  | ashl
  | ashr
  | lshr
deriving DecidableEq, Repr

/-- FREE VALUE (assumption log 15). `ShiftOver` of `00_scope.md` R5: the result of a shift by 32 or more, a function of the
operation, the value and the amount under no law. -/
opaque Config.shiftOver : ShiftOp → Word → Word → Word

/-- FREE VALUE (assumption log 14). Whether the environment sets `irq_pending` before the step with this number
(`60_exceptions.md` R291: it may do so between any two instructions). -/
opaque Config.irqArrives : Nat → Bool

end Sys2Proof
end

