-- ==== Sys2Proof/Machine/Params.lean ====
section
/-! DEFINITION. The parameters' values: the column 'value' of `00_scope.md` R5, and the two values it leaves to the launch. -/

namespace Sys2Proof.Machine

/-- `MemMap` of a machine on which nothing is loaded: the whole 32-bit space is backed by memory and none of it holds
program text. DESIGN CHOICE (unsafe, assumption log 7): the spec supplies `MemMap` per launch. -/
def resetMemMap : List Region := [⟨0, 2 ^ 32, .data⟩]

/-- The configuration at the values of `00_scope.md` R5. `RESET_PC` is supplied per launch; 0x1000 is the value of the
spec's own vectors (DESIGN CHOICE, assumption log 5). -/
def specConfig : Config where
  endian := .big
  numSregs := 256
  memMap := resetMemMap
  resetPc := 0x1000
  branchBase := 0
  exDiv0 := 0
  exBad := 1
  exIrq := 2
  exSwi := 3
  excRaMode := .next
  irqPresent := false
  dtbPtr := 0

end Sys2Proof.Machine
end

