-- ==== Sys2Proof/Syntax.lean ====
section
/-! DEFINITION. The instructions: one constructor per mnemonic of `spec/opcode_table.json`, in the table's order
(`30_encoding.md` R90 to R93). Its nine `bad` rows are one instruction (`45_system.md` R265). -/

namespace Sys2Proof

/-- The number of a general register, 0 to 15 (`10_state.md` R20): 0 is `$fp`, 1 is `$sp`, `N + 2` is `$rN`. -/
abbrev Reg := Fin 16

/-- `$fp`, the frame pointer (`10_state.md` R20). -/
abbrev Reg.fp : Reg := 0

/-- `$sp`, the stack pointer (`10_state.md` R20). -/
abbrev Reg.sp : Reg := 1

/-- An instruction with its operands: `a` and `b` are the register fields A and B (`30_encoding.md` R83), `n` the special
register number S (R84), `i8`, `v10`, `i16`, `i32` the immediates (R85 to R87). -/
inductive Instr where
  /-- `ldi.l` (R238), `00000001AAAAxxxx` + i32 -/
  | ldiL (a : Reg) (i32 : Word)
  /-- `mov` (R132), `00000010AAAABBBB` -/
  | mov (a : Reg) (b : Reg)
  /-- `jsra` (R203), `00000011xxxxxxxx` + i32 -/
  | jsra (i32 : Word)
  /-- `ret` (R204), `00000100xxxxxxxx` -/
  | ret
  /-- `add` (R120), `00000101AAAABBBB` -/
  | add (a : Reg) (b : Reg)
  /-- `push` (R241), `00000110AAAABBBB` -/
  | push (a : Reg) (b : Reg)
  /-- `pop` (R242), `00000111AAAABBBB` -/
  | pop (a : Reg) (b : Reg)
  /-- `lda.l` (R226), `00001000AAAAxxxx` + i32 -/
  | ldaL (a : Reg) (i32 : Word)
  /-- `sta.l` (R229), `00001001AAAAxxxx` + i32 -/
  | staL (a : Reg) (i32 : Word)
  /-- `ld.l` (R220), `00001010AAAABBBB` -/
  | ldL (a : Reg) (b : Reg)
  /-- `st.l` (R223), `00001011AAAABBBB` -/
  | stL (a : Reg) (b : Reg)
  /-- `ldo.l` (R232), `00001100AAAABBBB` + i16 -/
  | ldoL (a : Reg) (b : Reg) (i16 : BitVec 16)
  /-- `sto.l` (R235), `00001101AAAABBBB` + i16 -/
  | stoL (a : Reg) (b : Reg) (i16 : BitVec 16)
  /-- `cmp` (R180), `00001110AAAABBBB` -/
  | cmp (a : Reg) (b : Reg)
  /-- `nop` (R138), `00001111xxxxxxxx` -/
  | nop
  /-- `sex.b` (R133), `00010000AAAABBBB` -/
  | sexB (a : Reg) (b : Reg)
  /-- `sex.s` (R134), `00010001AAAABBBB` -/
  | sexS (a : Reg) (b : Reg)
  /-- `zex.b` (R135), `00010010AAAABBBB` -/
  | zexB (a : Reg) (b : Reg)
  /-- `zex.s` (R136), `00010011AAAABBBB` -/
  | zexS (a : Reg) (b : Reg)
  /-- `umul.x` (R162), `00010100AAAABBBB` -/
  | umulX (a : Reg) (b : Reg)
  /-- `mul.x` (R161), `00010101AAAABBBB` -/
  | mulX (a : Reg) (b : Reg)
  /-- `jsr` (R202), `00011001AAAAxxxx` -/
  | jsr (a : Reg)
  /-- `jmpa` (R201), `00011010xxxxxxxx` + i32 -/
  | jmpa (i32 : Word)
  /-- `ldi.b` (R240), `00011011AAAAxxxx` + i32 -/
  | ldiB (a : Reg) (i32 : Word)
  /-- `ld.b` (R222), `00011100AAAABBBB` -/
  | ldB (a : Reg) (b : Reg)
  /-- `lda.b` (R228), `00011101AAAAxxxx` + i32 -/
  | ldaB (a : Reg) (i32 : Word)
  /-- `st.b` (R225), `00011110AAAABBBB` -/
  | stB (a : Reg) (b : Reg)
  /-- `sta.b` (R231), `00011111AAAAxxxx` + i32 -/
  | staB (a : Reg) (i32 : Word)
  /-- `ldi.s` (R239), `00100000AAAAxxxx` + i32 -/
  | ldiS (a : Reg) (i32 : Word)
  /-- `ld.s` (R221), `00100001AAAABBBB` -/
  | ldS (a : Reg) (b : Reg)
  /-- `lda.s` (R227), `00100010AAAAxxxx` + i32 -/
  | ldaS (a : Reg) (i32 : Word)
  /-- `st.s` (R224), `00100011AAAABBBB` -/
  | stS (a : Reg) (b : Reg)
  /-- `sta.s` (R230), `00100100AAAAxxxx` + i32 -/
  | staS (a : Reg) (i32 : Word)
  /-- `jmp` (R200), `00100101AAAAxxxx` -/
  | jmp (a : Reg)
  /-- `and` (R122), `00100110AAAABBBB` -/
  | and (a : Reg) (b : Reg)
  /-- `lshr` (R129), `00100111AAAABBBB` -/
  | lshr (a : Reg) (b : Reg)
  /-- `ashl` (R127), `00101000AAAABBBB` -/
  | ashl (a : Reg) (b : Reg)
  /-- `sub` (R121), `00101001AAAABBBB` -/
  | sub (a : Reg) (b : Reg)
  /-- `neg` (R126), `00101010AAAABBBB` -/
  | neg (a : Reg) (b : Reg)
  /-- `or` (R123), `00101011AAAABBBB` -/
  | or (a : Reg) (b : Reg)
  /-- `not` (R125), `00101100AAAABBBB` -/
  | not (a : Reg) (b : Reg)
  /-- `ashr` (R128), `00101101AAAABBBB` -/
  | ashr (a : Reg) (b : Reg)
  /-- `xor` (R124), `00101110AAAABBBB` -/
  | xor (a : Reg) (b : Reg)
  /-- `mul` (R160), `00101111AAAABBBB` -/
  | mul (a : Reg) (b : Reg)
  /-- `swi` (R262), `00110000xxxxxxxx` + i32 -/
  | swi (i32 : Word)
  /-- `div` (R163), `00110001AAAABBBB` -/
  | div (a : Reg) (b : Reg)
  /-- `udiv` (R164), `00110010AAAABBBB` -/
  | udiv (a : Reg) (b : Reg)
  /-- `mod` (R165), `00110011AAAABBBB` -/
  | mod (a : Reg) (b : Reg)
  /-- `umod` (R166), `00110100AAAABBBB` -/
  | umod (a : Reg) (b : Reg)
  /-- `brk` (R264), `00110101xxxxxxxx` -/
  | brk
  /-- `ldo.b` (R234), `00110110AAAABBBB` + i16 -/
  | ldoB (a : Reg) (b : Reg) (i16 : BitVec 16)
  /-- `sto.b` (R237), `00110111AAAABBBB` + i16 -/
  | stoB (a : Reg) (b : Reg) (i16 : BitVec 16)
  /-- `ldo.s` (R233), `00111000AAAABBBB` + i16 -/
  | ldoS (a : Reg) (b : Reg) (i16 : BitVec 16)
  /-- `sto.s` (R236), `00111001AAAABBBB` + i16 -/
  | stoS (a : Reg) (b : Reg) (i16 : BitVec 16)
  /-- `inc` (R130), `1000AAAAiiiiiiii` -/
  | inc (a : Reg) (i8 : BitVec 8)
  /-- `dec` (R131), `1001AAAAiiiiiiii` -/
  | dec (a : Reg) (i8 : BitVec 8)
  /-- `gsr` (R260), `1010AAAASSSSSSSS` -/
  | gsr (a : Reg) (n : BitVec 8)
  /-- `ssr` (R261), `1011AAAASSSSSSSS` -/
  | ssr (a : Reg) (n : BitVec 8)
  /-- `beq` (R183), `110000vvvvvvvvvv` -/
  | beq (v10 : BitVec 10)
  /-- `bne` (R184), `110001vvvvvvvvvv` -/
  | bne (v10 : BitVec 10)
  /-- `blt` (R185), `110010vvvvvvvvvv` -/
  | blt (v10 : BitVec 10)
  /-- `bgt` (R186), `110011vvvvvvvvvv` -/
  | bgt (v10 : BitVec 10)
  /-- `bltu` (R187), `110100vvvvvvvvvv` -/
  | bltu (v10 : BitVec 10)
  /-- `bgtu` (R188), `110101vvvvvvvvvv` -/
  | bgtu (v10 : BitVec 10)
  /-- `bge` (R189), `110110vvvvvvvvvv` -/
  | bge (v10 : BitVec 10)
  /-- `ble` (R190), `110111vvvvvvvvvv` -/
  | ble (v10 : BitVec 10)
  /-- `bgeu` (R191), `111000vvvvvvvvvv` -/
  | bgeu (v10 : BitVec 10)
  /-- `bleu` (R192), `111001vvvvvvvvvv` -/
  | bleu (v10 : BitVec 10)
  /-- `bad` (R265): the illegal instruction, with the word that is it, one of those `30_encoding.md` R93 lists -/
  | bad (w : BitVec 16)
deriving DecidableEq, Repr

/-- The ten conditions of the branches (`42_compare_branch.md` R181). -/
inductive BranchCond where
  | eq
  | ne
  | lt
  | gt
  | ltu
  | gtu
  | ge
  | le
  | geu
  | leu
deriving DecidableEq, Repr

end Sys2Proof
end

