-- ==== Sys2Proof/WellFormed.lean ====
section
/-! DEFINITION. Which terms of `Instr` stand for an encoding: every field of an instruction admits every value of its type
(`30_encoding.md` R83 to R87), so the one check is that `bad` holds a word that no listed encoding consumes. -/

namespace Sys2Proof

/-- The nine match and mask pairs of `30_encoding.md` R93: the words that decode to `bad`. -/
def badPatterns : List (BitVec 16 × BitVec 16) :=
  [(0x0000, 0xFF00), (0x1600, 0xFF00), (0x1700, 0xFF00), (0x1800, 0xFF00), (0x3A00, 0xFE00), (0x3C00, 0xFC00),
    (0x4000, 0xC000), (0xE800, 0xF800), (0xF000, 0xF000)]

/-- The word is one of those `30_encoding.md` R93 lists. -/
def isBadWord (w : BitVec 16) : Bool :=
  badPatterns.any fun p => w &&& p.2 == p.1

/-- The instruction is well formed: it has an encoding. -/
def Instr.wellFormed : Instr → Bool
  | .ldiL _ _ => true
  | .mov _ _ => true
  | .jsra _ => true
  | .ret => true
  | .add _ _ => true
  | .push _ _ => true
  | .pop _ _ => true
  | .ldaL _ _ => true
  | .staL _ _ => true
  | .ldL _ _ => true
  | .stL _ _ => true
  | .ldoL _ _ _ => true
  | .stoL _ _ _ => true
  | .cmp _ _ => true
  | .nop => true
  | .sexB _ _ => true
  | .sexS _ _ => true
  | .zexB _ _ => true
  | .zexS _ _ => true
  | .umulX _ _ => true
  | .mulX _ _ => true
  | .jsr _ => true
  | .jmpa _ => true
  | .ldiB _ _ => true
  | .ldB _ _ => true
  | .ldaB _ _ => true
  | .stB _ _ => true
  | .staB _ _ => true
  | .ldiS _ _ => true
  | .ldS _ _ => true
  | .ldaS _ _ => true
  | .stS _ _ => true
  | .staS _ _ => true
  | .jmp _ => true
  | .and _ _ => true
  | .lshr _ _ => true
  | .ashl _ _ => true
  | .sub _ _ => true
  | .neg _ _ => true
  | .or _ _ => true
  | .not _ _ => true
  | .ashr _ _ => true
  | .xor _ _ => true
  | .mul _ _ => true
  | .swi _ => true
  | .div _ _ => true
  | .udiv _ _ => true
  | .mod _ _ => true
  | .umod _ _ => true
  | .brk => true
  | .ldoB _ _ _ => true
  | .stoB _ _ _ => true
  | .ldoS _ _ _ => true
  | .stoS _ _ _ => true
  | .inc _ _ => true
  | .dec _ _ => true
  | .gsr _ _ => true
  | .ssr _ _ => true
  | .beq _ => true
  | .bne _ => true
  | .blt _ => true
  | .bgt _ => true
  | .bltu _ => true
  | .bgtu _ => true
  | .bge _ => true
  | .ble _ => true
  | .bgeu _ => true
  | .bleu _ => true
  | .bad w => isBadWord w

/-- `Instr.wellFormed` as a proposition. -/
abbrev Instr.WellFormed (i : Instr) : Prop := i.wellFormed = true

end Sys2Proof
end

