-- ==== Sys2Proof/Decode.lean ====
section
/-! DEFINITION. The decoder of `30_encoding.md` R80 to R95, the byte order of an instruction's units (`20_memory.md` R52,
R55), and the encoder. Decoding is total: every 16-bit word is an instruction, `bad` among them; too few bytes are refused
by name. -/

namespace Sys2Proof

/-- Bytes in the order of rising significance, for bytes in the order of rising addresses; and the other way round
(`20_memory.md` R52). -/
def byteOrder (e : Endian) (bs : List Byte) : List Byte :=
  match e with
  | .big => bs.reverse
  | .little => bs

/-- The word whose bytes, of rising significance, are these. -/
def joinBytes : List Byte → Word
  | [] => 0
  | b :: bs => b.setWidth 32 ||| (joinBytes bs <<< 8)

/-- The `n` low bytes of a word, of rising significance. -/
def splitBytes : Nat → Word → List Byte
  | 0, _ => []
  | n + 1, v => v.setWidth 8 :: splitBytes n (v >>> 8)

/-- The unsigned value of bytes that stand at rising addresses (`20_memory.md` R52), zero-extended. -/
def wordOfBytes (e : Endian) (bs : List Byte) : Word :=
  joinBytes (byteOrder e bs)

/-- The low `8n` bits of a word as `n` bytes at rising addresses (`20_memory.md` R53). -/
def bytesOfWord (e : Endian) (n : Nat) (v : Word) : List Byte :=
  byteOrder e (splitBytes n v)

/-- The length in bytes of an instruction: 2, 4 or 6 (`30_encoding.md` R80). -/
def Instr.length : Instr → Nat
  | .ldiL _ _ => 6
  | .mov _ _ => 2
  | .jsra _ => 6
  | .ret => 2
  | .add _ _ => 2
  | .push _ _ => 2
  | .pop _ _ => 2
  | .ldaL _ _ => 6
  | .staL _ _ => 6
  | .ldL _ _ => 2
  | .stL _ _ => 2
  | .ldoL _ _ _ => 4
  | .stoL _ _ _ => 4
  | .cmp _ _ => 2
  | .nop => 2
  | .sexB _ _ => 2
  | .sexS _ _ => 2
  | .zexB _ _ => 2
  | .zexS _ _ => 2
  | .umulX _ _ => 2
  | .mulX _ _ => 2
  | .jsr _ => 2
  | .jmpa _ => 6
  | .ldiB _ _ => 6
  | .ldB _ _ => 2
  | .ldaB _ _ => 6
  | .stB _ _ => 2
  | .staB _ _ => 6
  | .ldiS _ _ => 6
  | .ldS _ _ => 2
  | .ldaS _ _ => 6
  | .stS _ _ => 2
  | .staS _ _ => 6
  | .jmp _ => 2
  | .and _ _ => 2
  | .lshr _ _ => 2
  | .ashl _ _ => 2
  | .sub _ _ => 2
  | .neg _ _ => 2
  | .or _ _ => 2
  | .not _ _ => 2
  | .ashr _ _ => 2
  | .xor _ _ => 2
  | .mul _ _ => 2
  | .swi _ => 6
  | .div _ _ => 2
  | .udiv _ _ => 2
  | .mod _ _ => 2
  | .umod _ _ => 2
  | .brk => 2
  | .ldoB _ _ _ => 4
  | .stoB _ _ _ => 4
  | .ldoS _ _ _ => 4
  | .stoS _ _ _ => 4
  | .inc _ _ => 2
  | .dec _ _ => 2
  | .gsr _ _ => 2
  | .ssr _ _ => 2
  | .beq _ => 2
  | .bne _ => 2
  | .blt _ => 2
  | .bgt _ => 2
  | .bltu _ => 2
  | .bgtu _ => 2
  | .bge _ => 2
  | .ble _ => 2
  | .bgeu _ => 2
  | .bleu _ => 2
  | .bad _ => 2

/-- A form 1 word (`30_encoding.md` R90); `tail` is the unit that follows it, where the row has one. -/
def decodeForm1 (w : BitVec 16) (op : Nat) (a b : Reg) (tail : Word) : Instr :=
  match op with
  | 0x01 => .ldiL a tail
  | 0x02 => .mov a b
  | 0x03 => .jsra tail
  | 0x04 => .ret
  | 0x05 => .add a b
  | 0x06 => .push a b
  | 0x07 => .pop a b
  | 0x08 => .ldaL a tail
  | 0x09 => .staL a tail
  | 0x0A => .ldL a b
  | 0x0B => .stL a b
  | 0x0C => .ldoL a b (tail.setWidth 16)
  | 0x0D => .stoL a b (tail.setWidth 16)
  | 0x0E => .cmp a b
  | 0x0F => .nop
  | 0x10 => .sexB a b
  | 0x11 => .sexS a b
  | 0x12 => .zexB a b
  | 0x13 => .zexS a b
  | 0x14 => .umulX a b
  | 0x15 => .mulX a b
  | 0x19 => .jsr a
  | 0x1A => .jmpa tail
  | 0x1B => .ldiB a tail
  | 0x1C => .ldB a b
  | 0x1D => .ldaB a tail
  | 0x1E => .stB a b
  | 0x1F => .staB a tail
  | 0x20 => .ldiS a tail
  | 0x21 => .ldS a b
  | 0x22 => .ldaS a tail
  | 0x23 => .stS a b
  | 0x24 => .staS a tail
  | 0x25 => .jmp a
  | 0x26 => .and a b
  | 0x27 => .lshr a b
  | 0x28 => .ashl a b
  | 0x29 => .sub a b
  | 0x2A => .neg a b
  | 0x2B => .or a b
  | 0x2C => .not a b
  | 0x2D => .ashr a b
  | 0x2E => .xor a b
  | 0x2F => .mul a b
  | 0x30 => .swi tail
  | 0x31 => .div a b
  | 0x32 => .udiv a b
  | 0x33 => .mod a b
  | 0x34 => .umod a b
  | 0x35 => .brk
  | 0x36 => .ldoB a b (tail.setWidth 16)
  | 0x37 => .stoB a b (tail.setWidth 16)
  | 0x38 => .ldoS a b (tail.setWidth 16)
  | 0x39 => .stoS a b (tail.setWidth 16)
  | _ => .bad w

/-- A form 2 word (`30_encoding.md` R91): `x` is the field i8 or S. -/
def decodeForm2 (op2 : BitVec 2) (a : Reg) (x : BitVec 8) : Instr :=
  match op2 with
  | 0b00 => .inc a x
  | 0b01 => .dec a x
  | 0b10 => .gsr a x
  | 0b11 => .ssr a x

/-- A form 3 word (`30_encoding.md` R92). -/
def decodeForm3 (w : BitVec 16) (op4 : Nat) (v : BitVec 10) : Instr :=
  match op4 with
  | 0b0000 => .beq v
  | 0b0001 => .bne v
  | 0b0010 => .blt v
  | 0b0011 => .bgt v
  | 0b0100 => .bltu v
  | 0b0101 => .bgtu v
  | 0b0110 => .bge v
  | 0b0111 => .ble v
  | 0b1000 => .bgeu v
  | 0b1001 => .bleu v
  | _ => .bad w

/-- The instruction of a 16-bit word and the unit that follows it (`30_encoding.md` R81, R95). Field A is at bits 7:4 in
form 1 and at bits 11:8 in form 2 (R82); `x` bits are ignored (R88). -/
def decodeUnits (w : BitVec 16) (tail : Word) : Instr :=
  if w.getLsbD 15 = false then
    decodeForm1 w (w.extractLsb' 8 8).toNat (w.extractLsb' 4 4).toFin (w.extractLsb' 0 4).toFin tail
  else if w.getLsbD 14 = false then
    decodeForm2 (w.extractLsb' 12 2) (w.extractLsb' 8 4).toFin (w.extractLsb' 0 8)
  else
    decodeForm3 w (w.extractLsb' 10 4).toNat (w.extractLsb' 0 10)

/-- How many bytes follow the 16-bit word: the word alone decides (`30_encoding.md` R80). -/
def tailLength (w : BitVec 16) : Nat :=
  (decodeUnits w 0).length - 2

/-- Why bytes are no instruction. -/
inductive DecodeError where
  /-- the bytes end before the instruction does -/
  | truncated
deriving DecidableEq, Repr

/-- The instruction at the front of bytes that stand at rising addresses, with the bytes after it (`30_encoding.md` R95). -/
def decode (e : Endian) (bs : List Byte) : Except DecodeError (Instr × List Byte) :=
  match bs with
  | b0 :: b1 :: rest =>
    let w := (wordOfBytes e [b0, b1]).setWidth 16
    let n := tailLength w
    if rest.length < n then .error .truncated
    else .ok (decodeUnits w (wordOfBytes e (rest.take n)), rest.drop n)
  | _ => .error .truncated

/-- A form 1 word: opcode, A, B (`30_encoding.md` R81). -/
def form1 (op : BitVec 8) (a b : Reg) : BitVec 16 :=
  op ++ BitVec.ofFin (w := 4) a ++ BitVec.ofFin (w := 4) b

/-- A form 2 word: 10, op2, A, i8 or S (`30_encoding.md` R81). -/
def form2 (op2 : BitVec 2) (a : Reg) (x : BitVec 8) : BitVec 16 :=
  0b10#2 ++ op2 ++ BitVec.ofFin (w := 4) a ++ x

/-- A form 3 word: 11, op4, v10 (`30_encoding.md` R81). -/
def form3 (op4 : BitVec 4) (v : BitVec 10) : BitVec 16 :=
  0b11#2 ++ op4 ++ v

/-- The 16-bit word of an instruction (`30_encoding.md` R90 to R92), `x` bits 0 (R88). -/
def Instr.word : Instr → BitVec 16
  | .ldiL a _ => form1 0x01 a 0
  | .mov a b => form1 0x02 a b
  | .jsra _ => form1 0x03 0 0
  | .ret => form1 0x04 0 0
  | .add a b => form1 0x05 a b
  | .push a b => form1 0x06 a b
  | .pop a b => form1 0x07 a b
  | .ldaL a _ => form1 0x08 a 0
  | .staL a _ => form1 0x09 a 0
  | .ldL a b => form1 0x0A a b
  | .stL a b => form1 0x0B a b
  | .ldoL a b _ => form1 0x0C a b
  | .stoL a b _ => form1 0x0D a b
  | .cmp a b => form1 0x0E a b
  | .nop => form1 0x0F 0 0
  | .sexB a b => form1 0x10 a b
  | .sexS a b => form1 0x11 a b
  | .zexB a b => form1 0x12 a b
  | .zexS a b => form1 0x13 a b
  | .umulX a b => form1 0x14 a b
  | .mulX a b => form1 0x15 a b
  | .jsr a => form1 0x19 a 0
  | .jmpa _ => form1 0x1A 0 0
  | .ldiB a _ => form1 0x1B a 0
  | .ldB a b => form1 0x1C a b
  | .ldaB a _ => form1 0x1D a 0
  | .stB a b => form1 0x1E a b
  | .staB a _ => form1 0x1F a 0
  | .ldiS a _ => form1 0x20 a 0
  | .ldS a b => form1 0x21 a b
  | .ldaS a _ => form1 0x22 a 0
  | .stS a b => form1 0x23 a b
  | .staS a _ => form1 0x24 a 0
  | .jmp a => form1 0x25 a 0
  | .and a b => form1 0x26 a b
  | .lshr a b => form1 0x27 a b
  | .ashl a b => form1 0x28 a b
  | .sub a b => form1 0x29 a b
  | .neg a b => form1 0x2A a b
  | .or a b => form1 0x2B a b
  | .not a b => form1 0x2C a b
  | .ashr a b => form1 0x2D a b
  | .xor a b => form1 0x2E a b
  | .mul a b => form1 0x2F a b
  | .swi _ => form1 0x30 0 0
  | .div a b => form1 0x31 a b
  | .udiv a b => form1 0x32 a b
  | .mod a b => form1 0x33 a b
  | .umod a b => form1 0x34 a b
  | .brk => form1 0x35 0 0
  | .ldoB a b _ => form1 0x36 a b
  | .stoB a b _ => form1 0x37 a b
  | .ldoS a b _ => form1 0x38 a b
  | .stoS a b _ => form1 0x39 a b
  | .inc a i8 => form2 0b00 a i8
  | .dec a i8 => form2 0b01 a i8
  | .gsr a n => form2 0b10 a n
  | .ssr a n => form2 0b11 a n
  | .beq v10 => form3 0b0000 v10
  | .bne v10 => form3 0b0001 v10
  | .blt v10 => form3 0b0010 v10
  | .bgt v10 => form3 0b0011 v10
  | .bltu v10 => form3 0b0100 v10
  | .bgtu v10 => form3 0b0101 v10
  | .bge v10 => form3 0b0110 v10
  | .ble v10 => form3 0b0111 v10
  | .bgeu v10 => form3 0b1000 v10
  | .bleu v10 => form3 0b1001 v10
  | .bad w => w

/-- The unit that follows an instruction's word, 0 where there is none (`30_encoding.md` R87). -/
def Instr.tail : Instr → Word
  | .ldiL _ i32 => i32
  | .mov _ _ => 0
  | .jsra i32 => i32
  | .ret => 0
  | .add _ _ => 0
  | .push _ _ => 0
  | .pop _ _ => 0
  | .ldaL _ i32 => i32
  | .staL _ i32 => i32
  | .ldL _ _ => 0
  | .stL _ _ => 0
  | .ldoL _ _ i16 => i16.setWidth 32
  | .stoL _ _ i16 => i16.setWidth 32
  | .cmp _ _ => 0
  | .nop => 0
  | .sexB _ _ => 0
  | .sexS _ _ => 0
  | .zexB _ _ => 0
  | .zexS _ _ => 0
  | .umulX _ _ => 0
  | .mulX _ _ => 0
  | .jsr _ => 0
  | .jmpa i32 => i32
  | .ldiB _ i32 => i32
  | .ldB _ _ => 0
  | .ldaB _ i32 => i32
  | .stB _ _ => 0
  | .staB _ i32 => i32
  | .ldiS _ i32 => i32
  | .ldS _ _ => 0
  | .ldaS _ i32 => i32
  | .stS _ _ => 0
  | .staS _ i32 => i32
  | .jmp _ => 0
  | .and _ _ => 0
  | .lshr _ _ => 0
  | .ashl _ _ => 0
  | .sub _ _ => 0
  | .neg _ _ => 0
  | .or _ _ => 0
  | .not _ _ => 0
  | .ashr _ _ => 0
  | .xor _ _ => 0
  | .mul _ _ => 0
  | .swi i32 => i32
  | .div _ _ => 0
  | .udiv _ _ => 0
  | .mod _ _ => 0
  | .umod _ _ => 0
  | .brk => 0
  | .ldoB _ _ i16 => i16.setWidth 32
  | .stoB _ _ i16 => i16.setWidth 32
  | .ldoS _ _ i16 => i16.setWidth 32
  | .stoS _ _ i16 => i16.setWidth 32
  | .inc _ _ => 0
  | .dec _ _ => 0
  | .gsr _ _ => 0
  | .ssr _ _ => 0
  | .beq _ => 0
  | .bne _ => 0
  | .blt _ => 0
  | .bgt _ => 0
  | .bltu _ => 0
  | .bgtu _ => 0
  | .bge _ => 0
  | .ble _ => 0
  | .bgeu _ => 0
  | .bleu _ => 0
  | .bad _ => 0

/-- The bytes of an instruction at rising addresses: its word, then its trailing unit, each laid out in the byte order as
one unit (`20_memory.md` R55). -/
def encode (e : Endian) (i : Instr) : List Byte :=
  bytesOfWord e 2 (i.word.setWidth 32) ++ bytesOfWord e (i.length - 2) i.tail

/-- The bytes in memory of an instruction given as one number: bits 15:0 are its first 16-bit unit, bits 31:16 the next and
bits 47:32 the last; three units, each in the byte order. -/
def unitBytes (e : Endian) (w : Nat) : List Byte :=
  bytesOfWord e 2 (BitVec.ofNat 32 w) ++ bytesOfWord e 2 (BitVec.ofNat 32 (w >>> 16)) ++
    bytesOfWord e 2 (BitVec.ofNat 32 (w >>> 32))

/-- The instruction that the decoder reads from an opcode-table word: `nbits` bits of `w`, every bit above them 0. -/
def decodeTableWord (nbits w : Nat) : Option Instr :=
  match decode Machine.specConfig.endian (unitBytes Machine.specConfig.endian (w % 2 ^ nbits)) with
  | .ok (i, _) => some i
  | .error _ => none

end Sys2Proof
end

