-- ==== Sys2Proof/Machine/State.lean ====
section
/-! DEFINITION. The machine's state as plain data (`10_state.md` R40), why a step can stop, and the state after reset
(`70_reset_and_hazards.md` R320). -/

namespace Sys2Proof.Machine

/-- Why the machine stops: the model faults of `60_exceptions.md` R298 and `70_reset_and_hazards.md` R325. Each is raised where the spec gives the situation no
meaning (`00_scope.md` R11), so each is SAFE: the hardware may go on where the model stops. -/
inductive Fault where
  /-- Raised by the fetch when `pc` is odd (`20_memory.md` R58, `10_state.md` R24). Safe. -/
  | oddFetch
  /-- Raised by `jmp`, `jmpa`, `jsr`, `jsra`, `ret` on an odd target (`20_memory.md` R58). Safe. -/
  | oddTarget
  /-- Raised by exception entry when special register 1 is odd (`60_exceptions.md` R285). Safe. -/
  | oddHandler
  /-- Raised by a 16- or 32-bit data access at an address that is not a multiple of its size (`20_memory.md` R57). Safe. -/
  | misaligned
  /-- Raised by an access or a fetch that touches an address `MemMap` does not back (`20_memory.md` R50). Safe. -/
  | unbacked
  /-- Raised by `jsr` and `jsra` when the word at `$sp - 4`, which they leave free, is not backed by writable memory
  (`70_reset_and_hazards.md` R325: all 12 bytes below `$sp`). Safe. -/
  | callFrameNotWritable
  /-- Raised by a load or a fetch of a byte that neither the launch nor a store has given a value (`10_state.md` R42).
  Safe. -/
  | unwrittenMemory
  /-- Raised by `udiv` with divisor 0 (`41_muldiv.md` R164). Safe. -/
  | udivByZero
  /-- Raised by `mod` with divisor 0 (`41_muldiv.md` R165). Safe. -/
  | modByZero
  /-- Raised by `umod` with divisor 0 (`41_muldiv.md` R166). Safe. -/
  | umodByZero
  /-- Raised by `gsr` and `ssr` of special register 6, 7 or 8 (`10_state.md` R35). Safe. -/
  | reservedSpecialRegister
  /-- Raised by `gsr` and `ssr` of a special register at or above `NUM_SREGS` (`45_system.md` R260, R261). Safe. -/
  | noSuchSpecialRegister
deriving DecidableEq, Repr

/-- Forms the spec shuts out (`00_scope.md` R11). Each is SAFE: the model says nothing of what the hardware does there. -/
inductive Refusal where
  /-- Raised by `exec` for an instruction that has no meaning yet. Safe. -/
  | notModelled (mnemonic : String)
  /-- Raised by a store, `push`, `jsr` or `jsra` that writes a byte of program text (`20_memory.md` R68). Safe. -/
  | storeIntoText
  /-- Raised by the fetch of a byte that the program has stored to (`93_implementation_defined.md` U13). Safe. -/
  | fetchOfModified
  /-- Raised by `pop` with A = B (`44_load_store.md` R242). Safe. -/
  | popSameRegister
  /-- Raised by a step of a machine whose run `brk` has ended (`45_system.md` R264). Safe. -/
  | runEnded
deriving DecidableEq, Repr

/-- A stop: a fault or a refusal. -/
inductive Stop where
  | fault (f : Fault)
  | refused (r : Refusal)
deriving DecidableEq, Repr

/-- Memory: the bytes that have a value, as pairs of an address and a byte, addresses strictly rising. An address that is
not listed has no value (`10_state.md` R42; assumption log 6). -/
abbrev Memory := List Host.Cell

/-- The condition code: the results of the last `cmp` (`10_state.md` R25). -/
structure CondCode where
  /-- the operands were equal -/
  eq : Bool
  /-- the left operand was less, signed -/
  lt : Bool
  /-- the left operand was less, unsigned -/
  ltu : Bool
deriving DecidableEq, Repr

/-- The special registers (`10_state.md` R38). 6, 7 and 8 are reserved and hold nothing (R35). -/
structure SpecialRegs where
  /-- 0, status (R29) -/
  status : Word
  /-- 1, the address of the exception handler (R30) -/
  handler : Word
  /-- 2, the cause of the last exception (R31) -/
  cause : Word
  /-- 3, the request number of the last `swi` (R32) -/
  swiNumber : Word
  /-- 4, the address of the supervisor mode stack (R33) -/
  supervisorStack : Word
  /-- 5, the return address of the last exception (R34) -/
  returnAddress : Word
  /-- 9, the pointer to the Device Tree blob (R36) -/
  deviceTree : Word
  /-- 10 to 255, plain storage (R37): number `10 + k` is entry `k` -/
  plain : Vector Word 246
deriving DecidableEq, Repr

/-- The special registers that exist, by name (`10_state.md` R38). -/
inductive SReg where
  | status
  | handler
  | cause
  | swiNumber
  | supervisorStack
  | returnAddress
  | deviceTree
  /-- number `10 + k` -/
  | plain (k : Fin 246)
deriving DecidableEq, Repr

/-- The whole state of the machine (`10_state.md` R40), and four fields of the model's own. -/
structure State where
  /-- The configuration (`00_scope.md` R5). The model's own field: no step changes it (assumption log 1). -/
  cfg : Config
  /-- The general registers (`10_state.md` R20). -/
  regs : Vector Word 16
  /-- The program counter (`10_state.md` R23). -/
  pc : Word
  /-- The condition code (`10_state.md` R25). -/
  cc : CondCode
  /-- The special registers (`10_state.md` R38). -/
  sregs : SpecialRegs
  /-- Memory (`10_state.md` R41). -/
  mem : Memory
  /-- An interrupt request is pending (`60_exceptions.md` R291); used only under `IRQ_PRESENT`. -/
  irqPending : Bool
  /-- The addresses stored to since the launch, strictly rising. The model's own field: `20_memory.md` R68 gives no meaning
  to a fetch from one of them (assumption log 17). -/
  stored : List Nat
  /-- How many steps have sampled the environment. The model's own field: the argument of the free value
  `Config.irqArrives` (assumption log 14). -/
  envTick : Nat
  /-- `brk` has ended the run. The model's own field (assumption log 16). -/
  ended : Bool
deriving DecidableEq, Repr

/-- The three outcomes of an instruction or a step. -/
abbrev Result := Host.Outcome State Fault Refusal

/-- The special registers after reset: `DTB_PTR` in number 9 (`70_reset_and_hazards.md` R320). The others are unspecified
there and 0 here (DESIGN CHOICE, unsafe, assumption log 3). -/
def resetSpecialRegs (c : Config) : SpecialRegs where
  status := 0
  handler := 0
  cause := 0
  swiNumber := 0
  supervisorStack := 0
  returnAddress := 0
  deviceTree := c.dtbPtr
  plain := Vector.replicate 246 0

/-- The machine right after reset (`70_reset_and_hazards.md` R320): `pc` is `RESET_PC`, `s[9]` is `DTB_PTR`, no request is
pending and no byte of memory has a value. The general registers and the condition code are unspecified there; here they
are 0 and all false (DESIGN CHOICE, unsafe, assumption log 2 and 4). -/
def State.reset : State where
  cfg := specConfig
  regs := Vector.replicate 16 0
  pc := specConfig.resetPc
  cc := ⟨false, false, false⟩
  sregs := resetSpecialRegs specConfig
  mem := []
  irqPending := false
  stored := []
  envTick := 0
  ended := false

end Sys2Proof.Machine

namespace Sys2Proof

/-- FREE VALUE (assumption log 14). `IrqEnabled` of `00_scope.md` R5: whether a pending interrupt request may be taken, an
open predicate on the state (`60_exceptions.md` R291). -/
opaque Config.irqEnabled : Machine.State → Bool

end Sys2Proof
end

