-- ==== Sys2Proof/Machine/Ops.lean ====
section
/-! DEFINITION. The named operations over registers and memory, and taking an exception: everything the meanings share. An
operation that can stop answers `Except Stop _`; a stop writes nothing (`00_scope.md` R10). -/

namespace Sys2Proof.Machine

/-- A stop as the outcome of an instruction. -/
def Stop.result : Stop → Result
  | .fault f => .fault f
  | .refused r => .refused r

/-! ## Registers -/

/-- `x[r]` (`10_state.md` R20). -/
def State.reg (s : State) (r : Reg) : Word := s.regs[r.val]

/-- `x[r] <- v` (`10_state.md` R21: no register is hardwired). -/
def State.setReg (s : State) (r : Reg) (v : Word) : State := { s with regs := s.regs.set r.val v }

/-- `pc <- t` (`10_state.md` R23). -/
def State.setPc (s : State) (t : Word) : State := { s with pc := t }

/-- `pc <- trunc32(pc + len)` (`10_state.md` R24). -/
def State.advance (s : State) (len : Nat) : State := s.setPc (s.pc + BitVec.ofNat 32 len)

/-- Writes the condition code (`10_state.md` R25). -/
def State.setCc (s : State) (c : CondCode) : State := { s with cc := c }

/-! ## Special registers -/

/-- The special register with a number (`10_state.md` R38); none for the reserved 6, 7 and 8 (R35). -/
def SReg.ofNumber (n : BitVec 8) : Option SReg :=
  if h : 10 ≤ n.toNat then some (.plain ⟨n.toNat - 10, by have := n.isLt; omega⟩)
  else
    match n.toNat with
    | 0 => some .status
    | 1 => some .handler
    | 2 => some .cause
    | 3 => some .swiNumber
    | 4 => some .supervisorStack
    | 5 => some .returnAddress
    | 9 => some .deviceTree
    | _ => none

/-- Reads one special register. -/
def SpecialRegs.get (x : SpecialRegs) : SReg → Word
  | .status => x.status
  | .handler => x.handler
  | .cause => x.cause
  | .swiNumber => x.swiNumber
  | .supervisorStack => x.supervisorStack
  | .returnAddress => x.returnAddress
  | .deviceTree => x.deviceTree
  | .plain k => x.plain[k.val]

/-- Writes one special register; all 32 bits are stored (`10_state.md` R28). -/
def SpecialRegs.set (x : SpecialRegs) (r : SReg) (v : Word) : SpecialRegs :=
  match r with
  | .status => { x with status := v }
  | .handler => { x with handler := v }
  | .cause => { x with cause := v }
  | .swiNumber => { x with swiNumber := v }
  | .supervisorStack => { x with supervisorStack := v }
  | .returnAddress => { x with returnAddress := v }
  | .deviceTree => { x with deviceTree := v }
  | .plain k => { x with plain := x.plain.set k.val v }

/-- `s[r]` (`10_state.md` R27). -/
def State.sreg (s : State) (r : SReg) : Word := s.sregs.get r

/-- `s[r] <- v` (`10_state.md` R27). -/
def State.setSReg (s : State) (r : SReg) (v : Word) : State := { s with sregs := s.sregs.set r v }

/-- The special register that field S of `gsr` or `ssr` names, or the model fault of `45_system.md` R260 and R261: first
the reserved numbers, then `NUM_SREGS`. -/
def State.namedSReg (s : State) (n : BitVec 8) : Except Stop SReg :=
  match SReg.ofNumber n with
  | none => .error (.fault .reservedSpecialRegister)
  | some r => if s.cfg.numSregs ≤ n.toNat then .error (.fault .noSuchSpecialRegister) else .ok r

/-! ## Memory -/

/-- The value of one byte, none where nothing has given it one (`10_state.md` R42). -/
def Memory.read : Memory → Nat → Option Byte
  | [], _ => none
  | c :: m, a => if c.1 = a then some c.2 else Memory.read m a

/-- Writes one byte, in the canonical form. -/
def Memory.write : Memory → Nat → Byte → Memory
  | [], a, b => [(a, b)]
  | c :: m, a, b =>
    if a < c.1 then (a, b) :: c :: m
    else if a = c.1 then (a, b) :: m
    else c :: Memory.write m a b

/-- Adds an address to a strictly rising list. -/
def insertAddr : List Nat → Nat → List Nat
  | [], a => [a]
  | x :: l, a => if a < x then a :: x :: l else if a = x then x :: l else x :: insertAddr l a

/-- The canonical form of memory: addresses strictly rising and below 2^32. An unlisted address has no value, so no entry
can equal what one reads as. -/
def Memory.wf (m : Memory) : Bool :=
  decide (m.Pairwise fun c d => c.1 < d.1) && m.all fun c => c.1 < 2 ^ 32

/-- The region holds the address. -/
def Region.holds (r : Region) (a : Nat) : Bool := decide (r.base ≤ a) && decide (a < r.base + r.size)

/-- `MemMap` backs the address (`20_memory.md` R50). -/
def State.backed (s : State) (a : Word) : Bool := s.cfg.memMap.any fun r => Region.holds r a.toNat

/-- `MemMap` marks the address as program text (`20_memory.md` R68). -/
def State.isText (s : State) (a : Word) : Bool :=
  s.cfg.memMap.any fun r => r.kind == .text && Region.holds r a.toNat

/-- The address of byte `k` of an access at `a`; it wraps (`20_memory.md` R50). -/
def byteAddr (a : Word) (k : Nat) : Word := a + BitVec.ofNat 32 k

/-- The `n` bytes from `a` on are backed by writable memory: backed, and no program text (`20_memory.md` R50, R68). -/
def State.writable (s : State) (a : Word) (n : Nat) : Bool :=
  (List.range n).all fun k => s.backed (byteAddr a k) && !s.isText (byteAddr a k)

/-- Reads one byte as data (`20_memory.md` R50, `10_state.md` R42). -/
def State.loadByte (s : State) (a : Word) : Except Stop Byte :=
  if s.backed a = false then .error (.fault .unbacked)
  else
    match Memory.read s.mem a.toNat with
    | none => .error (.fault .unwrittenMemory)
    | some b => .ok b

/-- Reads one byte of program text (`20_memory.md` R56, R68): a byte that the program has stored to has no meaning as
text. -/
def State.fetchByte (s : State) (a : Word) : Except Stop Byte :=
  if s.backed a = false then .error (.fault .unbacked)
  else if a.toNat ∈ s.stored then .error (.refused .fetchOfModified)
  else
    match Memory.read s.mem a.toNat with
    | none => .error (.fault .unwrittenMemory)
    | some b => .ok b

/-- Writes one byte (`20_memory.md` R50, R68). -/
def State.storeByte (s : State) (a : Word) (b : Byte) : Except Stop State :=
  if s.backed a = false then .error (.fault .unbacked)
  else if s.isText a then .error (.refused .storeIntoText)
  else .ok { s with mem := Memory.write s.mem a.toNat b, stored := insertAddr s.stored a.toNat }

/-- Reads `n` bytes at rising addresses by one of the two byte reads. -/
def readBytes (read : Word → Except Stop Byte) (a : Word) : Nat → Except Stop (List Byte)
  | 0 => .ok []
  | n + 1 =>
    match read a with
    | .error e => .error e
    | .ok b =>
      match readBytes read (byteAddr a 1) n with
      | .error e => .error e
      | .ok bs => .ok (b :: bs)

/-- Writes bytes at rising addresses. -/
def State.storeBytes (s : State) (a : Word) : List Byte → Except Stop State
  | [] => .ok s
  | b :: bs =>
    match s.storeByte a b with
    | .error e => .error e
    | .ok t => State.storeBytes t (byteAddr a 1) bs

/-- The width of a data access (`20_memory.md` R59). -/
inductive Width where
  | byte
  | short
  | long
deriving DecidableEq, Repr

/-- The width in bytes. -/
def Width.bytes : Width → Nat
  | .byte => 1
  | .short => 2
  | .long => 4

/-- The address is a multiple of the access's size (`20_memory.md` R57). -/
def aligned (a : Word) (w : Width) : Bool := a.toNat % w.bytes == 0

/-- `MemRead(a, n)`, zero-extended to 32 bits (`20_memory.md` R52, R57, R59). -/
def State.memRead (s : State) (a : Word) (w : Width) : Except Stop Word :=
  if aligned a w = false then .error (.fault .misaligned)
  else
    match readBytes s.loadByte a w.bytes with
    | .error e => .error e
    | .ok bs => .ok (wordOfBytes s.cfg.endian bs)

/-- `MemWrite(a, n, v)`: the low bytes of `v` (`20_memory.md` R53, R57). -/
def State.memWrite (s : State) (a : Word) (w : Width) (v : Word) : Except Stop State :=
  if aligned a w = false then .error (.fault .misaligned)
  else s.storeBytes a (bytesOfWord s.cfg.endian w.bytes v)

/-- `s` with bytes loaded at rising addresses from `a`, from outside the machine: they are launch values, not stores. -/
def State.load (s : State) (a : Word) : List Byte → State
  | [] => s
  | b :: bs =>
    State.load { s with mem := Memory.write s.mem a.toNat b, stored := s.stored.filter (· != a.toNat) } (byteAddr a 1) bs

/-! ## Instruction fetch -/

/-- The instruction at `pc` (`30_encoding.md` R95, `20_memory.md` R56): the 16-bit word, and then the trailing unit only
for an instruction that has one. -/
def State.fetch (s : State) : Except Stop Instr :=
  if s.pc.toNat % 2 = 1 then .error (.fault .oddFetch)
  else
    match readBytes s.fetchByte s.pc 2 with
    | .error e => .error e
    | .ok bs =>
      let w := (wordOfBytes s.cfg.endian bs).setWidth 16
      match readBytes s.fetchByte (byteAddr s.pc 2) (tailLength w) with
      | .error e => .error e
      | .ok ts => .ok (decodeUnits w (wordOfBytes s.cfg.endian ts))

/-! ## Control transfer -/

/-- `pc <- t` for `jmp`, `jmpa`, `jsr`, `jsra` and `ret`: an odd target is a model fault (`20_memory.md` R58). -/
def State.jumpTo (s : State) (t : Word) : Result :=
  if t.toNat % 2 = 1 then .fault .oddTarget else .next (s.setPc t)

/-! ## Exceptions -/

/-- The four causes (`60_exceptions.md` R280). -/
inductive Cause where
  | divideByZero
  | illegal
  | irq
  | swi
deriving DecidableEq, Repr

/-- The code that special register 2 receives (`60_exceptions.md` R280). -/
def Cause.code (c : Config) : Cause → Word
  | .divideByZero => c.exDiv0
  | .illegal => c.exBad
  | .irq => c.exIrq
  | .swi => c.exSwi

/-- Taking an exception (`60_exceptions.md` R285): the cause's code in `s[2]`, the return address in `s[5]`, `pc` from
`s[1]`, and nothing else. There is no saved status, no mode and no stack switch. An odd handler address is a model fault.
The return from an exception is no instruction of its own (R295): `gsr $rN, 5` and `jmp $rN`. -/
def State.takeException (s : State) (c : Cause) (ra : Word) : Result :=
  if (s.sreg .handler).toNat % 2 = 1 then .fault .oddHandler
  else .next (((s.setSReg .cause (c.code s.cfg)).setSReg .returnAddress ra).setPc (s.sreg .handler))

/-- The return address of a synchronous exception of an instruction of `len` bytes (`60_exceptions.md` R286). -/
def State.excReturnAddress (s : State) (len : Nat) : Word :=
  match s.cfg.excRaMode with
  | .next => s.pc + BitVec.ofNat 32 len
  | .current => s.pc

/-- `raise` of the instruction being executed, `len` bytes long (`60_exceptions.md` R285, R286). -/
def State.raise (s : State) (c : Cause) (len : Nat) : Result := s.takeException c (s.excReturnAddress len)

/-! ## The environment -/

/-- The environment's move before a step (`60_exceptions.md` R291): under `IRQ_PRESENT` it may set `irq_pending`, and the
free value says whether it does. It moves before every step, the first step after an interrupt entry too (DESIGN CHOICE,
safe, assumption log 14). -/
def State.sampleEnv (s : State) : State :=
  if s.cfg.irqPresent then
    { s with irqPending := s.irqPending || Config.irqArrives s.envTick, envTick := s.envTick + 1 }
  else s

/-- A request is pending and may be taken (`60_exceptions.md` R291). -/
def State.irqTaken (s : State) : Bool := s.cfg.irqPresent && (s.irqPending && Config.irqEnabled s)

/-- Taking an interrupt before the instruction at `pc` is fetched: the request is cleared, and the return address is `pc`
(`60_exceptions.md` R286, R291). -/
def State.takeIrq (s : State) : Result := State.takeException { s with irqPending := false } .irq s.pc

end Sys2Proof.Machine
end

