-- ==== Sys2Proof/Machine/Operands.lean ====
section
/-! DEFINITION. The operand forms: immediates (`30_encoding.md` R85 to R87), the effective addresses of every addressing
mode (`44_load_store.md` R243) and of the call frame (`43_jump_call.md` R205). -/

namespace Sys2Proof.Machine

/-- The 8-bit immediate of `inc` and `dec`, unsigned (`30_encoding.md` R85). -/
def imm8 (i8 : BitVec 8) : Word := i8.setWidth 32

/-- The 16-bit offset of `ldo` and `sto`, signed (`30_encoding.md` R87). -/
def off16 (i16 : BitVec 16) : Word := i16.signExtend 32

/-- The byte offset of a branch, signed and shifted left by 1 (`30_encoding.md` R86). -/
def branchOffset (v10 : BitVec 10) : Word := v10.signExtend 32 <<< 1

/-- The target of a branch (`42_compare_branch.md` R182). -/
def State.branchTarget (s : State) (v10 : BitVec 10) : Word := s.pc + s.cfg.branchBase + branchOffset v10

/-- Register indirect (`44_load_store.md` R243). -/
def State.eaIndirect (s : State) (r : Reg) : Word := s.reg r

/-- Base plus offset (`44_load_store.md` R243). -/
def State.eaOffset (s : State) (r : Reg) (i16 : BitVec 16) : Word := s.reg r + off16 i16

/-- The slot that `push` stores to, which is also the new pointer (`44_load_store.md` R241). -/
def State.eaPush (s : State) (r : Reg) : Word := s.reg r - 4

/-- The slot that a call leaves free: `$sp - 4` (`43_jump_call.md` R205). -/
def State.eaCallFree (s : State) : Word := s.reg Reg.sp - 4

/-- The slot of a call's return address: `$sp - 8` (`43_jump_call.md` R205). -/
def State.eaCallReturn (s : State) : Word := s.reg Reg.sp - 8

/-- The slot of the caller's `$fp`, and the new `$sp` and `$fp`: `$sp - 12` (`43_jump_call.md` R205). -/
def State.eaCallFrame (s : State) : Word := s.reg Reg.sp - 12

/-- `sext_8` and `sext_16` of a register's value (`00_scope.md` R8). -/
def sextLow (n : Nat) (v : Word) : Word := (v.setWidth n).signExtend 32

/-- `zext_8` and `zext_16` of a register's value (`00_scope.md` R8). -/
def zextLow (n : Nat) (v : Word) : Word := (v.setWidth n).setWidth 32

end Sys2Proof.Machine
end

