-- ==== Sys2Proof/Machine/Alu.lean ====
section
/-! DEFINITION. The meanings of the arithmetic, logical, shift, move and extend instructions (`40_alu.md`). None writes the
condition code or memory, none raises an exception (R137). -/

namespace Sys2Proof.Machine

/-- The shared end of an instruction that writes one register: `x[a] <- v`, then the next instruction (`00_scope.md` R10). -/
def State.writeReg (s : State) (a : Reg) (v : Word) (len : Nat) : Result := .next ((s.setReg a v).advance len)

/-- The result of a shift of `x` by the whole value of `n` (`40_alu.md` R127 to R129): 32 or more gives the free value
`ShiftOver` (assumption log 15). -/
def shiftResult (op : ShiftOp) (x n : Word) : Word :=
  if n.toNat < 32 then
    match op with
    | .ashl => x <<< n.toNat
    | .ashr => x.sshiftRight n.toNat
    | .lshr => x >>> n.toNat
  else Config.shiftOver op x n

/-- `add` (R120). -/
def execAdd (a b : Reg) (s : State) : Result := s.writeReg a (s.reg a + s.reg b) 2

/-- `sub` (R121). -/
def execSub (a b : Reg) (s : State) : Result := s.writeReg a (s.reg a - s.reg b) 2

/-- `and` (R122). -/
def execAnd (a b : Reg) (s : State) : Result := s.writeReg a (s.reg a &&& s.reg b) 2

/-- `or` (R123). -/
def execOr (a b : Reg) (s : State) : Result := s.writeReg a (s.reg a ||| s.reg b) 2

/-- `xor` (R124). -/
def execXor (a b : Reg) (s : State) : Result := s.writeReg a (s.reg a ^^^ s.reg b) 2

/-- `not` (R125). -/
def execNot (a b : Reg) (s : State) : Result := s.writeReg a (~~~s.reg b) 2

/-- `neg` (R126). -/
def execNeg (a b : Reg) (s : State) : Result := s.writeReg a (-s.reg b) 2

/-- `ashl` (R127). -/
def execAshl (a b : Reg) (s : State) : Result := s.writeReg a (shiftResult .ashl (s.reg a) (s.reg b)) 2

/-- `ashr` (R128). -/
def execAshr (a b : Reg) (s : State) : Result := s.writeReg a (shiftResult .ashr (s.reg a) (s.reg b)) 2

/-- `lshr` (R129). -/
def execLshr (a b : Reg) (s : State) : Result := s.writeReg a (shiftResult .lshr (s.reg a) (s.reg b)) 2

/-- `inc` (R130). -/
def execInc (a : Reg) (i8 : BitVec 8) (s : State) : Result := s.writeReg a (s.reg a + imm8 i8) 2

/-- `dec` (R131). -/
def execDec (a : Reg) (i8 : BitVec 8) (s : State) : Result := s.writeReg a (s.reg a - imm8 i8) 2

/-- `mov` (R132). -/
def execMov (a b : Reg) (s : State) : Result := s.writeReg a (s.reg b) 2

/-- `sex.b` (R133). -/
def execSexB (a b : Reg) (s : State) : Result := s.writeReg a (sextLow 8 (s.reg b)) 2

/-- `sex.s` (R134). -/
def execSexS (a b : Reg) (s : State) : Result := s.writeReg a (sextLow 16 (s.reg b)) 2

/-- `zex.b` (R135). -/
def execZexB (a b : Reg) (s : State) : Result := s.writeReg a (zextLow 8 (s.reg b)) 2

/-- `zex.s` (R136). -/
def execZexS (a b : Reg) (s : State) : Result := s.writeReg a (zextLow 16 (s.reg b)) 2

/-- `nop` (R138). -/
def execNop (s : State) : Result := .next (s.advance 2)

end Sys2Proof.Machine
end

