-- ==== Sys2Proof/Machine/Flags.lean ====
section
/-! DEFINITION. The condition code: what `cmp` computes (`42_compare_branch.md` R180) and when a branch is taken (R181). No
other instruction has a flag. -/

namespace Sys2Proof.Machine

/-- What `cmp` stores for the operands `a` and `b` (`42_compare_branch.md` R180). -/
def compareWords (a b : Word) : CondCode where
  eq := decide (a = b)
  lt := decide (a.toInt < b.toInt)
  ltu := decide (a.toNat < b.toNat)

/-- The branch with this condition is taken (`42_compare_branch.md` R181). -/
def condHolds (c : BranchCond) (f : CondCode) : Bool :=
  match c with
  | .eq => f.eq
  | .ne => !f.eq
  | .lt => f.lt
  | .gt => !f.lt && !f.eq
  | .ltu => f.ltu
  | .gtu => !f.ltu && !f.eq
  | .ge => !f.lt
  | .le => f.lt || f.eq
  | .geu => !f.ltu
  | .leu => f.ltu || f.eq

/-- A condition code that some `cmp` can leave: equal operands are not less (`42_compare_branch.md` R193). -/
def CondCode.legal (c : CondCode) : Bool := !c.eq || (!c.lt && !c.ltu)

end Sys2Proof.Machine
end

