-- ==== Sys2Proof/Machine/CompareBranch.lean ====
section
/-! DEFINITION. The meanings of `cmp` and of the ten conditional branches (`42_compare_branch.md`). -/

namespace Sys2Proof.Machine

/-- `cmp` (R180): writes all of the condition code and no register. -/
def execCmp (a b : Reg) (s : State) : Result := .next ((s.setCc (compareWords (s.reg a) (s.reg b))).advance 2)

/-- What all ten branches share (R182): to the target where the condition holds, else to the next instruction. There is no
delay slot. -/
def State.branchIf (s : State) (c : BranchCond) (v10 : BitVec 10) : Result :=
  .next (if condHolds c s.cc then s.setPc (s.branchTarget v10) else s.advance 2)

/-- `beq` (R183). -/
def execBeq (v10 : BitVec 10) (s : State) : Result := s.branchIf .eq v10

/-- `bne` (R184). -/
def execBne (v10 : BitVec 10) (s : State) : Result := s.branchIf .ne v10

/-- `blt` (R185). -/
def execBlt (v10 : BitVec 10) (s : State) : Result := s.branchIf .lt v10

/-- `bgt` (R186). -/
def execBgt (v10 : BitVec 10) (s : State) : Result := s.branchIf .gt v10

/-- `bltu` (R187). -/
def execBltu (v10 : BitVec 10) (s : State) : Result := s.branchIf .ltu v10

/-- `bgtu` (R188). -/
def execBgtu (v10 : BitVec 10) (s : State) : Result := s.branchIf .gtu v10

/-- `bge` (R189). -/
def execBge (v10 : BitVec 10) (s : State) : Result := s.branchIf .ge v10

/-- `ble` (R190). -/
def execBle (v10 : BitVec 10) (s : State) : Result := s.branchIf .le v10

/-- `bgeu` (R191). -/
def execBgeu (v10 : BitVec 10) (s : State) : Result := s.branchIf .geu v10

/-- `bleu` (R192). -/
def execBleu (v10 : BitVec 10) (s : State) : Result := s.branchIf .leu v10

end Sys2Proof.Machine
end

