-- ==== Sys2Proof/Machine/JumpCall.lean ====
section
/-! DEFINITION. The meanings of the jump, call and return instructions (`43_jump_call.md`). None writes the condition code
and none raises an exception. -/

namespace Sys2Proof.Machine

/-- `jmp` (R200). -/
def execJmp (a : Reg) (s : State) : Result := s.jumpTo (s.reg a)

/-- `jmpa` (R201). -/
def execJmpa (i32 : Word) (s : State) : Result := s.jumpTo i32

/-- What `jsr` and `jsra` share (R202, R203, R205): the return address goes to `$sp - 8` and `$fp` to `$sp - 12`, both `$sp`
and `$fp` become `$sp - 12`, and control goes to the target, which was read before any write. The word at `$sp - 4` is
neither read nor written, but `70_reset_and_hazards.md` R325 asks that all 12 bytes below `$sp` be backed by writable
memory, and gives a model fault otherwise (DEDUCED, safe, assumption log 35: asked of every call). -/
def State.call (s : State) (target : Word) (len : Nat) : Result :=
  match s.memWrite s.eaCallReturn .long (s.pc + BitVec.ofNat 32 len) with
  | .error e => e.result
  | .ok t =>
    match t.memWrite s.eaCallFrame .long (s.reg Reg.fp) with
    | .error e => e.result
    | .ok u =>
      if s.writable s.eaCallFree 4 = false then .fault .callFrameNotWritable
      else ((u.setReg Reg.sp s.eaCallFrame).setReg Reg.fp s.eaCallFrame).jumpTo target

/-- `jsr` (R202). -/
def execJsr (a : Reg) (s : State) : Result := s.call (s.reg a) 2

/-- `jsra` (R203). -/
def execJsra (i32 : Word) (s : State) : Result := s.call i32 6

/-- `ret` (R204): the frame is found through `$fp`; `$sp` is not read. -/
def execRet (s : State) : Result :=
  match s.memRead (s.reg Reg.fp) .long with
  | .error e => e.result
  | .ok savedFp =>
    match s.memRead (s.reg Reg.fp + 4) .long with
    | .error e => e.result
    | .ok ra => ((s.setReg Reg.fp savedFp).setReg Reg.sp (s.reg Reg.fp + 12)).jumpTo ra

end Sys2Proof.Machine
end

