-- ==== Sys2Proof/Machine/LoadStore.lean ====
section
/-! DEFINITION. The meanings of the load, store, load-immediate, push and pop instructions (`44_load_store.md`). None writes
the condition code and none raises an exception; a stop writes nothing (R244). -/

namespace Sys2Proof.Machine

/-- What every load shares: `x[a]` receives the value at `ea`, zero-extended (R243, R244). -/
def State.loadTo (s : State) (a : Reg) (ea : Word) (w : Width) (len : Nat) : Result :=
  match s.memRead ea w with
  | .error e => e.result
  | .ok v => s.writeReg a v len

/-- What every store shares: the low bytes of `v` go to `ea`, and no register changes (R243, R244). -/
def State.storeTo (s : State) (ea : Word) (w : Width) (v : Word) (len : Nat) : Result :=
  match s.memWrite ea w v with
  | .error e => e.result
  | .ok t => .next (t.advance len)

/-- `ld.l` (R220). -/
def execLdL (a b : Reg) (s : State) : Result := s.loadTo a (s.eaIndirect b) .long 2

/-- `ld.s` (R221). -/
def execLdS (a b : Reg) (s : State) : Result := s.loadTo a (s.eaIndirect b) .short 2

/-- `ld.b` (R222). -/
def execLdB (a b : Reg) (s : State) : Result := s.loadTo a (s.eaIndirect b) .byte 2

/-- `st.l` (R223). -/
def execStL (a b : Reg) (s : State) : Result := s.storeTo (s.eaIndirect a) .long (s.reg b) 2

/-- `st.s` (R224). -/
def execStS (a b : Reg) (s : State) : Result := s.storeTo (s.eaIndirect a) .short (s.reg b) 2

/-- `st.b` (R225). -/
def execStB (a b : Reg) (s : State) : Result := s.storeTo (s.eaIndirect a) .byte (s.reg b) 2

/-- `lda.l` (R226). -/
def execLdaL (a : Reg) (i32 : Word) (s : State) : Result := s.loadTo a i32 .long 6

/-- `lda.s` (R227). -/
def execLdaS (a : Reg) (i32 : Word) (s : State) : Result := s.loadTo a i32 .short 6

/-- `lda.b` (R228). -/
def execLdaB (a : Reg) (i32 : Word) (s : State) : Result := s.loadTo a i32 .byte 6

/-- `sta.l` (R229). -/
def execStaL (a : Reg) (i32 : Word) (s : State) : Result := s.storeTo i32 .long (s.reg a) 6

/-- `sta.s` (R230). -/
def execStaS (a : Reg) (i32 : Word) (s : State) : Result := s.storeTo i32 .short (s.reg a) 6

/-- `sta.b` (R231). -/
def execStaB (a : Reg) (i32 : Word) (s : State) : Result := s.storeTo i32 .byte (s.reg a) 6

/-- `ldo.l` (R232). -/
def execLdoL (a b : Reg) (i16 : BitVec 16) (s : State) : Result := s.loadTo a (s.eaOffset b i16) .long 4

/-- `ldo.s` (R233). -/
def execLdoS (a b : Reg) (i16 : BitVec 16) (s : State) : Result := s.loadTo a (s.eaOffset b i16) .short 4

/-- `ldo.b` (R234). -/
def execLdoB (a b : Reg) (i16 : BitVec 16) (s : State) : Result := s.loadTo a (s.eaOffset b i16) .byte 4

/-- `sto.l` (R235). -/
def execStoL (a b : Reg) (i16 : BitVec 16) (s : State) : Result := s.storeTo (s.eaOffset a i16) .long (s.reg b) 4

/-- `sto.s` (R236). -/
def execStoS (a b : Reg) (i16 : BitVec 16) (s : State) : Result := s.storeTo (s.eaOffset a i16) .short (s.reg b) 4

/-- `sto.b` (R237). -/
def execStoB (a b : Reg) (i16 : BitVec 16) (s : State) : Result := s.storeTo (s.eaOffset a i16) .byte (s.reg b) 4

/-- `ldi.l` (R238): the whole 32-bit immediate. -/
def execLdiL (a : Reg) (i32 : Word) (s : State) : Result := s.writeReg a i32 6

/-- `ldi.s` (R239): the whole 32-bit immediate. -/
def execLdiS (a : Reg) (i32 : Word) (s : State) : Result := s.writeReg a i32 6

/-- `ldi.b` (R240): the whole 32-bit immediate. -/
def execLdiB (a : Reg) (i32 : Word) (s : State) : Result := s.writeReg a i32 6

/-- `push` (R241): the value is read before the pointer is lowered. -/
def execPush (a b : Reg) (s : State) : Result :=
  match s.memWrite (s.eaPush a) .long (s.reg b) with
  | .error e => e.result
  | .ok t => t.writeReg a (s.eaPush a) 2

/-- `pop` (R242): A is the pointer and B the destination; A = B is refused. -/
def execPop (a b : Reg) (s : State) : Result :=
  if a = b then .refused .popSameRegister
  else
    match s.memRead (s.eaIndirect a) .long with
    | .error e => e.result
    | .ok v => (s.setReg b v).writeReg a (s.reg a + 4) 2

end Sys2Proof.Machine
end

