-- ==== Sys2Proof/Machine/MulDiv.lean ====
section
/-! DEFINITION. The meanings of the multiply, divide and modulus instructions (`41_muldiv.md`). Operands are read as exact
integers, and the exact result is narrowed at the end. -/

namespace Sys2Proof.Machine

/-- Bits 63:32 of the signed product (`41_muldiv.md` R161). -/
def mulHighSigned (x y : Word) : Word := BitVec.ofInt 32 (x.toInt * y.toInt / 2 ^ 32)

/-- Bits 63:32 of the unsigned product (`41_muldiv.md` R162). -/
def mulHighUnsigned (x y : Word) : Word := BitVec.ofNat 32 (x.toNat * y.toNat / 2 ^ 32)

/-- The signed quotient for a divisor that is not 0, rounded toward zero; `INT_MIN` by -1 is `INT_MIN`
(`41_muldiv.md` R163). -/
def divSigned (x y : Word) : Word :=
  if x = 0x80000000 ∧ y = 0xFFFFFFFF then 0x80000000 else BitVec.ofInt 32 (x.toInt.tdiv y.toInt)

/-- The remainder of that division for a divisor that is not 0 (`41_muldiv.md` R165). -/
def modSigned (x y : Word) : Word := BitVec.ofInt 32 (x.toInt - x.toInt.tdiv y.toInt * y.toInt)

/-- `mul` (R160). -/
def execMul (a b : Reg) (s : State) : Result := s.writeReg a (s.reg a * s.reg b) 2

/-- `mul.x` (R161). -/
def execMulX (a b : Reg) (s : State) : Result := s.writeReg a (mulHighSigned (s.reg a) (s.reg b)) 2

/-- `umul.x` (R162). -/
def execUmulX (a b : Reg) (s : State) : Result := s.writeReg a (mulHighUnsigned (s.reg a) (s.reg b)) 2

/-- `div` (R163): a zero divisor takes the Divide by Zero exception (`60_exceptions.md` R282). -/
def execDiv (a b : Reg) (s : State) : Result :=
  if s.reg b = 0 then s.raise .divideByZero 2 else s.writeReg a (divSigned (s.reg a) (s.reg b)) 2

/-- `udiv` (R164): a zero divisor is a model fault. -/
def execUdiv (a b : Reg) (s : State) : Result :=
  if s.reg b = 0 then .fault .udivByZero else s.writeReg a (s.reg a / s.reg b) 2

/-- `mod` (R165): a zero divisor is a model fault. -/
def execMod (a b : Reg) (s : State) : Result :=
  if s.reg b = 0 then .fault .modByZero else s.writeReg a (modSigned (s.reg a) (s.reg b)) 2

/-- `umod` (R166): a zero divisor is a model fault. -/
def execUmod (a b : Reg) (s : State) : Result :=
  if s.reg b = 0 then .fault .umodByZero else s.writeReg a (s.reg a % s.reg b) 2

end Sys2Proof.Machine
end

