-- ==== Sys2Proof/Machine/System.lean ====
section
/-! DEFINITION. The meanings of special register access, software interrupt, break and the illegal instruction
(`45_system.md`). There is one mode and no instruction is privileged (`60_exceptions.md` R300). -/

namespace Sys2Proof.Machine

/-- `gsr` (R260): the read has no side effect. -/
def execGsr (a : Reg) (n : BitVec 8) (s : State) : Result :=
  match s.namedSReg n with
  | .error e => e.result
  | .ok r => s.writeReg a (s.sreg r) 2

/-- `ssr` (R261): stores all 32 bits and does nothing else. -/
def execSsr (a : Reg) (n : BitVec 8) (s : State) : Result :=
  match s.namedSReg n with
  | .error e => e.result
  | .ok r => .next ((s.setSReg r (s.reg a)).advance 2)

/-- `swi` (R262): the request number goes to `s[3]`, then the exception is taken. -/
def execSwi (i32 : Word) (s : State) : Result := (s.setSReg .swiNumber i32).raise .swi 6

/-- `brk` (R264): ends the run; nothing the spec gives the machine is written, and `pc` keeps the address of the `brk`. -/
def execBrk (s : State) : Result := .next { s with ended := true }

/-- `bad` (R265): the illegal instruction exception. -/
def execBad (s : State) : Result := s.raise .illegal 2

end Sys2Proof.Machine
end

