-- ==== Sys2Proof/Machine/Dispatch.lean ====
section
/-! DEFINITION. Every instruction's meaning: one arm per constructor. -/

namespace Sys2Proof.Machine

def exec (i : Instr) (s : State) : Host.Outcome State Fault Refusal :=
  match i with
  | .ldiL a i32 => Sys2Proof.Machine.execLdiL a i32 s
  | .mov a b => Sys2Proof.Machine.execMov a b s
  | .jsra i32 => Sys2Proof.Machine.execJsra i32 s
  | .ret => Sys2Proof.Machine.execRet s
  | .add a b => Sys2Proof.Machine.execAdd a b s
  | .push a b => Sys2Proof.Machine.execPush a b s
  | .pop a b => Sys2Proof.Machine.execPop a b s
  | .ldaL a i32 => Sys2Proof.Machine.execLdaL a i32 s
  | .staL a i32 => Sys2Proof.Machine.execStaL a i32 s
  | .ldL a b => Sys2Proof.Machine.execLdL a b s
  | .stL a b => Sys2Proof.Machine.execStL a b s
  | .ldoL a b i16 => Sys2Proof.Machine.execLdoL a b i16 s
  | .stoL a b i16 => Sys2Proof.Machine.execStoL a b i16 s
  | .cmp a b => Sys2Proof.Machine.execCmp a b s
  | .nop => Sys2Proof.Machine.execNop s
  | .sexB a b => Sys2Proof.Machine.execSexB a b s
  | .sexS a b => Sys2Proof.Machine.execSexS a b s
  | .zexB a b => Sys2Proof.Machine.execZexB a b s
  | .zexS a b => Sys2Proof.Machine.execZexS a b s
  | .umulX a b => Sys2Proof.Machine.execUmulX a b s
  | .mulX a b => Sys2Proof.Machine.execMulX a b s
  | .jsr a => Sys2Proof.Machine.execJsr a s
  | .jmpa i32 => Sys2Proof.Machine.execJmpa i32 s
  | .ldiB a i32 => Sys2Proof.Machine.execLdiB a i32 s
  | .ldB a b => Sys2Proof.Machine.execLdB a b s
  | .ldaB a i32 => Sys2Proof.Machine.execLdaB a i32 s
  | .stB a b => Sys2Proof.Machine.execStB a b s
  | .staB a i32 => Sys2Proof.Machine.execStaB a i32 s
  | .ldiS a i32 => Sys2Proof.Machine.execLdiS a i32 s
  | .ldS a b => Sys2Proof.Machine.execLdS a b s
  | .ldaS a i32 => Sys2Proof.Machine.execLdaS a i32 s
  | .stS a b => Sys2Proof.Machine.execStS a b s
  | .staS a i32 => Sys2Proof.Machine.execStaS a i32 s
  | .jmp a => Sys2Proof.Machine.execJmp a s
  | .and a b => Sys2Proof.Machine.execAnd a b s
  | .lshr a b => Sys2Proof.Machine.execLshr a b s
  | .ashl a b => Sys2Proof.Machine.execAshl a b s
  | .sub a b => Sys2Proof.Machine.execSub a b s
  | .neg a b => Sys2Proof.Machine.execNeg a b s
  | .or a b => Sys2Proof.Machine.execOr a b s
  | .not a b => Sys2Proof.Machine.execNot a b s
  | .ashr a b => Sys2Proof.Machine.execAshr a b s
  | .xor a b => Sys2Proof.Machine.execXor a b s
  | .mul a b => Sys2Proof.Machine.execMul a b s
  | .swi i32 => Sys2Proof.Machine.execSwi i32 s
  | .div a b => Sys2Proof.Machine.execDiv a b s
  | .udiv a b => Sys2Proof.Machine.execUdiv a b s
  | .mod a b => Sys2Proof.Machine.execMod a b s
  | .umod a b => Sys2Proof.Machine.execUmod a b s
  | .brk => Sys2Proof.Machine.execBrk s
  | .ldoB a b i16 => Sys2Proof.Machine.execLdoB a b i16 s
  | .stoB a b i16 => Sys2Proof.Machine.execStoB a b i16 s
  | .ldoS a b i16 => Sys2Proof.Machine.execLdoS a b i16 s
  | .stoS a b i16 => Sys2Proof.Machine.execStoS a b i16 s
  | .inc a i8 => Sys2Proof.Machine.execInc a i8 s
  | .dec a i8 => Sys2Proof.Machine.execDec a i8 s
  | .gsr a n => Sys2Proof.Machine.execGsr a n s
  | .ssr a n => Sys2Proof.Machine.execSsr a n s
  | .beq v10 => Sys2Proof.Machine.execBeq v10 s
  | .bne v10 => Sys2Proof.Machine.execBne v10 s
  | .blt v10 => Sys2Proof.Machine.execBlt v10 s
  | .bgt v10 => Sys2Proof.Machine.execBgt v10 s
  | .bltu v10 => Sys2Proof.Machine.execBltu v10 s
  | .bgtu v10 => Sys2Proof.Machine.execBgtu v10 s
  | .bge v10 => Sys2Proof.Machine.execBge v10 s
  | .ble v10 => Sys2Proof.Machine.execBle v10 s
  | .bgeu v10 => Sys2Proof.Machine.execBgeu v10 s
  | .bleu v10 => Sys2Proof.Machine.execBleu v10 s
  | .bad _ => Sys2Proof.Machine.execBad s

end Sys2Proof.Machine
end

