-- ==== Sys2Proof/Machine/Step.lean ====
section
/-! DEFINITION. One step of the machine, and the state that runs a given instruction next. -/

namespace Sys2Proof.Machine

/-- One step: after `brk` no step is defined (`45_system.md` R264); the environment moves; a pending and enabled interrupt
is taken before the fetch (`60_exceptions.md` R289, R291); else the instruction at `pc` runs. The environment moves before
every step, so it may raise a request again at once after an interrupt entry, before the handler's first instruction
(DESIGN CHOICE, safe, assumption log 14: R291 offers this and leaves it open). -/
def step (s : State) : Host.Outcome State Fault Refusal :=
  if s.ended then .refused .runEnded
  else
    let t := s.sampleEnv
    if t.irqTaken then t.takeIrq
    else
      match t.fetch with
      | .error e => e.result
      | .ok i => exec i t

/-- `s` with an instruction loaded at `pc`, where the next step fetches it: `nbits` bits of `w`, the first 16-bit unit in
bits 15:0, every bit above `nbits` 0 up to the longest instruction. -/
def State.withFetchWord (s : State) (nbits w : Nat) : State :=
  s.load s.pc (unitBytes s.cfg.endian (w % 2 ^ nbits))

end Sys2Proof.Machine
end

