-- ==== Sys2Proof/Safety.lean ====
section
/-! DEFINITION. The words that the statements use: what an instruction leaves unchanged, what it stores, which encodings are
an instruction's, and the invariant of a run. -/

namespace Sys2Proof.Machine

/-- `t` differs from `s` at most in `pc`, in memory, and in the general registers listed in `written`. -/
structure FrameExceptMemory (written : List Reg) (s t : State) : Prop where
  regs : ∀ r, r ∉ written → t.reg r = s.reg r
  cc : t.cc = s.cc
  sregs : t.sregs = s.sregs
  cfg : t.cfg = s.cfg
  irqPending : t.irqPending = s.irqPending
  envTick : t.envTick = s.envTick
  ended : t.ended = s.ended

/-- Every byte of memory reads in `t` as in `s`, and no address counts as stored to that did not before. -/
structure SameMemory (s t : State) : Prop where
  bytes : ∀ a, Memory.read t.mem a = Memory.read s.mem a
  stored : t.stored = s.stored

/-- `t` differs from `s` at most in `pc` and in the general registers listed in `written`. -/
structure Frame (written : List Reg) (s t : State) : Prop extends FrameExceptMemory written s t, SameMemory s t

/-- The address is one of the `n` bytes from `ea` on. -/
def InAccess (ea : Word) (n : Nat) (a : Nat) : Prop := ∃ k, k < n ∧ a = (byteAddr ea k).toNat

/-- `t`'s memory is `s`'s with the bytes `bs` at rising addresses from `ea` on: they read back, every byte outside them
reads as before, and exactly they are added to the addresses stored to. -/
structure StoresOnly (ea : Word) (bs : List Byte) (s t : State) : Prop where
  bytes : ∀ k (h : k < bs.length), Memory.read t.mem (byteAddr ea k).toNat = some bs[k]
  outside : ∀ a, ¬InAccess ea bs.length a → Memory.read t.mem a = Memory.read s.mem a
  stored : ∀ a, a ∈ t.stored ↔ a ∈ s.stored ∨ InAccess ea bs.length a

/-- The bytes `bs` stand in backed memory at rising addresses from `ea` on. -/
def Holds (s : State) (ea : Word) (bs : List Byte) : Prop :=
  ∀ k (h : k < bs.length), s.backed (byteAddr ea k) = true ∧ Memory.read s.mem (byteAddr ea k).toNat = some bs[k]

/-- The `n` bytes from `ea` on are backed memory that holds no program text: a store may write them. -/
def Writable (s : State) (ea : Word) (n : Nat) : Prop :=
  ∀ k, k < n → s.backed (byteAddr ea k) = true ∧ s.isText (byteAddr ea k) = false

/-- The `n` bytes from `ea` on are backed memory and have values: a load may read them. -/
def Readable (s : State) (ea : Word) (n : Nat) : Prop :=
  ∀ k, k < n → s.backed (byteAddr ea k) = true ∧ (Memory.read s.mem (byteAddr ea k).toNat).isSome = true

/-- `e` is a stop that a load of the `n` bytes from `ea` on has a cause for (`20_memory.md` R50, `10_state.md` R42). -/
def ReadStop (s : State) (ea : Word) (n : Nat) (e : Stop) : Prop :=
  (e = .fault .unbacked ∧ ∃ k, k < n ∧ s.backed (byteAddr ea k) = false) ∨
    (e = .fault .unwrittenMemory ∧ ∃ k, k < n ∧ Memory.read s.mem (byteAddr ea k).toNat = none)

/-- `e` is a stop that a store to the `n` bytes from `ea` on has a cause for (`20_memory.md` R50, R68). -/
def WriteStop (s : State) (ea : Word) (n : Nat) (e : Stop) : Prop :=
  (e = .fault .unbacked ∧ ∃ k, k < n ∧ s.backed (byteAddr ea k) = false) ∨
    (e = .refused .storeIntoText ∧ ∃ k, k < n ∧ s.isText (byteAddr ea k) = true)

/-- The word `w` alone is the encoding of `i`, in both byte orders and whatever follows it. -/
def Encodes2 (w : BitVec 16) (i : Instr) : Prop :=
  ∀ e rest, decode e (bytesOfWord e 2 (w.setWidth 32) ++ rest) = .ok (i, rest)

/-- The word `w` and the 16-bit unit `x` are the encoding of `i`. -/
def Encodes4 (w : BitVec 16) (x : BitVec 16) (i : Instr) : Prop :=
  ∀ e rest, decode e (bytesOfWord e 2 (w.setWidth 32) ++ (bytesOfWord e 2 (x.setWidth 32) ++ rest)) = .ok (i, rest)

/-- The word `w` and the 32-bit unit `x` are the encoding of `i`. -/
def Encodes6 (w : BitVec 16) (x : Word) (i : Instr) : Prop :=
  ∀ e rest, decode e (bytesOfWord e 2 (w.setWidth 32) ++ (bytesOfWord e 4 x ++ rest)) = .ok (i, rest)

/-- The form 1 word of the opcode `op` with these two low fields. -/
def form1Bits (op : BitVec 8) (a b : BitVec 4) : BitVec 16 := op ++ a ++ b

/-- A register number as the 4 bits of a field. -/
def regBits (r : Reg) : BitVec 4 := BitVec.ofFin r

/-- In every state `i` runs to a next state: `dst` receives `v`, nothing else changes, and `pc` moves past `len` bytes. -/
def WritesReg (i : Instr) (dst : Reg) (len : Nat) (v : State → Word) : Prop :=
  ∀ s, ∃ t, exec i s = .next t ∧ t.reg dst = v s ∧ Frame [dst] s t ∧ t.pc = s.pc + BitVec.ofNat 32 len

/-- `i` is the load of `dst` from `ea` (`44_load_store.md` R243, R244). Where the access is aligned and the bytes `bs` stand
there, `i` runs: `dst` receives their value, nothing else changes, and `pc` moves past `len` bytes. Where it is not aligned
(which a byte access always is), `i` stops; and where the read stops for any reason, `i` stops for the same. -/
def Loads (i : Instr) (dst : Reg) (ea : State → Word) (w : Width) (len : Nat) : Prop :=
  (∀ s bs, aligned (ea s) w = true → bs.length = w.bytes → Holds s (ea s) bs →
      ∃ t, exec i s = .next t ∧ t.reg dst = wordOfBytes s.cfg.endian bs ∧ Frame [dst] s t ∧
        t.pc = s.pc + BitVec.ofNat 32 len) ∧
    (∀ s, aligned (ea s) w = false → exec i s = .fault .misaligned) ∧
    ∀ s e, s.memRead (ea s) w = .error e → exec i s = e.result

/-- `i` is the store of the low bytes of `v` to `ea` (`44_load_store.md` R243, R244). Where the access is aligned and the
bytes are writable, `i` runs: they hold the value, no register changes, no other byte changes, and `pc` moves past `len`
bytes. Where it is not aligned (which a byte access always is), `i` stops; and where the write stops for any reason, `i`
stops for the same. -/
def Stores (i : Instr) (ea : State → Word) (w : Width) (v : State → Word) (len : Nat) : Prop :=
  (∀ s, aligned (ea s) w = true → Writable s (ea s) w.bytes →
      ∃ t, exec i s = .next t ∧ StoresOnly (ea s) (bytesOfWord s.cfg.endian w.bytes (v s)) s t ∧
        FrameExceptMemory [] s t ∧ t.pc = s.pc + BitVec.ofNat 32 len) ∧
    (∀ s, aligned (ea s) w = false → exec i s = .fault .misaligned) ∧
    ∀ s e, s.memWrite (ea s) w (v s) = .error e → exec i s = e.result

/-- `t` is `s` after taking an exception with this code and return address (`60_exceptions.md` R285): `s[2]`, `s[5]` and `pc`
are written, and no general register, no other special register, not the condition code and no memory. -/
structure ExceptionEntered (code ra : Word) (s t : State) : Prop where
  cause : t.sregs.cause = code
  returnAddress : t.sregs.returnAddress = ra
  pc : t.pc = s.sregs.handler
  otherSregs : ∀ r, r ≠ .cause → r ≠ .returnAddress → t.sreg r = s.sreg r
  regs : ∀ r, t.reg r = s.reg r
  cc : t.cc = s.cc
  memory : SameMemory s t
  cfg : t.cfg = s.cfg
  irqPending : t.irqPending = s.irqPending
  envTick : t.envTick = s.envTick
  ended : t.ended = s.ended

/-- The address is even: an instruction may start there (`20_memory.md` R58). -/
def evenAddr (a : Word) : Bool := a.toNat % 2 == 0

/-- The invariant of a run: the configuration is one the spec admits, `pc` is even, memory and the list of addresses stored
to are in canonical form, no address stored to is program text, and the condition code is one a `cmp` can leave. -/
structure State.Inv (s : State) : Prop where
  cfg : s.cfg.wf
  pcEven : evenAddr s.pc = true
  mem : Memory.wf s.mem = true
  stored : s.stored.Pairwise (· < ·)
  storedNotText : ∀ a : Word, a.toNat ∈ s.stored → s.isText a = false
  cc : s.cc.legal = true

/-- `i` is the call of `target` (`43_jump_call.md` R202, R203, R205; `70_reset_and_hazards.md` R325). Where `$sp` is a
multiple of 4, the twelve bytes below it are writable and the target is even, `i` runs: the eight bytes from `$sp - 12` on
hold `$fp` and the return address, `$sp` and `$fp` become `$sp - 12`, nothing else changes, and `pc` is the target. It stops
on a `$sp` that is not a multiple of 4 and, where the twelve bytes are writable, on an odd target. Where one of the twelve
is not backed or is program text, it stops: for such a byte of the two slots it writes, for the word at `$sp - 4`, or for an
odd target; where several causes meet, this says nothing of their order. -/
def Calls (i : Instr) (target : State → Word) (len : Nat) : Prop :=
  (∀ s, aligned (s.reg Reg.sp) .long = true → Writable s (s.reg Reg.sp - 12) 12 → evenAddr (target s) = true →
      ∃ t, exec i s = .next t ∧ t.reg Reg.sp = s.reg Reg.sp - 12 ∧ t.reg Reg.fp = s.reg Reg.sp - 12 ∧
        StoresOnly (s.reg Reg.sp - 12)
          (bytesOfWord s.cfg.endian 4 (s.reg Reg.fp) ++ bytesOfWord s.cfg.endian 4 (s.pc + BitVec.ofNat 32 len)) s t ∧
        FrameExceptMemory [Reg.fp, Reg.sp] s t ∧ t.pc = target s) ∧
    (∀ s, aligned (s.reg Reg.sp) .long = false → exec i s = .fault .misaligned) ∧
    (∀ s, aligned (s.reg Reg.sp) .long = true → Writable s (s.reg Reg.sp - 12) 12 → evenAddr (target s) = false →
      exec i s = .fault .oddTarget) ∧
    ∀ s, aligned (s.reg Reg.sp) .long = true → ¬Writable s (s.reg Reg.sp - 12) 12 →
      ∃ e, exec i s = e.result ∧
        (WriteStop s (s.reg Reg.sp - 12) 8 e ∨
          (¬Writable s (s.reg Reg.sp - 4) 4 ∧ e = .fault .callFrameNotWritable) ∨
          (evenAddr (target s) = false ∧ e = .fault .oddTarget))

/-- The return address `60_exceptions.md` R286 gives for a synchronous exception of an instruction of `len` bytes. -/
def returnAddressFor (s : State) (len : Nat) : Word :=
  if s.cfg.excRaMode = .next then s.pc + BitVec.ofNat 32 len else s.pc

/-- `r` is the taking of an exception in `s`, by an instruction of `len` bytes (`60_exceptions.md` R285, R286): entry to
the handler, or the model fault of an odd handler address. -/
def Raises (r : Result) (code : Word) (len : Nat) (s : State) : Prop :=
  (evenAddr s.sregs.handler = true → ∃ t, r = .next t ∧ ExceptionEntered code (returnAddressFor s len) s t) ∧
    (evenAddr s.sregs.handler = false → r = .fault .oddHandler)

/-- The special registers 0 to 5 and 9: number, name, and the field of the state that holds each (`10_state.md` R38). -/
def specialRegisterRows : List (BitVec 8 × SReg × (SpecialRegs → Word)) :=
  [(0, .status, fun x => x.status), (1, .handler, fun x => x.handler), (2, .cause, fun x => x.cause),
    (3, .swiNumber, fun x => x.swiNumber), (4, .supervisorStack, fun x => x.supervisorStack),
    (5, .returnAddress, fun x => x.returnAddress), (9, .deviceTree, fun x => x.deviceTree)]

/-- Each number of a special register names the register that `10_state.md` R38 gives it, and reads the field that holds
it: 0 to 5 and 9 by the rows, `10 + k` the plain register `k`, and 6, 7 and 8 none. -/
def SpecialRegistersNumbered : Prop :=
  (∀ row ∈ specialRegisterRows, SReg.ofNumber row.1 = some row.2.1 ∧ ∀ s : State, s.sreg row.2.1 = row.2.2 s.sregs) ∧
    (∀ k : Fin 246, SReg.ofNumber (BitVec.ofNat 8 (10 + k.val)) = some (.plain k) ∧
      ∀ s : State, s.sreg (.plain k) = s.sregs.plain[k.val]) ∧
    ∀ n ∈ [(6 : BitVec 8), 7, 8], SReg.ofNumber n = none

/-- The ten branches: op4 (`30_encoding.md` R92), the instruction, and when it is taken (`42_compare_branch.md` R181). -/
def branchRows : List (BitVec 4 × (BitVec 10 → Instr) × (CondCode → Bool)) :=
  [(0b0000, .beq, fun c => c.eq), (0b0001, .bne, fun c => !c.eq), (0b0010, .blt, fun c => c.lt),
    (0b0011, .bgt, fun c => !c.lt && !c.eq), (0b0100, .bltu, fun c => c.ltu), (0b0101, .bgtu, fun c => !c.ltu && !c.eq),
    (0b0110, .bge, fun c => !c.lt), (0b0111, .ble, fun c => c.lt || c.eq), (0b1000, .bgeu, fun c => !c.ltu),
    (0b1001, .bleu, fun c => c.ltu || c.eq)]

/-- The ten branches in the source's words: the relation of the operands of the last `cmp` on which each is taken
(`42_compare_branch.md` R181). -/
def relationRows : List ((BitVec 10 → Instr) × (Word → Word → Bool)) :=
  [(.beq, fun x y => decide (x = y)), (.bne, fun x y => decide (x ≠ y)),
    (.blt, fun x y => decide (x.toInt < y.toInt)), (.bgt, fun x y => decide (x.toInt > y.toInt)),
    (.bge, fun x y => decide (x.toInt ≥ y.toInt)), (.ble, fun x y => decide (x.toInt ≤ y.toInt)),
    (.bltu, fun x y => decide (x.toNat < y.toNat)), (.bgtu, fun x y => decide (x.toNat > y.toNat)),
    (.bgeu, fun x y => decide (x.toNat ≥ y.toNat)), (.bleu, fun x y => decide (x.toNat ≤ y.toNat))]

/-- The general registers that an instruction may write: its destination, an address register that it updates, and `$fp`
and `$sp` for the call frame (`10_state.md` R21, `44_load_store.md` R243, `43_jump_call.md` R202 to R204). -/
def destinations : Instr → List Reg
  | .ldiL a _ => [a]
  | .mov a _ => [a]
  | .jsra _ => [Reg.fp, Reg.sp]
  | .ret => [Reg.fp, Reg.sp]
  | .add a _ => [a]
  | .push a _ => [a]
  | .pop a b => [a, b]
  | .ldaL a _ => [a]
  | .staL _ _ => []
  | .ldL a _ => [a]
  | .stL _ _ => []
  | .ldoL a _ _ => [a]
  | .stoL _ _ _ => []
  | .cmp _ _ => []
  | .nop => []
  | .sexB a _ => [a]
  | .sexS a _ => [a]
  | .zexB a _ => [a]
  | .zexS a _ => [a]
  | .umulX a _ => [a]
  | .mulX a _ => [a]
  | .jsr _ => [Reg.fp, Reg.sp]
  | .jmpa _ => []
  | .ldiB a _ => [a]
  | .ldB a _ => [a]
  | .ldaB a _ => [a]
  | .stB _ _ => []
  | .staB _ _ => []
  | .ldiS a _ => [a]
  | .ldS a _ => [a]
  | .ldaS a _ => [a]
  | .stS _ _ => []
  | .staS _ _ => []
  | .jmp _ => []
  | .and a _ => [a]
  | .lshr a _ => [a]
  | .ashl a _ => [a]
  | .sub a _ => [a]
  | .neg a _ => [a]
  | .or a _ => [a]
  | .not a _ => [a]
  | .ashr a _ => [a]
  | .xor a _ => [a]
  | .mul a _ => [a]
  | .swi _ => []
  | .div a _ => [a]
  | .udiv a _ => [a]
  | .mod a _ => [a]
  | .umod a _ => [a]
  | .brk => []
  | .ldoB a _ _ => [a]
  | .stoB _ _ _ => []
  | .ldoS a _ _ => [a]
  | .stoS _ _ _ => []
  | .inc a _ => [a]
  | .dec a _ => [a]
  | .gsr a _ => [a]
  | .ssr _ _ => []
  | .beq _ => []
  | .bne _ => []
  | .blt _ => []
  | .bgt _ => []
  | .bltu _ => []
  | .bgtu _ => []
  | .bge _ => []
  | .ble _ => []
  | .bgeu _ => []
  | .bleu _ => []
  | .bad _ => []

/-- The bytes that an instruction stores to, as the address of the first and their number; none for one that stores nothing
(`20_memory.md` R59, `44_load_store.md` R243, `43_jump_call.md` R205: a call writes the two lower slots of its frame). -/
def storeAccess : Instr → State → Option (Word × Nat)
  | .ldiL _ _, _ => none
  | .mov _ _, _ => none
  | .jsra _, s => some (s.eaCallFrame, 8)
  | .ret, _ => none
  | .add _ _, _ => none
  | .push a _, s => some (s.eaPush a, 4)
  | .pop _ _, _ => none
  | .ldaL _ _, _ => none
  | .staL _ x, _ => some (x, 4)
  | .ldL _ _, _ => none
  | .stL a _, s => some (s.eaIndirect a, 4)
  | .ldoL _ _ _, _ => none
  | .stoL a _ x, s => some (s.eaOffset a x, 4)
  | .cmp _ _, _ => none
  | .nop, _ => none
  | .sexB _ _, _ => none
  | .sexS _ _, _ => none
  | .zexB _ _, _ => none
  | .zexS _ _, _ => none
  | .umulX _ _, _ => none
  | .mulX _ _, _ => none
  | .jsr _, s => some (s.eaCallFrame, 8)
  | .jmpa _, _ => none
  | .ldiB _ _, _ => none
  | .ldB _ _, _ => none
  | .ldaB _ _, _ => none
  | .stB a _, s => some (s.eaIndirect a, 1)
  | .staB _ x, _ => some (x, 1)
  | .ldiS _ _, _ => none
  | .ldS _ _, _ => none
  | .ldaS _ _, _ => none
  | .stS a _, s => some (s.eaIndirect a, 2)
  | .staS _ x, _ => some (x, 2)
  | .jmp _, _ => none
  | .and _ _, _ => none
  | .lshr _ _, _ => none
  | .ashl _ _, _ => none
  | .sub _ _, _ => none
  | .neg _ _, _ => none
  | .or _ _, _ => none
  | .not _ _, _ => none
  | .ashr _ _, _ => none
  | .xor _ _, _ => none
  | .mul _ _, _ => none
  | .swi _, _ => none
  | .div _ _, _ => none
  | .udiv _ _, _ => none
  | .mod _ _, _ => none
  | .umod _ _, _ => none
  | .brk, _ => none
  | .ldoB _ _ _, _ => none
  | .stoB a _ x, s => some (s.eaOffset a x, 1)
  | .ldoS _ _ _, _ => none
  | .stoS a _ x, s => some (s.eaOffset a x, 2)
  | .inc _ _, _ => none
  | .dec _ _, _ => none
  | .gsr _ _, _ => none
  | .ssr _ _, _ => none
  | .beq _, _ => none
  | .bne _, _ => none
  | .blt _, _ => none
  | .bgt _, _ => none
  | .bltu _, _ => none
  | .bgtu _, _ => none
  | .bge _, _ => none
  | .ble _, _ => none
  | .bgeu _, _ => none
  | .bleu _, _ => none
  | .bad _, _ => none

/-- The `n` bytes from `a` on are program text. -/
def TextFrom (s : State) (a : Word) (n : Nat) : Prop := ∀ k, k < n → s.isText (byteAddr a k) = true

end Sys2Proof.Machine
end

