-- ==== Sys2Proof/Certificates/Slice0/Obligations.lean ====
section
/-! DEFINITION. The statements for the provers, from the numbered rules of spec/. -/

open Sys2Proof Sys2Proof.Machine

/-! ## Encoding -/

/-- Words written out from the patterns of `30_encoding.md` R90 to R92, one for each family and layout, decode to the
instructions they stand for, in both byte orders. -/
def Obligations.DecodeSampleWords : Prop :=
  decode .big [0x05, 0x23] = .ok (.add 2 3, []) ∧ decode .little [0x23, 0x05] = .ok (.add 2 3, []) ∧
    decode .big [0x82, 0xFF] = .ok (.inc 2 0xFF, []) ∧ decode .big [0xB2, 0x01] = .ok (.ssr 2 1, []) ∧
    decode .big [0x31, 0x23] = .ok (.div 2 3, []) ∧ decode .little [0xFE, 0xC3] = .ok (.beq 0x3FE, []) ∧
    decode .big [0x1A, 0x00, 0x12, 0x34, 0x56, 0x78] = .ok (.jmpa 0x12345678, []) ∧
    decode .little [0x00, 0x1A, 0x78, 0x56, 0x34, 0x12] = .ok (.jmpa 0x12345678, []) ∧
    decode .little [0x23, 0x0C, 0xFC, 0xFF] = .ok (.ldoL 2 3 0xFFFC, []) ∧
    decode .big [0x00, 0x00, 0x01] = .ok (.bad 0x0000, [0x01])

/-- Decoding the bytes of a well-formed instruction gives the instruction back and leaves the bytes after it, in both byte
orders and for every value of every operand. -/
def Obligations.DecodeEncodeRoundTrip : Prop :=
  ∀ e i rest, i.WellFormed → decode e (encode e i ++ rest) = .ok (i, rest)

/-- The decoder is total (`30_encoding.md` R95): any word with four bytes after it is a well-formed instruction of 2, 4 or 6
bytes. Bytes are refused exactly where they end before the instruction does: no byte, one byte, or too few after the word. -/
def Obligations.DecodeIsTotal : Prop :=
  (∀ e b0 b1 rest, 4 ≤ List.length rest →
      ∃ i, decode e (b0 :: b1 :: rest) = .ok (i, rest.drop (i.length - 2)) ∧ i.WellFormed ∧
        (i.length = 2 ∨ i.length = 4 ∨ i.length = 6)) ∧
    (∀ e, decode e [] = .error .truncated ∧ ∀ b, decode e [b] = .error .truncated) ∧
    ∀ e b0 b1 rest, decode e (b0 :: b1 :: rest) = .error .truncated ↔
      List.length rest < tailLength ((wordOfBytes e [b0, b1]).setWidth 16)

/-- The words that decode to `bad` (`30_encoding.md` R93), by opcode and by match and mask; `bad` is 2 bytes long and raises
the illegal instruction exception. -/
def Obligations.BadWordsExactly : Prop :=
  ∀ (w : BitVec 16) (tail : Word),
    (decodeUnits w tail = .bad w ↔
        (w.getLsbD 15 = false ∧
            ((w.extractLsb' 8 8).toNat ∈ [0x00, 0x16, 0x17, 0x18] ∨ 0x3A ≤ (w.extractLsb' 8 8).toNat)) ∨
          (w.getLsbD 15 = true ∧ w.getLsbD 14 = true ∧ 0b1010 ≤ (w.extractLsb' 10 4).toNat)) ∧
      (decodeUnits w tail = .bad w ↔
        ∃ p ∈ [((0x0000 : BitVec 16), (0xFF00 : BitVec 16)), (0x1600, 0xFF00), (0x1700, 0xFF00), (0x1800, 0xFF00),
          (0x3A00, 0xFE00), (0x3C00, 0xFC00), (0x4000, 0xC000), (0xE800, 0xF800), (0xF000, 0xF000)], w &&& p.2 = p.1) ∧
      (∀ w', decodeUnits w tail = .bad w' → w' = w) ∧ (Instr.bad w).length = 2 ∧
      ∀ s, Raises (exec (.bad w) s) s.cfg.exBad 2 s

/-- The 16-bit word alone decides the length, and the length is the table's (`30_encoding.md` R80). -/
def Obligations.FirstWordDecidesLength : Prop :=
  (∀ w t1 t2, (decodeUnits w t1).length = (decodeUnits w t2).length) ∧
    ∀ i : Instr,
      (i.length = 6 ↔ ∃ a x, i ∈ [Instr.ldiL a x, .ldiS a x, .ldiB a x, .ldaL a x, .ldaS a x, .ldaB a x, .staL a x,
        .staS a x, .staB a x, .jmpa x, .jsra x, .swi x]) ∧
      (i.length = 4 ↔ ∃ a b x, i ∈ [Instr.ldoL a b x, .ldoS a b x, .ldoB a b x, .stoL a b x, .stoS a b x, .stoB a b x]) ∧
      (i.length = 2 ∨ i.length = 4 ∨ i.length = 6)

/-- A bit printed `x` is ignored (`30_encoding.md` R88): two words that agree on the bits above decode alike, eight low bits
ignored for `jsra ret nop jmpa swi brk` and four for `ldi lda sta jsr jmp`. -/
def Obligations.IgnoredBitsDoNotMatter : Prop :=
  (∀ (w w' : BitVec 16) (tail : Word), (w.extractLsb' 8 8).toNat ∈ [0x03, 0x04, 0x0F, 0x1A, 0x30, 0x35] →
      w.extractLsb' 8 8 = w'.extractLsb' 8 8 → decodeUnits w tail = decodeUnits w' tail) ∧
    ∀ (w w' : BitVec 16) (tail : Word),
      (w.extractLsb' 8 8).toNat ∈ [0x01, 0x08, 0x09, 0x19, 0x1B, 0x1D, 0x1F, 0x20, 0x22, 0x24, 0x25] →
      w.extractLsb' 4 12 = w'.extractLsb' 4 12 → decodeUnits w tail = decodeUnits w' tail

/-! ## One step -/

/-- Where no interrupt is taken and the bytes at an even `pc` decode to an instruction, a step is that instruction's
meaning, after the environment's move; without `IRQ_PRESENT` that move changes nothing. -/
def Obligations.StepRunsDecodedInstruction : Prop :=
  ∀ s i bs, s.ended = false → s.sampleEnv.irqTaken = false → evenAddr s.pc = true → Holds s s.pc bs →
    (∀ k, k < bs.length → (byteAddr s.pc k).toNat ∉ s.stored) → decode s.cfg.endian bs = .ok (i, []) →
    step s = exec i s.sampleEnv ∧ (s.cfg.irqPresent = false → step s = exec i s)

/-- Where a fetch stops a step that takes no interrupt (`20_memory.md` R50, R58, R68; `10_state.md` R24, R42): an odd `pc`;
and, where the bytes before it can be fetched and are too few for an instruction, a byte that nothing backs, that the
program has stored to, or that has no value: any byte of the 16-bit word or of the trailing unit. That the lowest such byte
decides, and for one byte backing before stores before value, is the model's choice (assumption log 28); that a byte stored
to is refused also outside program text is log 17. -/
def Obligations.FetchStops : Prop :=
  ∀ s, s.ended = false → s.sampleEnv.irqTaken = false →
    (evenAddr s.pc = false → step s = .fault .oddFetch) ∧
      ∀ bs, evenAddr s.pc = true → Holds s s.pc bs → (∀ k, k < bs.length → (byteAddr s.pc k).toNat ∉ s.stored) →
        decode s.cfg.endian bs = .error .truncated →
        let a := byteAddr s.pc bs.length
        (s.backed a = false → step s = .fault .unbacked) ∧
          (s.backed a = true → a.toNat ∈ s.stored → step s = .refused .fetchOfModified) ∧
          (s.backed a = true → a.toNat ∉ s.stored → Memory.read s.mem a.toNat = none →
            step s = .fault .unwrittenMemory)

/-- Interrupts (`60_exceptions.md` R289, R291): without `IRQ_PRESENT` none occurs. With it, the environment may set the
request before the fetch; a pending and enabled request is cleared and taken with the address of the instruction at `pc` as
return address, and that instruction does not run (an odd handler address is the model fault of R285); else it runs. That
the request arrives as the free value `Config.irqArrives` of the model's own counter says, that it may do so before every
step, the first after an interrupt entry too, and that `irqPending` stands in the state without `IRQ_PRESENT` as well, is
the model's choice (assumption log 14). -/
def Obligations.InterruptTakenBeforeFetch : Prop :=
  (∀ s : State, s.cfg.irqPresent = false → s.sampleEnv = s ∧ s.irqTaken = false) ∧
    ∀ s, s.ended = false → s.cfg.irqPresent = true →
      let u := { s with irqPending := s.irqPending || Config.irqArrives s.envTick, envTick := s.envTick + 1 }
      if (u.irqPending && Config.irqEnabled u) = true then
        (evenAddr s.sregs.handler = true →
            ∃ t, step s = .next t ∧ ExceptionEntered s.cfg.exIrq s.pc { u with irqPending := false } t) ∧
          (evenAddr s.sregs.handler = false → step s = .fault .oddHandler)
      else
        step s = match u.fetch with
          | .error e => e.result
          | .ok i => exec i u

/-- `brk` ends the run (`45_system.md`, entry `brk`): nothing the spec gives the machine is written and `pc` keeps its value.
That the end is a mark in the state, and that a step after it is refused, is the model's choice (assumption log 16). -/
def Obligations.BrkEndsRun : Prop :=
  ∀ (x y : BitVec 4), Encodes2 (form1Bits 0x35 x y) .brk ∧
    ∀ s, ∃ t, exec .brk s = .next t ∧ t = { s with ended := true } ∧ step t = .refused .runEnded

/-! ## Arithmetic, logic, shift, move, extend -/

/-- `add`, `sub`, `neg`, `inc`, `dec` (`40_alu.md` R120, R121, R126, R130, R131): the encoding, and the exact result modulo
2^32 in $rA with nothing else changed. -/
def Obligations.ArithmeticResults : Prop :=
  ∀ (a b : Reg) (i8 : BitVec 8),
    (Encodes2 (form1Bits 0x05 (regBits a) (regBits b)) (.add a b) ∧
        WritesReg (.add a b) a 2 fun s => BitVec.ofNat 32 ((s.reg a).toNat + (s.reg b).toNat)) ∧
      (Encodes2 (form1Bits 0x29 (regBits a) (regBits b)) (.sub a b) ∧
        WritesReg (.sub a b) a 2 fun s => BitVec.ofInt 32 (((s.reg a).toNat : Int) - ((s.reg b).toNat : Int))) ∧
      (Encodes2 (form1Bits 0x2A (regBits a) (regBits b)) (.neg a b) ∧
        WritesReg (.neg a b) a 2 fun s => BitVec.ofInt 32 (0 - ((s.reg b).toNat : Int))) ∧
      (Encodes2 (form2 0b00 a i8) (.inc a i8) ∧
        WritesReg (.inc a i8) a 2 fun s => BitVec.ofNat 32 ((s.reg a).toNat + i8.toNat)) ∧
      (Encodes2 (form2 0b01 a i8) (.dec a i8) ∧
        WritesReg (.dec a i8) a 2 fun s => BitVec.ofInt 32 (((s.reg a).toNat : Int) - (i8.toNat : Int)))

/-- `and`, `or`, `xor`, `not` (`40_alu.md` R122 to R125): the encoding, and the bitwise result in $rA with nothing else
changed. -/
def Obligations.LogicResults : Prop :=
  ∀ a b : Reg,
    (Encodes2 (form1Bits 0x26 (regBits a) (regBits b)) (.and a b) ∧
        WritesReg (.and a b) a 2 fun s => s.reg a &&& s.reg b) ∧
      (Encodes2 (form1Bits 0x2B (regBits a) (regBits b)) (.or a b) ∧
        WritesReg (.or a b) a 2 fun s => s.reg a ||| s.reg b) ∧
      (Encodes2 (form1Bits 0x2E (regBits a) (regBits b)) (.xor a b) ∧
        WritesReg (.xor a b) a 2 fun s => s.reg a ^^^ s.reg b) ∧
      (Encodes2 (form1Bits 0x2C (regBits a) (regBits b)) (.not a b) ∧
        WritesReg (.not a b) a 2 fun s => BitVec.ofNat 32 (2 ^ 32 - 1 - (s.reg b).toNat))

/-- `ashl`, `ashr`, `lshr` (`40_alu.md` R127 to R129): the encoding; below 32 the exact result; from 32 on the open value
`ShiftOver` of the operation, the value and the amount. -/
def Obligations.ShiftResults : Prop :=
  ∀ a b : Reg,
    (Encodes2 (form1Bits 0x28 (regBits a) (regBits b)) (.ashl a b) ∧
        WritesReg (.ashl a b) a 2 fun s =>
          if (s.reg b).toNat < 32 then BitVec.ofNat 32 ((s.reg a).toNat * 2 ^ (s.reg b).toNat)
          else Config.shiftOver .ashl (s.reg a) (s.reg b)) ∧
      (Encodes2 (form1Bits 0x2D (regBits a) (regBits b)) (.ashr a b) ∧
        WritesReg (.ashr a b) a 2 fun s =>
          if (s.reg b).toNat < 32 then BitVec.ofInt 32 ((s.reg a).toInt.fdiv (2 ^ (s.reg b).toNat))
          else Config.shiftOver .ashr (s.reg a) (s.reg b)) ∧
      (Encodes2 (form1Bits 0x27 (regBits a) (regBits b)) (.lshr a b) ∧
        WritesReg (.lshr a b) a 2 fun s =>
          if (s.reg b).toNat < 32 then BitVec.ofNat 32 ((s.reg a).toNat / 2 ^ (s.reg b).toNat)
          else Config.shiftOver .lshr (s.reg a) (s.reg b))

/-- `mov`, `sex.b`, `sex.s`, `zex.b`, `zex.s` (`40_alu.md` R132 to R136): the encoding, and the value in $rA with nothing
else changed. -/
def Obligations.MoveAndExtendResults : Prop :=
  ∀ a b : Reg,
    (Encodes2 (form1Bits 0x02 (regBits a) (regBits b)) (.mov a b) ∧ WritesReg (.mov a b) a 2 fun s => s.reg b) ∧
      (Encodes2 (form1Bits 0x10 (regBits a) (regBits b)) (.sexB a b) ∧
        WritesReg (.sexB a b) a 2 fun s => BitVec.ofInt 32 ((s.reg b).extractLsb' 0 8).toInt) ∧
      (Encodes2 (form1Bits 0x11 (regBits a) (regBits b)) (.sexS a b) ∧
        WritesReg (.sexS a b) a 2 fun s => BitVec.ofInt 32 ((s.reg b).extractLsb' 0 16).toInt) ∧
      (Encodes2 (form1Bits 0x12 (regBits a) (regBits b)) (.zexB a b) ∧
        WritesReg (.zexB a b) a 2 fun s => s.reg b &&& 0x000000FF) ∧
      (Encodes2 (form1Bits 0x13 (regBits a) (regBits b)) (.zexS a b) ∧
        WritesReg (.zexS a b) a 2 fun s => s.reg b &&& 0x0000FFFF)

/-- `nop` (`40_alu.md` R138): the encoding, its low eight bits ignored, and nothing but `pc` changed. -/
def Obligations.NopAdvancesOnly : Prop :=
  (∀ x y : BitVec 4, Encodes2 (form1Bits 0x0F x y) .nop) ∧
    ∀ s, ∃ t, exec .nop s = .next t ∧ Frame [] s t ∧ t.pc = s.pc + 2

/-! ## Multiply, divide, modulus -/

/-- `mul`, `mul.x`, `umul.x` (`41_muldiv.md` R160 to R162): the encoding, and the low word of the product, the high word of
the signed product, the high word of the unsigned product. -/
def Obligations.MultiplyResults : Prop :=
  ∀ a b : Reg,
    (Encodes2 (form1Bits 0x2F (regBits a) (regBits b)) (.mul a b) ∧
        WritesReg (.mul a b) a 2 fun s => BitVec.ofNat 32 ((s.reg a).toNat * (s.reg b).toNat)) ∧
      (Encodes2 (form1Bits 0x15 (regBits a) (regBits b)) (.mulX a b) ∧
        WritesReg (.mulX a b) a 2 fun s => BitVec.ofInt 32 (((s.reg a).toInt * (s.reg b).toInt).fdiv (2 ^ 32))) ∧
      (Encodes2 (form1Bits 0x14 (regBits a) (regBits b)) (.umulX a b) ∧
        WritesReg (.umulX a b) a 2 fun s => BitVec.ofNat 32 ((s.reg a).toNat * (s.reg b).toNat / 2 ^ 32))

/-- `div` (`41_muldiv.md` R163): the encoding; a zero divisor takes the Divide by Zero exception; `INT_MIN` by -1 is
`INT_MIN`; else the quotient, rounded toward zero, in $rA with nothing else changed. -/
def Obligations.DivResults : Prop :=
  ∀ a b : Reg, Encodes2 (form1Bits 0x31 (regBits a) (regBits b)) (.div a b) ∧
    (∀ s, s.reg b = 0 → Raises (exec (.div a b) s) s.cfg.exDiv0 2 s) ∧
    ∀ s, s.reg b ≠ 0 →
      ∃ t, exec (.div a b) s = .next t ∧ Frame [a] s t ∧ t.pc = s.pc + 2 ∧
        t.reg a =
          if (s.reg a).toInt = -2 ^ 31 ∧ (s.reg b).toInt = -1 then 0x80000000
          else BitVec.ofInt 32 ((s.reg a).toInt.tdiv (s.reg b).toInt)

/-- `udiv` and `umod` (`41_muldiv.md` R164, R166): the encoding; a zero divisor is a model fault; else the quotient, the
remainder, in $rA with nothing else changed. -/
def Obligations.UnsignedDivideResults : Prop :=
  ∀ a b : Reg,
    (Encodes2 (form1Bits 0x32 (regBits a) (regBits b)) (.udiv a b) ∧
        (∀ s, s.reg b = 0 → exec (.udiv a b) s = .fault .udivByZero) ∧
        ∀ s, s.reg b ≠ 0 →
          ∃ t, exec (.udiv a b) s = .next t ∧ Frame [a] s t ∧ t.pc = s.pc + 2 ∧
            (t.reg a).toNat = (s.reg a).toNat / (s.reg b).toNat) ∧
      (Encodes2 (form1Bits 0x34 (regBits a) (regBits b)) (.umod a b) ∧
        (∀ s, s.reg b = 0 → exec (.umod a b) s = .fault .umodByZero) ∧
        ∀ s, s.reg b ≠ 0 →
          ∃ t, exec (.umod a b) s = .next t ∧ Frame [a] s t ∧ t.pc = s.pc + 2 ∧
            (t.reg a).toNat = (s.reg a).toNat - (s.reg a).toNat / (s.reg b).toNat * (s.reg b).toNat)

/-- `mod` (`41_muldiv.md` R165): the encoding; a zero divisor is a model fault; else the remainder of the division that
rounds toward zero, in $rA with nothing else changed; it is 0 or has the dividend's sign, and is smaller than the divisor. -/
def Obligations.ModResults : Prop :=
  ∀ a b : Reg, Encodes2 (form1Bits 0x33 (regBits a) (regBits b)) (.mod a b) ∧
    (∀ s, s.reg b = 0 → exec (.mod a b) s = .fault .modByZero) ∧
    ∀ s, s.reg b ≠ 0 →
      ∃ t, exec (.mod a b) s = .next t ∧ Frame [a] s t ∧ t.pc = s.pc + 2 ∧
        t.reg a =
          BitVec.ofInt 32 ((s.reg a).toInt - (s.reg a).toInt.tdiv (s.reg b).toInt * (s.reg b).toInt) ∧
        ((t.reg a).toInt = 0 ∨ ((t.reg a).toInt < 0 ↔ (s.reg a).toInt < 0)) ∧
        (t.reg a).toInt.natAbs < (s.reg b).toInt.natAbs

/-- Quotient and remainder fit together: the dividend is quotient times divisor plus remainder, as exact integers, but for
`INT_MIN` by -1, where the quotient is `INT_MIN` and the remainder 0. -/
def Obligations.DivModIdentity : Prop :=
  ∀ (a b : Reg) (s t u : State), exec (.div a b) s = .next t → exec (.mod a b) s = .next u →
    (¬((s.reg a).toInt = -2 ^ 31 ∧ (s.reg b).toInt = -1) →
        (s.reg a).toInt = (t.reg a).toInt * (s.reg b).toInt + (u.reg a).toInt) ∧
      ((s.reg a).toInt = -2 ^ 31 ∧ (s.reg b).toInt = -1 → (t.reg a).toInt = -2 ^ 31 ∧ (u.reg a).toInt = 0)

/-! ## Compare and branch -/

/-- `cmp` (`42_compare_branch.md` R180): the encoding; all of the condition code written from exact comparisons with nothing
else changed; and no other instruction writes the condition code. -/
def Obligations.CmpResult : Prop :=
  (∀ a b : Reg, Encodes2 (form1Bits 0x0E (regBits a) (regBits b)) (.cmp a b) ∧
      ∀ s, ∃ t, exec (.cmp a b) s = .next t ∧ (t.cc.eq = true ↔ s.reg a = s.reg b) ∧
        (t.cc.lt = true ↔ (s.reg a).toInt < (s.reg b).toInt) ∧ (t.cc.ltu = true ↔ (s.reg a).toNat < (s.reg b).toNat) ∧
        Frame [] { s with cc := t.cc } t ∧ t.pc = s.pc + 2) ∧
    ∀ i s t, exec i s = .next t → (∀ a b, i ≠ .cmp a b) → t.cc = s.cc

/-- The ten branches (`42_compare_branch.md` R182 to R192): the encodings; to `pc + BRANCH_BASE` plus twice the signed
offset where the condition holds, else to `pc + 2`; nothing else changes; an even `pc` stays even. -/
def Obligations.BranchResults : Prop :=
  ∀ row ∈ branchRows, ∀ v10 : BitVec 10, Encodes2 (form3 row.1 v10) (row.2.1 v10) ∧
    ∀ s, ∃ t, exec (row.2.1 v10) s = .next t ∧ Frame [] s t ∧
      t.pc = (if row.2.2 s.cc = true then s.pc + s.cfg.branchBase + BitVec.ofInt 32 (2 * v10.toInt) else s.pc + 2) ∧
      (s.cfg.wf → evenAddr s.pc = true → evenAddr t.pc = true)

/-- A branch after a `cmp` is taken exactly on its relation between the operands of that `cmp`, signed or unsigned as the
source words it (`42_compare_branch.md` R181, R193). -/
def Obligations.CmpThenBranch : Prop :=
  ∀ row ∈ relationRows, ∀ (a b : Reg) (v10 : BitVec 10) (s t : State), exec (.cmp a b) s = .next t →
    ∃ u, exec (row.1 v10) t = .next u ∧
      u.pc = if row.2 (s.reg a) (s.reg b) = true then t.pc + t.cfg.branchBase + BitVec.ofInt 32 (2 * v10.toInt)
        else t.pc + 2

/-- A step that changes the condition code has run a `cmp` (`10_state.md` R26): no other instruction, no exception entry and
no interrupt touches it. -/
def Obligations.OnlyCmpWritesCc : Prop :=
  ∀ s t, step s = .next t → t.cc ≠ s.cc →
    ∃ a b, s.sampleEnv.irqTaken = false ∧ s.sampleEnv.fetch = .ok (.cmp a b) ∧ t.cc = compareWords (s.reg a) (s.reg b)

/-! ## Jumps, calls, return -/

/-- `jmp` and `jmpa` (`43_jump_call.md` R200, R201): the encodings; to an even target with nothing else changed; an odd
target is a model fault. -/
def Obligations.JumpResults : Prop :=
  (∀ (a : Reg) (x : BitVec 4), Encodes2 (form1Bits 0x25 (regBits a) x) (.jmp a) ∧
      (∀ s, evenAddr (s.reg a) = true → ∃ t, exec (.jmp a) s = .next t ∧ Frame [] s t ∧ t.pc = s.reg a) ∧
      ∀ s, evenAddr (s.reg a) = false → exec (.jmp a) s = .fault .oddTarget) ∧
    ∀ (x y : BitVec 4) (i32 : Word), Encodes6 (form1Bits 0x1A x y) i32 (.jmpa i32) ∧
      (evenAddr i32 = true → ∀ s, ∃ t, exec (.jmpa i32) s = .next t ∧ Frame [] s t ∧ t.pc = i32) ∧
      (evenAddr i32 = false → ∀ s, exec (.jmpa i32) s = .fault .oddTarget)

/-- `jsr` and `jsra` (`43_jump_call.md` R202, R203, R205): the encodings, and the call frame. The word at `$sp - 4` is among
the bytes that do not change. A slot that is not backed or is program text stops the call, the free one at `$sp - 4` too:
R325 of `70_reset_and_hazards.md` asks for all 12 bytes below `$sp` before the first call. That it is asked of every call,
beside the two slots that R202 names, is read from the two rules together (DEDUCED, assumption log 35). -/
def Obligations.CallResults : Prop :=
  (∀ (a : Reg) (x : BitVec 4), Encodes2 (form1Bits 0x19 (regBits a) x) (.jsr a) ∧ Calls (.jsr a) (fun s => s.reg a) 2) ∧
    ∀ (x y : BitVec 4) (i32 : Word), Encodes6 (form1Bits 0x03 x y) i32 (.jsra i32) ∧ Calls (.jsra i32) (fun _ => i32) 6

/-- `ret` (`43_jump_call.md` R204): the encoding; where `$fp` is a multiple of 4 and the two words stand there, `$fp` and
`pc` receive them and `$sp` becomes `$fp + 12`, with nothing else changed; an odd return address and a `$fp` that is not a
multiple of 4 are model faults; and where a byte of the two words is not backed or has no value, `ret` stops for such a
byte (the transfer, at which an odd target stops, comes after both reads: `20_memory.md` R58). -/
def Obligations.RetResult : Prop :=
  (∀ x y : BitVec 4, Encodes2 (form1Bits 0x04 x y) .ret) ∧
    (∀ s fpBytes raBytes, aligned (s.reg Reg.fp) .long = true → fpBytes.length = 4 → raBytes.length = 4 →
      Holds s (s.reg Reg.fp) (fpBytes ++ raBytes) →
      (evenAddr (wordOfBytes s.cfg.endian raBytes) = true →
          ∃ t, exec .ret s = .next t ∧ t.reg Reg.fp = wordOfBytes s.cfg.endian fpBytes ∧
            t.reg Reg.sp = s.reg Reg.fp + 12 ∧ Frame [Reg.fp, Reg.sp] s t ∧
            t.pc = wordOfBytes s.cfg.endian raBytes) ∧
        (evenAddr (wordOfBytes s.cfg.endian raBytes) = false → exec .ret s = .fault .oddTarget)) ∧
    (∀ s, aligned (s.reg Reg.fp) .long = false → exec .ret s = .fault .misaligned) ∧
    ∀ s, aligned (s.reg Reg.fp) .long = true → ¬Readable s (s.reg Reg.fp) 8 →
      ∃ e, exec .ret s = e.result ∧ ReadStop s (s.reg Reg.fp) 8 e

/-- A call and its return (`43_jump_call.md` R206): from any state with the `$fp` and the two words that the call left,
`ret` restores `$sp` and `$fp` and continues after the call, and changes nothing else. -/
def Obligations.CallReturnRoundTrip : Prop :=
  ∀ (i : Instr) (s t u : State), (∃ a, i = .jsr a) ∨ (∃ x, i = .jsra x) → exec i s = .next t → evenAddr s.pc = true →
    u.cfg = t.cfg → u.reg Reg.fp = t.reg Reg.fp →
    (∀ a, InAccess (s.reg Reg.sp - 12) 8 a → Memory.read u.mem a = Memory.read t.mem a) →
    ∃ v, exec .ret u = .next v ∧ v.reg Reg.sp = s.reg Reg.sp ∧ v.reg Reg.fp = s.reg Reg.fp ∧
      v.pc = s.pc + BitVec.ofNat 32 i.length ∧ Frame [Reg.fp, Reg.sp] u v

/-! ## Loads and stores -/

/-- `ld.l`, `ld.s`, `ld.b` (`44_load_store.md` R220 to R222): the encodings, and the load from the address in $rB. -/
def Obligations.IndirectLoadResults : Prop :=
  ∀ a b : Reg,
    (Encodes2 (form1Bits 0x0A (regBits a) (regBits b)) (.ldL a b) ∧ Loads (.ldL a b) a (fun s => s.reg b) .long 2) ∧
      (Encodes2 (form1Bits 0x21 (regBits a) (regBits b)) (.ldS a b) ∧ Loads (.ldS a b) a (fun s => s.reg b) .short 2) ∧
      (Encodes2 (form1Bits 0x1C (regBits a) (regBits b)) (.ldB a b) ∧ Loads (.ldB a b) a (fun s => s.reg b) .byte 2)

/-- `lda.l`, `lda.s`, `lda.b` (`44_load_store.md` R226 to R228): the encodings, and the load from the absolute address. -/
def Obligations.AbsoluteLoadResults : Prop :=
  ∀ (a : Reg) (x : BitVec 4) (i32 : Word),
    (Encodes6 (form1Bits 0x08 (regBits a) x) i32 (.ldaL a i32) ∧ Loads (.ldaL a i32) a (fun _ => i32) .long 6) ∧
      (Encodes6 (form1Bits 0x22 (regBits a) x) i32 (.ldaS a i32) ∧ Loads (.ldaS a i32) a (fun _ => i32) .short 6) ∧
      (Encodes6 (form1Bits 0x1D (regBits a) x) i32 (.ldaB a i32) ∧ Loads (.ldaB a i32) a (fun _ => i32) .byte 6)

/-- `ldo.l`, `ldo.s`, `ldo.b` (`44_load_store.md` R232 to R234): the encodings, and the load from $rB plus the signed
offset. -/
def Obligations.OffsetLoadResults : Prop :=
  ∀ (a b : Reg) (i16 : BitVec 16),
    (Encodes4 (form1Bits 0x0C (regBits a) (regBits b)) i16 (.ldoL a b i16) ∧
        Loads (.ldoL a b i16) a (fun s => s.reg b + BitVec.ofInt 32 i16.toInt) .long 4) ∧
      (Encodes4 (form1Bits 0x38 (regBits a) (regBits b)) i16 (.ldoS a b i16) ∧
        Loads (.ldoS a b i16) a (fun s => s.reg b + BitVec.ofInt 32 i16.toInt) .short 4) ∧
      (Encodes4 (form1Bits 0x36 (regBits a) (regBits b)) i16 (.ldoB a b i16) ∧
        Loads (.ldoB a b i16) a (fun s => s.reg b + BitVec.ofInt 32 i16.toInt) .byte 4)

/-- `st.l`, `st.s`, `st.b` (`44_load_store.md` R223 to R225): the encodings, and the store of $rB's low bytes to the address
in $rA. -/
def Obligations.IndirectStoreResults : Prop :=
  ∀ a b : Reg,
    (Encodes2 (form1Bits 0x0B (regBits a) (regBits b)) (.stL a b) ∧
        Stores (.stL a b) (fun s => s.reg a) .long (fun s => s.reg b) 2) ∧
      (Encodes2 (form1Bits 0x23 (regBits a) (regBits b)) (.stS a b) ∧
        Stores (.stS a b) (fun s => s.reg a) .short (fun s => s.reg b) 2) ∧
      (Encodes2 (form1Bits 0x1E (regBits a) (regBits b)) (.stB a b) ∧
        Stores (.stB a b) (fun s => s.reg a) .byte (fun s => s.reg b) 2)

/-- `sta.l`, `sta.s`, `sta.b` (`44_load_store.md` R229 to R231): the encodings, and the store of $rA's low bytes to the
absolute address. -/
def Obligations.AbsoluteStoreResults : Prop :=
  ∀ (a : Reg) (x : BitVec 4) (i32 : Word),
    (Encodes6 (form1Bits 0x09 (regBits a) x) i32 (.staL a i32) ∧
        Stores (.staL a i32) (fun _ => i32) .long (fun s => s.reg a) 6) ∧
      (Encodes6 (form1Bits 0x24 (regBits a) x) i32 (.staS a i32) ∧
        Stores (.staS a i32) (fun _ => i32) .short (fun s => s.reg a) 6) ∧
      (Encodes6 (form1Bits 0x1F (regBits a) x) i32 (.staB a i32) ∧
        Stores (.staB a i32) (fun _ => i32) .byte (fun s => s.reg a) 6)

/-- `sto.l`, `sto.s`, `sto.b` (`44_load_store.md` R235 to R237): the encodings, and the store of $rB's low bytes to $rA plus
the signed offset. The base is $rA, as the operations of the three rules have it: the sentences of `sto.l` and `sto.s` that
say "$rB" are a slip of the source (`90_conflicts.md` C5, assumption log 34). -/
def Obligations.OffsetStoreResults : Prop :=
  ∀ (a b : Reg) (i16 : BitVec 16),
    (Encodes4 (form1Bits 0x0D (regBits a) (regBits b)) i16 (.stoL a b i16) ∧
        Stores (.stoL a b i16) (fun s => s.reg a + BitVec.ofInt 32 i16.toInt) .long (fun s => s.reg b) 4) ∧
      (Encodes4 (form1Bits 0x39 (regBits a) (regBits b)) i16 (.stoS a b i16) ∧
        Stores (.stoS a b i16) (fun s => s.reg a + BitVec.ofInt 32 i16.toInt) .short (fun s => s.reg b) 4) ∧
      (Encodes4 (form1Bits 0x37 (regBits a) (regBits b)) i16 (.stoB a b i16) ∧
        Stores (.stoB a b i16) (fun s => s.reg a + BitVec.ofInt 32 i16.toInt) .byte (fun s => s.reg b) 4)

/-- `ldi.l`, `ldi.s`, `ldi.b` (`44_load_store.md` R238 to R240): the encodings, and the whole immediate in $rA with nothing
else changed. -/
def Obligations.LoadImmediateResults : Prop :=
  ∀ (a : Reg) (x : BitVec 4) (i32 : Word),
    (Encodes6 (form1Bits 0x01 (regBits a) x) i32 (.ldiL a i32) ∧ WritesReg (.ldiL a i32) a 6 fun _ => i32) ∧
      (Encodes6 (form1Bits 0x20 (regBits a) x) i32 (.ldiS a i32) ∧ WritesReg (.ldiS a i32) a 6 fun _ => i32) ∧
      (Encodes6 (form1Bits 0x1B (regBits a) x) i32 (.ldiB a i32) ∧ WritesReg (.ldiB a i32) a 6 fun _ => i32)

/-- `push` (`44_load_store.md` R241): the encoding; the value $rB had before goes to `$rA - 4`, which becomes $rA, with
nothing else changed; an address that is not a multiple of 4 is a model fault, and where the write stops, so does `push`. -/
def Obligations.PushResult : Prop :=
  ∀ a b : Reg, Encodes2 (form1Bits 0x06 (regBits a) (regBits b)) (.push a b) ∧
    (∀ s, aligned (s.reg a - 4) .long = true → Writable s (s.reg a - 4) 4 →
      ∃ t, exec (.push a b) s = .next t ∧ t.reg a = s.reg a - 4 ∧
        StoresOnly (s.reg a - 4) (bytesOfWord s.cfg.endian 4 (s.reg b)) s t ∧ FrameExceptMemory [a] s t ∧
        t.pc = s.pc + 2) ∧
    (∀ s, aligned (s.reg a - 4) .long = false → exec (.push a b) s = .fault .misaligned) ∧
    ∀ s e, s.memWrite (s.reg a - 4) .long (s.reg b) = .error e → exec (.push a b) s = e.result

/-- `pop` (`44_load_store.md` R242): the encoding; A = B is refused; else the word at $rA goes to $rB and $rA rises by 4,
with nothing else changed; an address that is not a multiple of 4 is a model fault, and where the read stops, so does
`pop`. -/
def Obligations.PopResult : Prop :=
  ∀ a b : Reg, Encodes2 (form1Bits 0x07 (regBits a) (regBits b)) (.pop a b) ∧
    (a = b → ∀ s, exec (.pop a b) s = .refused .popSameRegister) ∧
    (a ≠ b →
      (∀ s bs, aligned (s.reg a) .long = true → bs.length = 4 → Holds s (s.reg a) bs →
          ∃ t, exec (.pop a b) s = .next t ∧ t.reg b = wordOfBytes s.cfg.endian bs ∧ t.reg a = s.reg a + 4 ∧
            Frame [a, b] s t ∧ t.pc = s.pc + 2) ∧
        (∀ s, aligned (s.reg a) .long = false → exec (.pop a b) s = .fault .misaligned) ∧
        ∀ s e, s.memRead (s.reg a) .long = .error e → exec (.pop a b) s = e.result)

/-- A word that was pushed is popped: into any register but the pointer, which has its old value again. -/
def Obligations.PushPopRoundTrip : Prop :=
  ∀ (a b c : Reg) (s t : State), exec (.push a b) s = .next t → c ≠ a →
    ∃ u, exec (.pop a c) t = .next u ∧ u.reg c = s.reg b ∧ u.reg a = s.reg a

/-- `MemRead` in both byte orders (`20_memory.md` R52), and that no instruction changes the byte order. -/
def Obligations.MemReadByteOrder : Prop :=
  (∀ (s : State) (a : Word) (b0 b1 b2 b3 : Byte),
      (Holds s a [b0] → ∃ v, s.memRead a .byte = .ok v ∧ v.toNat = b0.toNat) ∧
        (aligned a .short = true → Holds s a [b0, b1] → ∃ v, s.memRead a .short = .ok v ∧
          v.toNat = if s.cfg.endian = .big then b0.toNat * 2 ^ 8 + b1.toNat else b1.toNat * 2 ^ 8 + b0.toNat) ∧
        (aligned a .long = true → Holds s a [b0, b1, b2, b3] → ∃ v, s.memRead a .long = .ok v ∧
          v.toNat = if s.cfg.endian = .big then b0.toNat * 2 ^ 24 + b1.toNat * 2 ^ 16 + b2.toNat * 2 ^ 8 + b3.toNat
            else b3.toNat * 2 ^ 24 + b2.toNat * 2 ^ 16 + b1.toNat * 2 ^ 8 + b0.toNat)) ∧
    ∀ i s t, exec i s = .next t → t.cfg.endian = s.cfg.endian

/-- `MemWrite` (`20_memory.md` R53): a read of the same width returns the low bits that were stored; for `big` the most
significant byte goes to the address, for `little` the least significant. -/
def Obligations.MemWriteReadsBack : Prop :=
  ∀ (s t : State) (a v : Word) (w : Width), s.memWrite a w v = .ok t →
    t.memRead a w = .ok (BitVec.ofNat 32 (v.toNat % 2 ^ (8 * w.bytes))) ∧
      Memory.read t.mem a.toNat =
        some (BitVec.ofNat 8 (if s.cfg.endian = .big then v.toNat / 2 ^ (8 * (w.bytes - 1)) else v.toNat))

/-- Narrow reads of a stored long (`20_memory.md` R54). -/
def Obligations.MixedWidthAccess : Prop :=
  ∀ (s t : State) (a : Word), s.memWrite a .long 0x11223344 = .ok t →
    (s.cfg.endian = .big → t.memRead a .byte = .ok 0x11 ∧ t.memRead a .short = .ok 0x1122 ∧
        t.memRead (a + 2) .short = .ok 0x3344 ∧ t.memRead (a + 3) .byte = .ok 0x44) ∧
      (s.cfg.endian = .little → t.memRead a .byte = .ok 0x44 ∧ t.memRead a .short = .ok 0x3344 ∧
        t.memRead (a + 2) .short = .ok 0x1122 ∧ t.memRead (a + 3) .byte = .ok 0x11)

/-- Where an aligned data access stops (`20_memory.md` R50, R68; `10_state.md` R42): where any of its bytes is not backed,
has no value for a read, or is program text for a write, it stops for such a byte; and where the first byte is one, for the
first. That the first byte decides where several apply, and for one byte backing before text before value, is the model's
choice (assumption log 28). -/
def Obligations.AccessStops : Prop :=
  ∀ (s : State) (a v : Word) (w : Width), aligned a w = true →
    (s.backed a = false → s.memRead a w = .error (.fault .unbacked) ∧ s.memWrite a w v = .error (.fault .unbacked)) ∧
      (s.backed a = true → Memory.read s.mem a.toNat = none → s.memRead a w = .error (.fault .unwrittenMemory)) ∧
      (s.backed a = true → s.isText a = true → s.memWrite a w v = .error (.refused .storeIntoText)) ∧
      (¬Readable s a w.bytes → ∃ e, s.memRead a w = .error e ∧ ReadStop s a w.bytes e) ∧
      (¬Writable s a w.bytes → ∃ e, s.memWrite a w v = .error e ∧ WriteStop s a w.bytes e)

/-! ## Special registers and exceptions -/

/-- `gsr` (`45_system.md` R260): the encoding; a reserved number and a number at or above `NUM_SREGS` are model faults; else
all 32 bits are copied to $rA with nothing else changed, from the register that `10_state.md` R38 numbers so. A register
that nothing has written holds its reset value, which is the model's choice (assumption log 3). -/
def Obligations.GsrResult : Prop :=
  SpecialRegistersNumbered ∧ ∀ (a : Reg) (n : BitVec 8), Encodes2 (form2 0b10 a n) (.gsr a n) ∧
    (n.toNat ∈ [6, 7, 8] → ∀ s, exec (.gsr a n) s = .fault .reservedSpecialRegister) ∧
    (n.toNat ∉ [6, 7, 8] → ∀ s, s.cfg.numSregs ≤ n.toNat → exec (.gsr a n) s = .fault .noSuchSpecialRegister) ∧
    (n.toNat ∉ [6, 7, 8] → ∀ s, n.toNat < s.cfg.numSregs →
      ∃ r t, SReg.ofNumber n = some r ∧ exec (.gsr a n) s = .next t ∧ t.reg a = s.sreg r ∧ Frame [a] s t ∧
        t.pc = s.pc + 2)

/-- `ssr` (`45_system.md` R261): the encoding; a reserved number and a number at or above `NUM_SREGS` are model faults; else
all 32 bits are stored in the register that `10_state.md` R38 numbers so, and nothing else changes. -/
def Obligations.SsrResult : Prop :=
  SpecialRegistersNumbered ∧ ∀ (a : Reg) (n : BitVec 8), Encodes2 (form2 0b11 a n) (.ssr a n) ∧
    (n.toNat ∈ [6, 7, 8] → ∀ s, exec (.ssr a n) s = .fault .reservedSpecialRegister) ∧
    (n.toNat ∉ [6, 7, 8] → ∀ s, s.cfg.numSregs ≤ n.toNat → exec (.ssr a n) s = .fault .noSuchSpecialRegister) ∧
    (n.toNat ∉ [6, 7, 8] → ∀ s, n.toNat < s.cfg.numSregs →
      ∃ r t, SReg.ofNumber n = some r ∧ exec (.ssr a n) s = .next t ∧ t.sreg r = s.reg a ∧
        (∀ q, q ≠ r → t.sreg q = s.sreg q) ∧ Frame [] { s with sregs := t.sregs } t ∧ t.pc = s.pc + 2)

/-- What `ssr` stores under a number, `gsr` of that number returns, and `gsr` of another number does not see. -/
def Obligations.SsrGsrRoundTrip : Prop :=
  ∀ (a b : Reg) (m n : BitVec 8) (s t u : State), exec (.ssr a n) s = .next t → exec (.gsr b m) t = .next u →
    (m = n → u.reg b = s.reg a) ∧ (m ≠ n → ∃ v, exec (.gsr b m) s = .next v ∧ u.reg b = v.reg b)

/-- `swi` (`45_system.md` R262): the encoding; the request number goes to `s[3]` and the software interrupt exception is
taken. `s[1]` holds a value also where nothing has written it: the model's choice (assumption log 3). -/
def Obligations.SwiResult : Prop :=
  ∀ (x y : BitVec 4) (i32 : Word), Encodes6 (form1Bits 0x30 x y) i32 (.swi i32) ∧
    ∀ s, Raises (exec (.swi i32) s) s.cfg.exSwi 6 (s.setSReg .swiNumber i32) ∧
      ∀ t, exec (.swi i32) s = .next t → t.sregs.swiNumber = i32 ∧
        ∀ r, r ≠ .swiNumber → r ≠ .cause → r ≠ .returnAddress → t.sreg r = s.sreg r

/-- `bad` (`45_system.md` R265): every word of `30_encoding.md` R93 takes the illegal instruction exception, 2 bytes long. -/
def Obligations.BadResult : Prop :=
  ∀ w, isBadWord w = true → Encodes2 w (.bad w) ∧ ∀ s, Raises (exec (.bad w) s) s.cfg.exBad 2 s

/-- The return address of each cause under both values of `EXC_RA_MODE` (`60_exceptions.md` R286). -/
def Obligations.ReturnAddresses : Prop :=
  ∀ s t : State,
    (∀ i32, exec (.swi i32) s = .next t →
        t.sregs.returnAddress = if s.cfg.excRaMode = .next then s.pc + 6 else s.pc) ∧
      (∀ a b, s.reg b = 0 → exec (.div a b) s = .next t →
        t.sregs.returnAddress = if s.cfg.excRaMode = .next then s.pc + 2 else s.pc) ∧
      (∀ w, exec (.bad w) s = .next t →
        t.sregs.returnAddress = if s.cfg.excRaMode = .next then s.pc + 2 else s.pc) ∧
      (s.takeIrq = .next t → t.sregs.returnAddress = s.pc)

/-- The return from an exception (`60_exceptions.md` R295): `gsr $rN, 5` and `jmp $rN` continue at the return address, and
change no other register and nothing else. -/
def Obligations.HandlerReturn : Prop :=
  ∀ (r : Reg) (s : State), 5 < s.cfg.numSregs → evenAddr s.sregs.returnAddress = true →
    ∃ t u, exec (.gsr r 5) s = .next t ∧ exec (.jmp r) t = .next u ∧ u.pc = s.sregs.returnAddress ∧ Frame [r] s u

/-- Who writes the special registers (`10_state.md` R29 to R37): but for `ssr`, no instruction writes 0, 1, 4, 9 or 10 to
255; `s[3]` is written by `swi` alone, and `s[2]` and `s[5]` by exception entry alone. -/
def Obligations.SpecialRegisterWriters : Prop :=
  ∀ i s t, exec i s = .next t → (∀ a n, i ≠ .ssr a n) →
    (∀ r, r ≠ .cause → r ≠ .swiNumber → r ≠ .returnAddress → t.sreg r = s.sreg r) ∧
      ((∀ x, i ≠ .swi x) → t.sregs.swiNumber = s.sregs.swiNumber) ∧
      ((∀ x, i ≠ .swi x) → (∀ w, i ≠ .bad w) → (∀ a b, i = .div a b → s.reg b ≠ 0) →
        t.sregs.cause = s.sregs.cause ∧ t.sregs.returnAddress = s.sregs.returnAddress)

/-! ## The whole machine -/

/-- The frame of every instruction: a general register that the spec does not name as written keeps its value; an
instruction that stores nothing leaves every byte of memory; and one of the twelve that store leaves every byte outside
those it stores to, computed as its meaning computes them, and adds exactly them to the addresses stored to. -/
def Obligations.EveryInstructionFrame : Prop :=
  ∀ i s t, exec i s = .next t →
    (∀ r, r ∉ destinations i → t.reg r = s.reg r) ∧
      match storeAccess i s with
      | none => SameMemory s t
      | some (ea, n) =>
        (∀ a, ¬InAccess ea n a → Memory.read t.mem a = Memory.read s.mem a) ∧
          ∀ a, a ∈ t.stored ↔ a ∈ s.stored ∨ InAccess ea n a

/-- No instruction and no step changes the configuration; no instruction touches the interrupt line. -/
def Obligations.ConfigNeverChanges : Prop :=
  (∀ i s t, exec i s = .next t → t.cfg = s.cfg ∧ t.irqPending = s.irqPending ∧ t.envTick = s.envTick) ∧
    ∀ s t, step s = .next t → t.cfg = s.cfg

/-- Only `brk` ends the run. -/
def Obligations.OnlyBrkEndsRun : Prop :=
  ∀ i s t, exec i s = .next t → i ≠ .brk → t.ended = s.ended

/-- A step that changes a byte of memory records its address among those stored to, and forgets none. -/
def Obligations.StoredTracksWrites : Prop :=
  ∀ s t, step s = .next t →
    (∀ a, Memory.read t.mem a ≠ Memory.read s.mem a → a ∈ t.stored) ∧ ∀ a, a ∈ s.stored → a ∈ t.stored

/-- What the spec says of the state after reset (`70_reset_and_hazards.md` R320): `pc` is `RESET_PC`, which is even, `s[9]` is
`DTB_PTR`, no byte has a value, no request is pending. The configuration is one the spec admits; the value of `RESET_PC` is
the model's choice (assumption log 5). -/
def Obligations.ResetSpecValues : Prop :=
  State.reset.pc = State.reset.cfg.resetPc ∧ evenAddr State.reset.pc = true ∧
    State.reset.sregs.deviceTree = State.reset.cfg.dtbPtr ∧ (∀ a, Memory.read State.reset.mem a = none) ∧
    State.reset.irqPending = false ∧ State.reset.cfg.wf

/-- The model's choice for what the spec leaves unspecified after reset: every general register and every special register
but 9 is 0, and the condition code is all false (assumption log 2, 3, 4). -/
def Obligations.ResetModelChoices : Prop :=
  (∀ r, State.reset.reg r = 0) ∧ (∀ r, r ≠ .deviceTree → State.reset.sreg r = 0) ∧
    State.reset.cc = ⟨false, false, false⟩

/-- The invariant holds after reset. -/
def Obligations.ResetMeetsInvariant : Prop := State.reset.Inv

/-- Every step keeps the invariant, from every state that meets it: `pc` stays even, memory keeps its canonical form, no
program text is stored to, and the condition code stays one a `cmp` can leave. -/
def Obligations.StepKeepsInvariant : Prop :=
  ∀ s t, s.Inv → step s = .next t → t.Inv

/-- Program text is fixed (`20_memory.md` R68): whatever a step does, every byte marked as text reads as before and stays
marked. -/
def Obligations.TextNeverChanges : Prop :=
  ∀ s t, step s = .next t → ∀ a : Word, t.isText a = s.isText a ∧
    (s.isText a = true → Memory.read t.mem a.toNat = Memory.read s.mem a.toNat)

/-- Program text is fixed for a run (`20_memory.md` R68): after any number of steps, the fetch of an instruction in text
gives what it gave at the start. -/
def Obligations.TextFetchStableOverRuns : Prop :=
  ∀ (k : Nat) (s t : State) (a : Word), s.Inv → TextFrom s a 6 → core.run k s = .next t →
    State.fetch (t.setPc a) = State.fetch (s.setPc a)
end

