-- ==== Sys2Proof/Laws/State.lean ====
section
/-! SUPPORT. The update lemmas of the state: for each update, every field it leaves alone, and the reads of what it
writes. -/

namespace Sys2Proof.Machine

/-! ## `setReg` -/

@[simp] theorem State.setReg_cfg (s : State) (r : Reg) (v : Word) : (s.setReg r v).cfg = s.cfg := rfl
@[simp] theorem State.setReg_pc (s : State) (r : Reg) (v : Word) : (s.setReg r v).pc = s.pc := rfl
@[simp] theorem State.setReg_cc (s : State) (r : Reg) (v : Word) : (s.setReg r v).cc = s.cc := rfl
@[simp] theorem State.setReg_sregs (s : State) (r : Reg) (v : Word) : (s.setReg r v).sregs = s.sregs := rfl
@[simp] theorem State.setReg_mem (s : State) (r : Reg) (v : Word) : (s.setReg r v).mem = s.mem := rfl
@[simp] theorem State.setReg_irqPending (s : State) (r : Reg) (v : Word) : (s.setReg r v).irqPending = s.irqPending := rfl
@[simp] theorem State.setReg_stored (s : State) (r : Reg) (v : Word) : (s.setReg r v).stored = s.stored := rfl
@[simp] theorem State.setReg_envTick (s : State) (r : Reg) (v : Word) : (s.setReg r v).envTick = s.envTick := rfl
@[simp] theorem State.setReg_ended (s : State) (r : Reg) (v : Word) : (s.setReg r v).ended = s.ended := rfl
@[simp] theorem State.setReg_sreg (s : State) (r : Reg) (v : Word) (q : SReg) : (s.setReg r v).sreg q = s.sreg q := rfl
@[simp] theorem State.setReg_backed (s : State) (r : Reg) (v : Word) (x : Word) : (s.setReg r v).backed x = s.backed x := rfl
@[simp] theorem State.setReg_isText (s : State) (r : Reg) (v : Word) (x : Word) : (s.setReg r v).isText x = s.isText x := rfl

/-! ## `setPc` -/

@[simp] theorem State.setPc_cfg (s : State) (v : Word) : (s.setPc v).cfg = s.cfg := rfl
@[simp] theorem State.setPc_regs (s : State) (v : Word) : (s.setPc v).regs = s.regs := rfl
@[simp] theorem State.setPc_cc (s : State) (v : Word) : (s.setPc v).cc = s.cc := rfl
@[simp] theorem State.setPc_sregs (s : State) (v : Word) : (s.setPc v).sregs = s.sregs := rfl
@[simp] theorem State.setPc_mem (s : State) (v : Word) : (s.setPc v).mem = s.mem := rfl
@[simp] theorem State.setPc_irqPending (s : State) (v : Word) : (s.setPc v).irqPending = s.irqPending := rfl
@[simp] theorem State.setPc_stored (s : State) (v : Word) : (s.setPc v).stored = s.stored := rfl
@[simp] theorem State.setPc_envTick (s : State) (v : Word) : (s.setPc v).envTick = s.envTick := rfl
@[simp] theorem State.setPc_ended (s : State) (v : Word) : (s.setPc v).ended = s.ended := rfl
@[simp] theorem State.setPc_reg (s : State) (v : Word) (q : Reg) : (s.setPc v).reg q = s.reg q := rfl
@[simp] theorem State.setPc_sreg (s : State) (v : Word) (q : SReg) : (s.setPc v).sreg q = s.sreg q := rfl
@[simp] theorem State.setPc_backed (s : State) (v : Word) (x : Word) : (s.setPc v).backed x = s.backed x := rfl
@[simp] theorem State.setPc_isText (s : State) (v : Word) (x : Word) : (s.setPc v).isText x = s.isText x := rfl

/-! ## `setCc` -/

@[simp] theorem State.setCc_cfg (s : State) (c : CondCode) : (s.setCc c).cfg = s.cfg := rfl
@[simp] theorem State.setCc_regs (s : State) (c : CondCode) : (s.setCc c).regs = s.regs := rfl
@[simp] theorem State.setCc_pc (s : State) (c : CondCode) : (s.setCc c).pc = s.pc := rfl
@[simp] theorem State.setCc_sregs (s : State) (c : CondCode) : (s.setCc c).sregs = s.sregs := rfl
@[simp] theorem State.setCc_mem (s : State) (c : CondCode) : (s.setCc c).mem = s.mem := rfl
@[simp] theorem State.setCc_irqPending (s : State) (c : CondCode) : (s.setCc c).irqPending = s.irqPending := rfl
@[simp] theorem State.setCc_stored (s : State) (c : CondCode) : (s.setCc c).stored = s.stored := rfl
@[simp] theorem State.setCc_envTick (s : State) (c : CondCode) : (s.setCc c).envTick = s.envTick := rfl
@[simp] theorem State.setCc_ended (s : State) (c : CondCode) : (s.setCc c).ended = s.ended := rfl
@[simp] theorem State.setCc_reg (s : State) (c : CondCode) (q : Reg) : (s.setCc c).reg q = s.reg q := rfl
@[simp] theorem State.setCc_sreg (s : State) (c : CondCode) (q : SReg) : (s.setCc c).sreg q = s.sreg q := rfl
@[simp] theorem State.setCc_backed (s : State) (c : CondCode) (x : Word) : (s.setCc c).backed x = s.backed x := rfl
@[simp] theorem State.setCc_isText (s : State) (c : CondCode) (x : Word) : (s.setCc c).isText x = s.isText x := rfl

/-! ## `setSReg` -/

@[simp] theorem State.setSReg_cfg (s : State) (r : SReg) (v : Word) : (s.setSReg r v).cfg = s.cfg := rfl
@[simp] theorem State.setSReg_regs (s : State) (r : SReg) (v : Word) : (s.setSReg r v).regs = s.regs := rfl
@[simp] theorem State.setSReg_pc (s : State) (r : SReg) (v : Word) : (s.setSReg r v).pc = s.pc := rfl
@[simp] theorem State.setSReg_cc (s : State) (r : SReg) (v : Word) : (s.setSReg r v).cc = s.cc := rfl
@[simp] theorem State.setSReg_mem (s : State) (r : SReg) (v : Word) : (s.setSReg r v).mem = s.mem := rfl
@[simp] theorem State.setSReg_irqPending (s : State) (r : SReg) (v : Word) : (s.setSReg r v).irqPending = s.irqPending := rfl
@[simp] theorem State.setSReg_stored (s : State) (r : SReg) (v : Word) : (s.setSReg r v).stored = s.stored := rfl
@[simp] theorem State.setSReg_envTick (s : State) (r : SReg) (v : Word) : (s.setSReg r v).envTick = s.envTick := rfl
@[simp] theorem State.setSReg_ended (s : State) (r : SReg) (v : Word) : (s.setSReg r v).ended = s.ended := rfl
@[simp] theorem State.setSReg_reg (s : State) (r : SReg) (v : Word) (q : Reg) : (s.setSReg r v).reg q = s.reg q := rfl
@[simp] theorem State.setSReg_backed (s : State) (r : SReg) (v : Word) (x : Word) : (s.setSReg r v).backed x = s.backed x := rfl
@[simp] theorem State.setSReg_isText (s : State) (r : SReg) (v : Word) (x : Word) : (s.setSReg r v).isText x = s.isText x := rfl

/-! ## `advance` -/

@[simp] theorem State.advance_cfg (s : State) (n : Nat) : (s.advance n).cfg = s.cfg := rfl
@[simp] theorem State.advance_regs (s : State) (n : Nat) : (s.advance n).regs = s.regs := rfl
@[simp] theorem State.advance_cc (s : State) (n : Nat) : (s.advance n).cc = s.cc := rfl
@[simp] theorem State.advance_sregs (s : State) (n : Nat) : (s.advance n).sregs = s.sregs := rfl
@[simp] theorem State.advance_mem (s : State) (n : Nat) : (s.advance n).mem = s.mem := rfl
@[simp] theorem State.advance_irqPending (s : State) (n : Nat) : (s.advance n).irqPending = s.irqPending := rfl
@[simp] theorem State.advance_stored (s : State) (n : Nat) : (s.advance n).stored = s.stored := rfl
@[simp] theorem State.advance_envTick (s : State) (n : Nat) : (s.advance n).envTick = s.envTick := rfl
@[simp] theorem State.advance_ended (s : State) (n : Nat) : (s.advance n).ended = s.ended := rfl
@[simp] theorem State.advance_reg (s : State) (n : Nat) (q : Reg) : (s.advance n).reg q = s.reg q := rfl
@[simp] theorem State.advance_sreg (s : State) (n : Nat) (q : SReg) : (s.advance n).sreg q = s.sreg q := rfl
@[simp] theorem State.advance_backed (s : State) (n : Nat) (x : Word) : (s.advance n).backed x = s.backed x := rfl
@[simp] theorem State.advance_isText (s : State) (n : Nat) (x : Word) : (s.advance n).isText x = s.isText x := rfl

@[simp] theorem State.setPc_pc (s : State) (v : Word) : (s.setPc v).pc = v := rfl
@[simp] theorem State.setCc_cc (s : State) (c : CondCode) : (s.setCc c).cc = c := rfl
@[simp] theorem State.advance_pc (s : State) (n : Nat) : (s.advance n).pc = s.pc + BitVec.ofNat 32 n := rfl
@[simp] theorem State.setSReg_sregs (s : State) (r : SReg) (v : Word) : (s.setSReg r v).sregs = s.sregs.set r v := rfl

/-! ## Reading a register that was written -/

theorem State.reg_setReg (s : State) (r q : Reg) (v : Word) : (s.setReg r v).reg q = if q = r then v else s.reg q := by
  simp only [State.reg, State.setReg, Vector.getElem_set, Fin.ext_iff, eq_comm]

@[simp] theorem State.reg_setReg_self (s : State) (r : Reg) (v : Word) : (s.setReg r v).reg r = v := by
  simp [State.reg_setReg]

theorem State.reg_setReg_of_ne (s : State) {r q : Reg} (v : Word) (h : q ≠ r) : (s.setReg r v).reg q = s.reg q := by
  simp [State.reg_setReg, h]

theorem SpecialRegs.get_set (x : SpecialRegs) (r q : SReg) (v : Word) :
    (x.set r v).get q = if q = r then v else x.get q := by
  cases r <;> cases q <;> simp [SpecialRegs.get, SpecialRegs.set, Vector.getElem_set, Fin.ext_iff, eq_comm]

theorem State.sreg_setSReg (s : State) (r q : SReg) (v : Word) :
    (s.setSReg r v).sreg q = if q = r then v else s.sreg q :=
  SpecialRegs.get_set s.sregs r q v

@[simp] theorem State.sreg_setSReg_self (s : State) (r : SReg) (v : Word) : (s.setSReg r v).sreg r = v := by
  simp [State.sreg_setSReg]

theorem State.sreg_setSReg_of_ne (s : State) {r q : SReg} (v : Word) (h : q ≠ r) :
    (s.setSReg r v).sreg q = s.sreg q := by
  simp [State.sreg_setSReg, h]

/-! ## Frames -/

/-- Nothing but `pc` differs after `pc` is set. -/
theorem Frame.setPc (s : State) (v : Word) : Frame [] s (s.setPc v) :=
  ⟨⟨fun _ _ => rfl, rfl, rfl, rfl, rfl, rfl, rfl⟩, ⟨fun _ => rfl, rfl⟩⟩

/-- Nothing but `pc` differs after the move to the next instruction. -/
theorem Frame.advance (s : State) (n : Nat) : Frame [] s (s.advance n) := Frame.setPc s _

/-- Nothing but one register and `pc` differs after a register write. -/
theorem Frame.setReg_advance (s : State) (r : Reg) (v : Word) (n : Nat) : Frame [r] s ((s.setReg r v).advance n) :=
  ⟨⟨fun q h => by simpa using s.reg_setReg_of_ne v (by simpa using h), rfl, rfl, rfl, rfl, rfl, rfl⟩, ⟨fun _ => rfl, rfl⟩⟩

/-- The register write that ends an instruction: what it answers, and its frame. -/
theorem State.writeReg_spec (s : State) (r : Reg) (v : Word) (n : Nat) :
    ∃ t, s.writeReg r v n = .next t ∧ t.reg r = v ∧ Frame [r] s t ∧ t.pc = s.pc + BitVec.ofNat 32 n :=
  ⟨_, rfl, by simp, Frame.setReg_advance s r v n, rfl⟩

end Sys2Proof.Machine
end

