-- ==== Sys2Proof/Laws/Memory.lean ====
section
/-! SUPPORT. What the memory operations do: a byte reads back as written, other bytes are unchanged, the canonical form is
kept, and what a read, a store and a fetch of several bytes can answer. -/

namespace Sys2Proof.Machine

/-! ## One byte -/

theorem Memory.read_write_self (m : Memory) (a : Nat) (b : Byte) : Memory.read (Memory.write m a b) a = some b := by
  induction m with
  | nil => simp [Memory.write, Memory.read]
  | cons c m ih =>
    simp only [Memory.write]
    split
    · simp [Memory.read]
    · split
      · simp [Memory.read]
      · rename_i h
        simp [Memory.read, Ne.symm h, ih]

theorem Memory.read_write_of_ne (m : Memory) {a x : Nat} (b : Byte) (h : x ≠ a) :
    Memory.read (Memory.write m a b) x = Memory.read m x := by
  induction m with
  | nil => simp [Memory.write, Memory.read, Ne.symm h]
  | cons c m ih =>
    simp only [Memory.write]
    split
    · simp [Memory.read, Ne.symm h]
    · split
      · rename_i hc
        simp [Memory.read, Ne.symm h, ← hc]
      · simp [Memory.read, ih]

theorem Memory.read_write (m : Memory) (a x : Nat) (b : Byte) :
    Memory.read (Memory.write m a b) x = if x = a then some b else Memory.read m x := by
  split
  · subst_vars; exact Memory.read_write_self m _ b
  · exact Memory.read_write_of_ne m b ‹_›

theorem Memory.mem_write {m : Memory} {a : Nat} {b : Byte} {c : Host.Cell} (h : c ∈ Memory.write m a b) :
    c = (a, b) ∨ c ∈ m := by
  induction m with
  | nil => simpa [Memory.write] using h
  | cons d m ih =>
    simp only [Memory.write] at h
    split at h
    · simpa using h
    · split at h
      · rcases List.mem_cons.1 h with h | h
        · exact .inl h
        · exact .inr (List.mem_cons_of_mem _ h)
      · rcases List.mem_cons.1 h with h | h
        · exact .inr (h ▸ List.mem_cons_self)
        · exact (ih h).imp id (List.mem_cons_of_mem _)

theorem Memory.pairwise_write {m : Memory} (a : Nat) (b : Byte) (h : m.Pairwise fun c d => c.1 < d.1) :
    (Memory.write m a b).Pairwise fun c d => c.1 < d.1 := by
  induction m with
  | nil => simp [Memory.write]
  | cons c m ih =>
    have ⟨h1, h2⟩ := List.pairwise_cons.1 h
    simp only [Memory.write]
    split
    · refine List.pairwise_cons.2 ⟨fun d hd => ?_, h⟩
      rcases List.mem_cons.1 hd with rfl | hd
      · assumption
      · exact Nat.lt_trans ‹_› (h1 d hd)
    · split
      · subst_vars; exact List.pairwise_cons.2 ⟨h1, h2⟩
      · refine List.pairwise_cons.2 ⟨fun d hd => ?_, ih h2⟩
        rcases Memory.mem_write hd with rfl | hd
        · simp only; omega
        · exact h1 d hd

theorem Memory.wf_iff (m : Memory) :
    Memory.wf m = true ↔ (m.Pairwise fun c d => c.1 < d.1) ∧ ∀ c ∈ m, c.1 < 2 ^ 32 := by
  simp [Memory.wf]

/-- Writing a byte keeps the canonical form. -/
theorem Memory.wf_write {m : Memory} {a : Nat} (b : Byte) (ha : a < 2 ^ 32) (h : Memory.wf m = true) :
    Memory.wf (Memory.write m a b) = true := by
  rw [Memory.wf_iff] at h ⊢
  refine ⟨Memory.pairwise_write a b h.1, fun c hc => ?_⟩
  rcases Memory.mem_write hc with rfl | hc
  · exact ha
  · exact h.2 c hc

theorem Memory.wf_reset : Memory.wf State.reset.mem = true := by decide

/-! ## The addresses stored to -/

theorem mem_insertAddr (l : List Nat) (a x : Nat) : x ∈ insertAddr l a ↔ x = a ∨ x ∈ l := by
  induction l with
  | nil => simp [insertAddr]
  | cons y l ih =>
    simp only [insertAddr]
    split
    · simp
    · split
      · subst_vars; simp
      · simp [ih, or_left_comm]

theorem pairwise_insertAddr {l : List Nat} (a : Nat) (h : l.Pairwise (· < ·)) : (insertAddr l a).Pairwise (· < ·) := by
  induction l with
  | nil => simp [insertAddr]
  | cons y l ih =>
    have ⟨h1, h2⟩ := List.pairwise_cons.1 h
    simp only [insertAddr]
    split
    · refine List.pairwise_cons.2 ⟨fun d hd => ?_, h⟩
      rcases List.mem_cons.1 hd with rfl | hd
      · assumption
      · exact Nat.lt_trans ‹_› (h1 d hd)
    · split
      · exact h
      · refine List.pairwise_cons.2 ⟨fun d hd => ?_, ih h2⟩
        rcases (mem_insertAddr l a d).1 hd with rfl | hd
        · omega
        · exact h1 d hd

/-! ## Addresses -/

@[simp] theorem byteAddr_zero (a : Word) : byteAddr a 0 = a := by simp [byteAddr]

theorem byteAddr_byteAddr (a : Word) (j k : Nat) : byteAddr (byteAddr a j) k = byteAddr a (j + k) := by
  simp [byteAddr, BitVec.add_assoc, BitVec.ofNat_add]

/-- Bytes fewer than 2^32 apart have different addresses. -/
theorem byteAddr_injective (a : Word) {j k : Nat} (hj : j < 2 ^ 32) (hk : k < 2 ^ 32) (h : byteAddr a j = byteAddr a k) :
    j = k := by
  have h := congrArg BitVec.toNat ((BitVec.add_right_inj a).1 h)
  simp only [BitVec.toNat_ofNat] at h
  omega

/-! ## One store -/

/-- Everything a store of one byte can do. -/
theorem State.storeByte_spec {s t : State} {a : Word} {b : Byte} (h : s.storeByte a b = .ok t) :
    s.backed a = true ∧ s.isText a = false ∧
      t = { s with mem := Memory.write s.mem a.toNat b, stored := insertAddr s.stored a.toNat } := by
  simp only [State.storeByte] at h
  split at h
  · cases h
  · split at h
    · cases h
    · cases h; simp_all

theorem State.storeByte_ok (s : State) {a : Word} (b : Byte) (hb : s.backed a = true) (ht : s.isText a = false) :
    s.storeByte a b = .ok { s with mem := Memory.write s.mem a.toNat b, stored := insertAddr s.stored a.toNat } := by
  simp [State.storeByte, hb, ht]

/-- What the check of writable memory says. -/
theorem State.writable_iff (s : State) (a : Word) (n : Nat) : s.writable a n = true ↔ Writable s a n := by
  simp [State.writable, Writable]

/-! ## Several bytes -/

/-- `t` differs from `s` at most in memory and in the addresses stored to. -/
theorem State.storeBytes_frame {s t : State} {a : Word} {bs : List Byte} (h : s.storeBytes a bs = .ok t) :
    t = { s with mem := t.mem, stored := t.stored } := by
  induction bs generalizing s a with
  | nil => cases h; rfl
  | cons b bs ih =>
    simp only [State.storeBytes] at h
    split at h
    · cases h
    · rename_i u hu
      have := ih h
      rw [(State.storeByte_spec hu).2.2] at this
      exact this

/-- Where every byte may be written, a store of several bytes succeeds. -/
theorem State.storeBytes_ok (s : State) (a : Word) (bs : List Byte) (h : Writable s a bs.length) :
    ∃ t, s.storeBytes a bs = .ok t := by
  induction bs generalizing s a with
  | nil => exact ⟨s, rfl⟩
  | cons b bs ih =>
    have h0 := h 0 (by simp)
    rw [byteAddr_zero] at h0
    simp only [State.storeBytes, State.storeByte_ok s b h0.1 h0.2]
    refine ih _ _ fun k hk => ?_
    have := h (k + 1) (by simpa using hk)
    rw [byteAddr_byteAddr, Nat.add_comm 1 k]
    exact this

/-- A store that succeeds wrote only bytes that are backed and no text. -/
theorem State.storeBytes_writable {s t : State} {a : Word} {bs : List Byte} (h : s.storeBytes a bs = .ok t) :
    Writable s a bs.length := by
  induction bs generalizing s a with
  | nil => intro k hk; simp at hk
  | cons b bs ih =>
    simp only [State.storeBytes] at h
    split at h
    · cases h
    · rename_i u hu
      have ⟨hb, ht, hu⟩ := State.storeByte_spec hu
      intro k hk
      cases k with
      | zero => simpa using ⟨hb, ht⟩
      | succ k =>
        have := ih h k (by simpa using hk)
        rw [byteAddr_byteAddr, Nat.add_comm 1 k, hu] at this
        exact this

/-- Everything a store of several bytes can stop for: a byte that is not backed, or that is text. -/
theorem State.storeBytes_stop {s : State} {a : Word} {bs : List Byte} {e : Stop} (h : s.storeBytes a bs = .error e) :
    WriteStop s a bs.length e := by
  induction bs generalizing s a with
  | nil => cases h
  | cons b bs ih =>
    simp only [State.storeBytes] at h
    split at h
    · rename_i hb
      cases h
      simp only [State.storeByte] at hb
      split at hb
      · cases hb
        exact .inl ⟨rfl, 0, by simp, by simpa⟩
      · split at hb
        · cases hb
          exact .inr ⟨rfl, 0, by simp, by simpa⟩
        · cases hb
    · rename_i u hu
      have hc : u.cfg = s.cfg := by rw [(State.storeByte_spec hu).2.2]
      refine (ih h).imp ?_ ?_ <;> rintro ⟨he, k, hk, hx⟩ <;>
        refine ⟨he, k + 1, by simpa using hk, ?_⟩ <;> rw [byteAddr_byteAddr, Nat.add_comm 1 k] at hx
      · simpa only [State.backed, hc] using hx
      · simpa only [State.isText, hc] using hx

theorem inAccess_succ (a : Word) (n x : Nat) : InAccess a (n + 1) x ↔ x = a.toNat ∨ InAccess (byteAddr a 1) n x := by
  constructor
  · rintro ⟨k, hk, rfl⟩
    cases k with
    | zero => exact .inl (by simp)
    | succ k => exact .inr ⟨k, by omega, by rw [byteAddr_byteAddr, Nat.add_comm]⟩
  · rintro (rfl | ⟨k, hk, rfl⟩)
    · exact ⟨0, by omega, by simp⟩
    · exact ⟨k + 1, by omega, by rw [byteAddr_byteAddr, Nat.add_comm]⟩

/-- What a store of several bytes leaves in memory. -/
theorem State.storeBytes_stores {s t : State} {a : Word} {bs : List Byte} (hl : bs.length ≤ 2 ^ 32)
    (h : s.storeBytes a bs = .ok t) : StoresOnly a bs s t := by
  induction bs generalizing s a with
  | nil =>
    cases h
    exact ⟨fun k hk => absurd hk (by simp), fun _ _ => rfl, fun x => by simp [InAccess]⟩
  | cons b bs ih =>
    simp only [State.storeBytes] at h
    split at h
    · cases h
    · rename_i u hu
      have ⟨_, _, hu⟩ := State.storeByte_spec hu
      simp only [List.length_cons] at hl
      have ⟨i1, i2, i3⟩ := ih (by omega) h
      subst hu
      refine ⟨fun k hk => ?_, fun x hx => ?_, fun x => ?_⟩
      · cases k with
        | zero =>
          rw [byteAddr_zero, i2]
          · simp [Memory.read_write_self]
          · rintro ⟨j, hj, he⟩
            rw [byteAddr_byteAddr] at he
            have := byteAddr_injective a (j := 0) (k := 1 + j) (by omega) (by omega)
              (by rw [byteAddr_zero]; exact BitVec.eq_of_toNat_eq he)
            omega
        | succ k =>
          have := i1 k (by simpa using hk)
          rw [byteAddr_byteAddr, Nat.add_comm 1 k] at this
          simpa using this
      · rw [List.length_cons, inAccess_succ, not_or] at hx
        rw [i2 x hx.2]
        exact Memory.read_write_of_ne s.mem b hx.1
      · rw [i3 x, List.length_cons, inAccess_succ, mem_insertAddr]
        tauto

/-- Storing keeps the canonical form of memory. -/
theorem State.storeBytes_wf {s t : State} {a : Word} {bs : List Byte} (hm : Memory.wf s.mem = true)
    (h : s.storeBytes a bs = .ok t) : Memory.wf t.mem = true := by
  induction bs generalizing s a with
  | nil => cases h; exact hm
  | cons b bs ih =>
    simp only [State.storeBytes] at h
    split at h
    · cases h
    · rename_i u hu
      refine ih ?_ h
      rw [(State.storeByte_spec hu).2.2]
      exact Memory.wf_write b a.isLt hm

/-- Storing keeps the addresses stored to strictly rising. -/
theorem State.storeBytes_stored_sorted {s t : State} {a : Word} {bs : List Byte} (hm : s.stored.Pairwise (· < ·))
    (h : s.storeBytes a bs = .ok t) : t.stored.Pairwise (· < ·) := by
  induction bs generalizing s a with
  | nil => cases h; exact hm
  | cons b bs ih =>
    simp only [State.storeBytes] at h
    split at h
    · cases h
    · rename_i u hu
      refine ih ?_ h
      rw [(State.storeByte_spec hu).2.2]
      exact pairwise_insertAddr _ hm

/-! ## Data accesses -/

@[simp] theorem splitBytes_length (n : Nat) (v : Word) : (splitBytes n v).length = n := by
  induction n generalizing v with
  | zero => rfl
  | succ n ih => simp [splitBytes, ih]

@[simp] theorem bytesOfWord_length (e : Endian) (n : Nat) (v : Word) : (bytesOfWord e n v).length = n := by
  cases e <;> simp [bytesOfWord, byteOrder]

/-- Everything `MemWrite` can do when it succeeds. -/
theorem State.memWrite_spec {s t : State} {a v : Word} {w : Width} (h : s.memWrite a w v = .ok t) :
    aligned a w = true ∧ Writable s a w.bytes ∧ StoresOnly a (bytesOfWord s.cfg.endian w.bytes v) s t ∧
      t = { s with mem := t.mem, stored := t.stored } := by
  simp only [State.memWrite] at h
  split at h
  · cases h
  · rename_i ha
    have hw := State.storeBytes_writable h
    rw [bytesOfWord_length] at hw
    exact ⟨by simpa using ha, hw, State.storeBytes_stores (by cases w <;> simp [Width.bytes]) h,
      State.storeBytes_frame h⟩

/-- Where `MemWrite` succeeds. -/
theorem State.memWrite_ok (s : State) {a : Word} {w : Width} (v : Word) (ha : aligned a w = true)
    (hw : Writable s a w.bytes) : ∃ t, s.memWrite a w v = .ok t := by
  simp only [State.memWrite, ha, Bool.true_eq_false, if_false]
  exact State.storeBytes_ok s a _ (by simpa using hw)

theorem State.memWrite_misaligned (s : State) {a : Word} {w : Width} (v : Word) (ha : aligned a w = false) :
    s.memWrite a w v = .error (.fault .misaligned) := by
  simp [State.memWrite, ha]

/-- Everything an aligned `MemWrite` can stop for. -/
theorem State.memWrite_stop {s : State} {a v : Word} {w : Width} {e : Stop} (ha : aligned a w = true)
    (h : s.memWrite a w v = .error e) : WriteStop s a w.bytes e := by
  simp only [State.memWrite, ha, Bool.true_eq_false, if_false] at h
  simpa using State.storeBytes_stop h

/-- `MemWrite` keeps the canonical form of memory. -/
theorem State.memWrite_wf {s t : State} {a v : Word} {w : Width} (hm : Memory.wf s.mem = true)
    (h : s.memWrite a w v = .ok t) : Memory.wf t.mem = true := by
  simp only [State.memWrite] at h
  split at h
  · cases h
  · exact State.storeBytes_wf hm h

theorem State.memWrite_stored_sorted {s t : State} {a v : Word} {w : Width} (hm : s.stored.Pairwise (· < ·))
    (h : s.memWrite a w v = .ok t) : t.stored.Pairwise (· < ·) := by
  simp only [State.memWrite] at h
  split at h
  · cases h
  · exact State.storeBytes_stored_sorted hm h

/-- Reading bytes each of which a byte read gives. -/
theorem readBytes_ok (read : Word → Except Stop Byte) (a : Word) (bs : List Byte)
    (h : ∀ k (hk : k < bs.length), read (byteAddr a k) = .ok bs[k]) : readBytes read a bs.length = .ok bs := by
  induction bs generalizing a with
  | nil => rfl
  | cons b bs ih =>
    have h0 := h 0 (by simp)
    rw [byteAddr_zero] at h0
    have := ih (byteAddr a 1) fun k hk => by
      rw [byteAddr_byteAddr, Nat.add_comm 1 k]
      exact h (k + 1) (by simpa using hk)
    simp [readBytes, h0, this]

theorem readBytes_length {read : Word → Except Stop Byte} {a : Word} {n : Nat} {bs : List Byte}
    (h : readBytes read a n = .ok bs) : bs.length = n := by
  induction n generalizing a bs with
  | zero => cases h; rfl
  | succ n ih =>
    simp only [readBytes] at h
    split at h
    · cases h
    · split at h
      · cases h
      · cases h; rename_i hbs; simp [ih hbs]

/-- What bytes that were read are. -/
theorem readBytes_getElem {read : Word → Except Stop Byte} {a : Word} {n : Nat} {bs : List Byte}
    (h : readBytes read a n = .ok bs) : ∀ k (hk : k < bs.length), read (byteAddr a k) = .ok bs[k] := by
  induction n generalizing a bs with
  | zero => cases h; intro k hk; simp at hk
  | succ n ih =>
    simp only [readBytes] at h
    split at h
    · cases h
    · rename_i b hb
      split at h
      · cases h
      · rename_i cs hcs
        cases h
        intro k hk
        cases k with
        | zero => simpa using hb
        | succ k =>
          have := ih hcs k (by simpa using hk)
          rw [byteAddr_byteAddr, Nat.add_comm 1 k] at this
          simpa using this

/-- A read of several bytes stops at the first byte whose read stops, for what that read stops for. -/
theorem readBytes_stops_at {read : Word → Except Stop Byte} {a : Word} {n : Nat} {e : Stop} (bs : List Byte)
    (h : ∀ k (hk : k < bs.length), read (byteAddr a k) = .ok bs[k]) (hn : bs.length < n)
    (he : read (byteAddr a bs.length) = .error e) : readBytes read a n = .error e := by
  induction bs generalizing a n with
  | nil =>
    obtain ⟨n, rfl⟩ := Nat.exists_eq_succ_of_ne_zero (Nat.ne_of_gt hn)
    rw [List.length_nil, byteAddr_zero] at he
    simp [readBytes, he]
  | cons b bs ih =>
    obtain ⟨n, rfl⟩ := Nat.exists_eq_succ_of_ne_zero (Nat.ne_zero_of_lt hn)
    have h0 := h 0 (by simp)
    rw [byteAddr_zero] at h0
    have := ih (a := byteAddr a 1) (n := n) (fun k hk => by
      rw [byteAddr_byteAddr, Nat.add_comm 1 k]
      exact h (k + 1) (by simpa using hk)) (by simpa using hn) (by
      rw [byteAddr_byteAddr, Nat.add_comm 1]
      exact he)
    simp [readBytes, h0, this]

/-- A read of several bytes stops only where the read of one of them does. -/
theorem readBytes_stop {read : Word → Except Stop Byte} {a : Word} {n : Nat} {e : Stop}
    (h : readBytes read a n = .error e) : ∃ k, k < n ∧ read (byteAddr a k) = .error e := by
  induction n generalizing a with
  | zero => cases h
  | succ n ih =>
    simp only [readBytes] at h
    split at h
    · cases h
      exact ⟨0, by omega, by simpa⟩
    · split at h
      · cases h
        obtain ⟨k, hk, hr⟩ := ih ‹_›
        rw [byteAddr_byteAddr, Nat.add_comm 1 k] at hr
        exact ⟨k + 1, by omega, hr⟩
      · cases h

/-- Everything the read of one byte as data can stop for. -/
theorem State.loadByte_stop {s : State} {a : Word} {e : Stop} (h : s.loadByte a = .error e) :
    (e = .fault .unbacked ∧ s.backed a = false) ∨ (e = .fault .unwrittenMemory ∧ Memory.read s.mem a.toNat = none) := by
  simp only [State.loadByte] at h
  split at h
  · cases h
    exact .inl ⟨rfl, ‹_›⟩
  · split at h
    · cases h
      exact .inr ⟨rfl, ‹_›⟩
    · cases h

theorem State.loadByte_ok_iff (s : State) (a : Word) (b : Byte) :
    s.loadByte a = .ok b ↔ s.backed a = true ∧ Memory.read s.mem a.toNat = some b := by
  simp only [State.loadByte]
  split
  · simp_all
  · split <;> simp_all

/-- Where `MemRead` succeeds, and what it answers. -/
theorem State.memRead_ok (s : State) {a : Word} {w : Width} {bs : List Byte} (ha : aligned a w = true)
    (hl : bs.length = w.bytes) (h : Holds s a bs) : s.memRead a w = .ok (wordOfBytes s.cfg.endian bs) := by
  have := readBytes_ok s.loadByte a bs fun k hk => (s.loadByte_ok_iff _ _).2 (h k hk)
  simp [State.memRead, ha, ← hl, this]

/-- Everything `MemRead` can answer when it succeeds. -/
theorem State.memRead_spec {s : State} {a v : Word} {w : Width} (h : s.memRead a w = .ok v) :
    aligned a w = true ∧ ∃ bs, bs.length = w.bytes ∧ Holds s a bs ∧ v = wordOfBytes s.cfg.endian bs := by
  simp only [State.memRead] at h
  split at h
  · cases h
  · rename_i ha
    split at h
    · cases h
    · rename_i bs hbs
      cases h
      exact ⟨by simpa using ha, bs, readBytes_length hbs,
        fun k hk => (s.loadByte_ok_iff _ _).1 (readBytes_getElem hbs k hk), rfl⟩

/-- Everything an aligned `MemRead` can stop for. -/
theorem State.memRead_stop {s : State} {a : Word} {w : Width} {e : Stop} (ha : aligned a w = true)
    (h : s.memRead a w = .error e) : ReadStop s a w.bytes e := by
  simp only [State.memRead, ha, Bool.true_eq_false, if_false] at h
  split at h
  · cases h
    obtain ⟨k, hk, hr⟩ := readBytes_stop ‹_›
    exact (State.loadByte_stop hr).imp (fun ⟨he, hx⟩ => ⟨he, k, hk, hx⟩) fun ⟨he, hx⟩ => ⟨he, k, hk, hx⟩
  · cases h

theorem State.memRead_misaligned (s : State) {a : Word} {w : Width} (ha : aligned a w = false) :
    s.memRead a w = .error (.fault .misaligned) := by
  simp [State.memRead, ha]

end Sys2Proof.Machine
end

