-- ==== Sys2Proof/Laws/Encoding.lean ====
section
/-! SUPPORT. Byte order and the three forms: what the decoder reads from a word whose fields are written out. -/

namespace Sys2Proof

open Sys2Proof.Machine

/-! ## Byte order -/

@[simp] theorem byteOrder_byteOrder (e : Endian) (bs : List Byte) : byteOrder e (byteOrder e bs) = bs := by
  cases e <;> simp [byteOrder]

@[simp] theorem byteOrder_length (e : Endian) (bs : List Byte) : (byteOrder e bs).length = bs.length := by
  cases e <;> simp [byteOrder]

theorem joinBytes_splitBytes_four (v : Word) : joinBytes (splitBytes 4 v) = v := by
  simp only [splitBytes, joinBytes]
  ext i hi
  simp only [BitVec.getElem_or, BitVec.getElem_setWidth, BitVec.getElem_shiftLeft, BitVec.getLsbD_setWidth,
    BitVec.getLsbD_ushiftRight]
  rcases (by omega : i < 8 ∨ 8 ≤ i ∧ i < 16 ∨ 16 ≤ i ∧ i < 24 ∨ 24 ≤ i ∧ i < 32) with h | h | h | h
  · simp [h, BitVec.getLsbD_eq_getElem hi]
  · simp [show ¬i < 8 by omega, show i - 8 < 8 by omega, show 8 + (i - 8) = i by omega, BitVec.getLsbD_eq_getElem hi]
  · simp [show ¬i < 8 by omega, show ¬i - 8 < 8 by omega, show i - 8 - 8 < 8 by omega,
      show 8 + (8 + (i - 8 - 8)) = i by omega, BitVec.getLsbD_eq_getElem hi]
  · simp [show ¬i < 8 by omega, show ¬i - 8 < 8 by omega, show ¬i - 8 - 8 < 8 by omega, show i - 8 - 8 - 8 < 8 by omega,
      show 8 + (8 + (8 + (i - 8 - 8 - 8))) = i by omega, BitVec.getLsbD_eq_getElem hi]

theorem joinBytes_splitBytes_two (v : Word) : joinBytes (splitBytes 2 v) = (v.setWidth 16).setWidth 32 := by
  simp only [splitBytes, joinBytes]
  ext i hi
  simp only [BitVec.getElem_or, BitVec.getElem_setWidth, BitVec.getElem_shiftLeft, BitVec.getLsbD_setWidth,
    BitVec.getLsbD_ushiftRight]
  rcases (by omega : i < 8 ∨ 8 ≤ i ∧ i < 16 ∨ 16 ≤ i ∧ i < 32) with h | h | h
  · simp [h, show i < 16 by omega]
  · simp [show ¬i < 8 by omega, show i - 8 < 8 by omega, show 8 + (i - 8) = i by omega, h]
  · simp [show ¬i < 8 by omega, show ¬i - 8 < 8 by omega, show ¬i < 16 by omega]

theorem joinBytes_splitBytes_one (v : Word) : joinBytes (splitBytes 1 v) = (v.setWidth 8).setWidth 32 := by
  simp [splitBytes, joinBytes]

/-- A 32-bit unit reads back as it was laid out. -/
theorem wordOfBytes_bytesOfWord_four (e : Endian) (v : Word) : wordOfBytes e (bytesOfWord e 4 v) = v := by
  simp [wordOfBytes, bytesOfWord, joinBytes_splitBytes_four]

/-- A 16-bit unit reads back as it was laid out, zero-extended. -/
theorem wordOfBytes_bytesOfWord_two (e : Endian) (v : Word) :
    wordOfBytes e (bytesOfWord e 2 v) = (v.setWidth 16).setWidth 32 := by
  simp [wordOfBytes, bytesOfWord, joinBytes_splitBytes_two]

/-- A byte reads back as it was laid out, zero-extended. -/
theorem wordOfBytes_bytesOfWord_one (e : Endian) (v : Word) :
    wordOfBytes e (bytesOfWord e 1 v) = (v.setWidth 8).setWidth 32 := by
  simp [wordOfBytes, bytesOfWord, joinBytes_splitBytes_one]

/-- Where the access fits a word, the low bytes of a value read back zero-extended. -/
theorem wordOfBytes_bytesOfWord (e : Endian) (w : Width) (v : Word) :
    wordOfBytes e (bytesOfWord e w.bytes v) = (v.setWidth (8 * w.bytes)).setWidth 32 := by
  cases w
  · exact wordOfBytes_bytesOfWord_one e v
  · exact wordOfBytes_bytesOfWord_two e v
  · simpa [Width.bytes] using wordOfBytes_bytesOfWord_four e v

/-! ## The decoder on bytes -/

/-- Two bytes in memory order, as a list. -/
theorem bytesOfWord_two_eq (e : Endian) (v : Word) : ∃ b0 b1, bytesOfWord e 2 v = [b0, b1] := by
  have h := bytesOfWord_length e 2 v
  match hb : bytesOfWord e 2 v, h with
  | [b0, b1], _ => exact ⟨b0, b1, rfl⟩

/-- The decoder on a laid-out word followed by as many bytes as the word asks for. -/
theorem decode_units (e : Endian) (w : BitVec 16) (ts rest : List Byte) (h : ts.length = tailLength w) :
    decode e (bytesOfWord e 2 (w.setWidth 32) ++ (ts ++ rest)) = .ok (decodeUnits w (wordOfBytes e ts), rest) := by
  obtain ⟨b0, b1, hb⟩ := bytesOfWord_two_eq e (w.setWidth 32)
  have hw : (wordOfBytes e [b0, b1]).setWidth 16 = w := by
    rw [← hb, wordOfBytes_bytesOfWord_two]
    simp
  simp [hb, decode, hw, ← h]

/-- The decoder on the bytes of a word that nothing follows. -/
theorem decode_units_nil (e : Endian) (w : BitVec 16) (rest : List Byte) (h : tailLength w = 0) :
    decode e (bytesOfWord e 2 (w.setWidth 32) ++ rest) = .ok (decodeUnits w 0, rest) := by
  have h0 : wordOfBytes e [] = 0 := by cases e <;> rfl
  simpa [h0] using decode_units e w [] rest h.symm

/-! ## The decoder on the fields of a word -/

/-- A concatenation as a number. -/
theorem toNat_append_eq {m n : Nat} (x : BitVec m) (y : BitVec n) : (x ++ y).toNat = x.toNat * 2 ^ n + y.toNat := by
  rw [BitVec.toNat_append, ← Nat.shiftLeft_add_eq_or_of_lt y.isLt, Nat.shiftLeft_eq]

/-- A form 1 word as a number. -/
theorem toNat_form1Bits (op : BitVec 8) (a b : BitVec 4) :
    (form1Bits op a b).toNat = op.toNat * 256 + a.toNat * 16 + b.toNat := by
  have h : (form1Bits op a b).toNat = (op ++ a ++ b).toNat := rfl
  rw [h, toNat_append_eq, toNat_append_eq]
  omega

/-- A form 2 word as a number. -/
theorem toNat_form2 (op2 : BitVec 2) (a : Reg) (x : BitVec 8) :
    (form2 op2 a x).toNat = 32768 + op2.toNat * 4096 + a.val * 256 + x.toNat := by
  have h : (form2 op2 a x).toNat = (0b10#2 ++ op2 ++ (BitVec.ofFin a : BitVec 4) ++ x).toNat := rfl
  rw [h, toNat_append_eq, toNat_append_eq, toNat_append_eq]
  simp only [BitVec.toNat_ofNat, BitVec.toNat_ofFin]
  omega

/-- A form 3 word as a number. -/
theorem toNat_form3 (op4 : BitVec 4) (v : BitVec 10) :
    (form3 op4 v).toNat = 49152 + op4.toNat * 1024 + v.toNat := by
  have h : (form3 op4 v).toNat = (0b11#2 ++ op4 ++ v).toNat := rfl
  rw [h, toNat_append_eq, toNat_append_eq]
  simp only [BitVec.toNat_ofNat]
  omega

/-- One bit of a word, by arithmetic. -/
theorem getLsbD_eq_decide {n : Nat} (w : BitVec n) (i : Nat) : w.getLsbD i = decide (w.toNat / 2 ^ i % 2 = 1) := by
  rw [BitVec.getLsbD, Nat.testBit_eq_decide_div_mod_eq]

/-- A field of a word, by arithmetic. -/
theorem toNat_extract {n : Nat} (w : BitVec n) (lo len : Nat) :
    (w.extractLsb' lo len).toNat = w.toNat / 2 ^ lo % 2 ^ len := by
  rw [BitVec.extractLsb'_toNat, Nat.shiftRight_eq_div_pow]

/-- A form 1 word decodes by its opcode, with its low fields as registers. -/
theorem decodeUnits_form1Bits (op : BitVec 8) (a b : BitVec 4) (tail : Word) (h : op.toNat < 128) :
    decodeUnits (form1Bits op a b) tail = decodeForm1 (form1Bits op a b) op.toNat a.toFin b.toFin tail := by
  have ha := a.isLt
  have hb := b.isLt
  have h15 : (form1Bits op a b).getLsbD 15 = false := by
    rw [getLsbD_eq_decide, toNat_form1Bits, decide_eq_false_iff_not]
    omega
  have hop : (form1Bits op a b).extractLsb' 8 8 = op :=
    BitVec.eq_of_toNat_eq (by rw [toNat_extract, toNat_form1Bits]; omega)
  have hfa : (form1Bits op a b).extractLsb' 4 4 = a :=
    BitVec.eq_of_toNat_eq (by rw [toNat_extract, toNat_form1Bits]; omega)
  have hfb : (form1Bits op a b).extractLsb' 0 4 = b :=
    BitVec.eq_of_toNat_eq (by rw [toNat_extract, toNat_form1Bits]; omega)
  rw [decodeUnits, if_pos h15, hop, hfa, hfb]

/-- The encoder's form 1 word, with its fields as bits. -/
theorem form1_eq_form1Bits (op : BitVec 8) (a b : Reg) : form1 op a b = form1Bits op (regBits a) (regBits b) := rfl

/-- A form 2 word decodes by op2, with field A in bits 11:8. -/
theorem decodeUnits_form2 (op2 : BitVec 2) (a : Reg) (x : BitVec 8) (tail : Word) :
    decodeUnits (form2 op2 a x) tail = decodeForm2 op2 a x := by
  have ho := op2.isLt
  have ha := a.isLt
  have hx := x.isLt
  have h15 : ¬(form2 op2 a x).getLsbD 15 = false := by
    rw [getLsbD_eq_decide, toNat_form2, decide_eq_false_iff_not]
    omega
  have h14 : (form2 op2 a x).getLsbD 14 = false := by
    rw [getLsbD_eq_decide, toNat_form2, decide_eq_false_iff_not]
    omega
  have hop : (form2 op2 a x).extractLsb' 12 2 = op2 :=
    BitVec.eq_of_toNat_eq (by rw [toNat_extract, toNat_form2]; omega)
  have hfa : (form2 op2 a x).extractLsb' 8 4 = BitVec.ofFin (w := 4) a :=
    BitVec.eq_of_toNat_eq (by
      have e : (BitVec.ofFin (w := 4) a).toNat = a.val := rfl
      rw [toNat_extract, toNat_form2, e]
      omega)
  have hfx : (form2 op2 a x).extractLsb' 0 8 = x :=
    BitVec.eq_of_toNat_eq (by rw [toNat_extract, toNat_form2]; omega)
  rw [decodeUnits, if_neg h15, if_pos h14, hop, hfa, hfx]

/-- A form 3 word decodes by op4. -/
theorem decodeUnits_form3 (op4 : BitVec 4) (v : BitVec 10) (tail : Word) :
    decodeUnits (form3 op4 v) tail = decodeForm3 (form3 op4 v) op4.toNat v := by
  have ho := op4.isLt
  have hv := v.isLt
  have h15 : ¬(form3 op4 v).getLsbD 15 = false := by
    rw [getLsbD_eq_decide, toNat_form3, decide_eq_false_iff_not]
    omega
  have h14 : ¬(form3 op4 v).getLsbD 14 = false := by
    rw [getLsbD_eq_decide, toNat_form3, decide_eq_false_iff_not]
    omega
  have hop : (form3 op4 v).extractLsb' 10 4 = op4 :=
    BitVec.eq_of_toNat_eq (by rw [toNat_extract, toNat_form3]; omega)
  have hfv : (form3 op4 v).extractLsb' 0 10 = v :=
    BitVec.eq_of_toNat_eq (by rw [toNat_extract, toNat_form3]; omega)
  rw [decodeUnits, if_neg h15, if_neg h14, hop, hfv]

/-! ## Whole encodings -/

/-- An instruction is 2, 4 or 6 bytes long. -/
theorem Instr.length_cases (i : Instr) : i.length = 2 ∨ i.length = 4 ∨ i.length = 6 := by
  cases i <;> simp [Instr.length]

/-- A word that nothing follows encodes what it decodes to. -/
theorem encodes2_of_decode {w : BitVec 16} {i : Instr} (hd : decodeUnits w 0 = i) (hl : i.length = 2) : Encodes2 w i := by
  intro e rest
  rw [decode_units_nil e w rest (by rw [tailLength, hd, hl]), hd]

/-- A form 1 word that nothing follows. -/
theorem encodes2_form1 (op : BitVec 8) (a b : BitVec 4) {i : Instr} (hop : op.toNat < 128)
    (h : ∀ w, decodeForm1 w op.toNat a.toFin b.toFin 0 = i) (hl : i.length = 2) : Encodes2 (form1Bits op a b) i :=
  encodes2_of_decode (by rw [decodeUnits_form1Bits op a b 0 hop, h]) hl

/-- A form 1 word with a 16-bit unit after it. -/
theorem encodes4_form1 (op : BitVec 8) (a b : BitVec 4) (x : BitVec 16) {i : Instr} (hop : op.toNat < 128)
    (h : ∀ w, decodeForm1 w op.toNat a.toFin b.toFin (x.setWidth 32) = i)
    (hl : ∀ w, (decodeForm1 w op.toNat a.toFin b.toFin 0).length = 4) : Encodes4 (form1Bits op a b) x i := by
  intro e rest
  rw [decode_units, wordOfBytes_bytesOfWord_two, decodeUnits_form1Bits _ _ _ _ hop]
  · simp [h]
  · rw [tailLength, decodeUnits_form1Bits _ _ _ _ hop, hl, bytesOfWord_length]

/-- A form 1 word with a 32-bit unit after it. -/
theorem encodes6_form1 (op : BitVec 8) (a b : BitVec 4) (x : Word) {i : Instr} (hop : op.toNat < 128)
    (h : ∀ w, decodeForm1 w op.toNat a.toFin b.toFin x = i)
    (hl : ∀ w, (decodeForm1 w op.toNat a.toFin b.toFin 0).length = 6) : Encodes6 (form1Bits op a b) x i := by
  intro e rest
  rw [decode_units, wordOfBytes_bytesOfWord_four, decodeUnits_form1Bits _ _ _ _ hop, h]
  rw [tailLength, decodeUnits_form1Bits _ _ _ _ hop, hl, bytesOfWord_length]

/-- A form 2 word. -/
theorem encodes2_form2 (op2 : BitVec 2) (a : Reg) (x : BitVec 8) {i : Instr} (h : decodeForm2 op2 a x = i)
    (hl : i.length = 2) : Encodes2 (form2 op2 a x) i :=
  encodes2_of_decode ((decodeUnits_form2 op2 a x 0).trans h) hl

/-- A form 3 word. -/
theorem encodes2_form3 (op4 : BitVec 4) (v : BitVec 10) {i : Instr} (h : ∀ w, decodeForm3 w op4.toNat v = i)
    (hl : i.length = 2) : Encodes2 (form3 op4 v) i :=
  encodes2_of_decode ((decodeUnits_form3 op4 v 0).trans (h _)) hl

end Sys2Proof
end

