-- ==== Sys2Proof/Laws/Exec.lean ====
section
/-! SUPPORT. What the operations that end an instruction can answer: jumps, exceptions, loads, stores and calls, each said
once. -/

namespace Sys2Proof.Machine

@[simp] theorem Stop.result_ne_next (e : Stop) (t : State) : (e.result = .next t) = False := by
  cases e <;> simp [Stop.result]

/-! ## Control transfer -/

/-- Everything a jump can do. -/
theorem State.jumpTo_spec {s t : State} {x : Word} (h : s.jumpTo x = .next t) : evenAddr x = true ∧ t = s.setPc x := by
  simp only [State.jumpTo] at h
  split at h
  · cases h
  · cases h
    exact ⟨by simp [evenAddr]; omega, rfl⟩

theorem State.jumpTo_even (s : State) {x : Word} (h : evenAddr x = true) : s.jumpTo x = .next (s.setPc x) := by
  have : ¬x.toNat % 2 = 1 := by simp [evenAddr] at h; omega
  simp [State.jumpTo, this]

theorem State.jumpTo_odd (s : State) {x : Word} (h : evenAddr x = false) : s.jumpTo x = .fault .oddTarget := by
  have : x.toNat % 2 = 1 := by simp [evenAddr] at h; omega
  simp [State.jumpTo, this]

/-! ## Exceptions -/

/-- Everything that taking an exception can do. -/
theorem State.takeException_spec {s t : State} {c : Cause} {ra : Word} (h : s.takeException c ra = .next t) :
    evenAddr (s.sreg .handler) = true ∧
      t = ((s.setSReg .cause (c.code s.cfg)).setSReg .returnAddress ra).setPc (s.sreg .handler) := by
  simp only [State.takeException] at h
  split at h
  · cases h
  · cases h
    exact ⟨by simp [evenAddr]; omega, rfl⟩

theorem State.takeException_even (s : State) (c : Cause) (ra : Word) (h : evenAddr (s.sreg .handler) = true) :
    s.takeException c ra =
      .next (((s.setSReg .cause (c.code s.cfg)).setSReg .returnAddress ra).setPc (s.sreg .handler)) := by
  have : ¬(s.sreg .handler).toNat % 2 = 1 := by simp [evenAddr] at h; omega
  simp [State.takeException, this]

theorem State.takeException_odd (s : State) (c : Cause) (ra : Word) (h : evenAddr (s.sreg .handler) = false) :
    s.takeException c ra = .fault .oddHandler := by
  have : (s.sreg .handler).toNat % 2 = 1 := by simp [evenAddr] at h; omega
  simp [State.takeException, this]

/-- What taking an exception changes, and that it changes nothing else. -/
theorem State.takeException_entered {s t : State} {c : Cause} {ra : Word} (h : s.takeException c ra = .next t) :
    ExceptionEntered (c.code s.cfg) ra s t := by
  obtain ⟨-, rfl⟩ := State.takeException_spec h
  refine ⟨rfl, rfl, rfl, fun r h1 h2 => ?_, fun _ => rfl, rfl, ⟨fun _ => rfl, rfl⟩, rfl, rfl, rfl, rfl⟩
  simp [State.sreg_setSReg, h1, h2]

/-! ## Loads and stores -/

/-- Everything a load can do. -/
theorem State.loadTo_spec {s t : State} {a : Reg} {ea : Word} {w : Width} {len : Nat}
    (h : s.loadTo a ea w len = .next t) : ∃ v, s.memRead ea w = .ok v ∧ t = (s.setReg a v).advance len := by
  simp only [State.loadTo] at h
  split at h
  · simp at h
  · cases h
    exact ⟨_, ‹_›, rfl⟩

/-- Everything a store can do. -/
theorem State.storeTo_spec {s t : State} {ea v : Word} {w : Width} {len : Nat} (h : s.storeTo ea w v len = .next t) :
    ∃ u, s.memWrite ea w v = .ok u ∧ t = u.advance len := by
  simp only [State.storeTo] at h
  split at h
  · simp at h
  · cases h
    exact ⟨_, ‹_›, rfl⟩

/-- A load completes where the access is aligned and its bytes have values. -/
theorem State.loadTo_ok (s : State) (a : Reg) {ea : Word} {w : Width} (len : Nat) {bs : List Byte}
    (ha : aligned ea w = true) (hl : bs.length = w.bytes) (h : Holds s ea bs) :
    ∃ t, s.loadTo a ea w len = .next t ∧ t.reg a = wordOfBytes s.cfg.endian bs ∧ Frame [a] s t ∧
      t.pc = s.pc + BitVec.ofNat 32 len := by
  simp only [State.loadTo, State.memRead_ok s ha hl h]
  exact s.writeReg_spec a _ len

/-- A store completes where the access is aligned and its bytes are writable. -/
theorem State.storeTo_ok (s : State) {ea : Word} {w : Width} (v : Word) (len : Nat) (ha : aligned ea w = true)
    (hw : Writable s ea w.bytes) :
    ∃ t, s.storeTo ea w v len = .next t ∧ StoresOnly ea (bytesOfWord s.cfg.endian w.bytes v) s t ∧
      FrameExceptMemory [] s t ∧ t.pc = s.pc + BitVec.ofNat 32 len := by
  obtain ⟨u, hu⟩ := s.memWrite_ok v ha hw
  obtain ⟨-, -, hs, hf⟩ := State.memWrite_spec hu
  refine ⟨u.advance len, by simp [State.storeTo, hu], ⟨hs.1, hs.2, hs.3⟩, ?_, ?_⟩
  · rw [hf]
    exact ⟨fun _ _ => rfl, rfl, rfl, rfl, rfl, rfl, rfl⟩
  · rw [hf]
    rfl

/-! ## Calls -/

/-- Everything a call can do. -/
theorem State.call_spec {s t : State} {target : Word} {len : Nat} (h : s.call target len = .next t) :
    ∃ u v, s.memWrite s.eaCallReturn .long (s.pc + BitVec.ofNat 32 len) = .ok u ∧
      u.memWrite s.eaCallFrame .long (s.reg Reg.fp) = .ok v ∧ Writable s s.eaCallFree 4 ∧ evenAddr target = true ∧
      t = ((v.setReg Reg.sp s.eaCallFrame).setReg Reg.fp s.eaCallFrame).setPc target := by
  simp only [State.call] at h
  split at h
  · simp at h
  · split at h
    · simp at h
    · split at h
      · cases h
      · rename_i hw
        have ⟨he, ht⟩ := State.jumpTo_spec h
        exact ⟨_, _, ‹_›, ‹_›, (s.writable_iff _ _).1 (by simpa using hw), he, ht⟩

/-- Everything `ret` can do. -/
theorem execRet_spec {s t : State} (h : execRet s = .next t) :
    ∃ fp ra, s.memRead (s.reg Reg.fp) .long = .ok fp ∧ s.memRead (s.reg Reg.fp + 4) .long = .ok ra ∧
      evenAddr ra = true ∧ t = ((s.setReg Reg.fp fp).setReg Reg.sp (s.reg Reg.fp + 12)).setPc ra := by
  simp only [execRet] at h
  split at h
  · simp at h
  · split at h
    · simp at h
    · have ⟨he, ht⟩ := State.jumpTo_spec h
      exact ⟨_, _, ‹_›, ‹_›, he, ht⟩

/-! ## The environment -/

/-- What the environment's move leaves alone. -/
theorem State.sampleEnv_eq (s : State) :
    s.sampleEnv = { s with irqPending := s.sampleEnv.irqPending, envTick := s.sampleEnv.envTick } := by
  simp only [State.sampleEnv]
  split <;> rfl

/-- Without `IRQ_PRESENT` the environment does nothing. -/
theorem State.sampleEnv_absent {s : State} (h : s.cfg.irqPresent = false) : s.sampleEnv = s := by
  simp [State.sampleEnv, h]

/-- Everything a step can do. -/
theorem step_cases {s t : State} (h : step s = .next t) :
    s.ended = false ∧
      ((s.sampleEnv.irqTaken = true ∧ s.sampleEnv.takeIrq = .next t) ∨
        (s.sampleEnv.irqTaken = false ∧ ∃ i, s.sampleEnv.fetch = .ok i ∧ exec i s.sampleEnv = .next t)) := by
  simp only [step] at h
  split at h
  · cases h
  · rename_i he
    refine ⟨by simpa using he, ?_⟩
    split at h
    · exact .inl ⟨‹_›, h⟩
    · rename_i hi
      refine .inr ⟨by simpa using hi, ?_⟩
      split at h
      · simp at h
      · exact ⟨_, ‹_›, h⟩

/-- A fetch succeeds only at an even `pc`. -/
theorem State.fetch_even {s : State} {i : Instr} (h : s.fetch = .ok i) : evenAddr s.pc = true := by
  simp only [State.fetch] at h
  split at h
  · cases h
  · simp [evenAddr]; omega

/-! ## Raising, branching, special register numbers, fetching -/

/-- Everything that raising a synchronous exception can do. -/
theorem State.raise_raises (s : State) (c : Cause) (len : Nat) : Raises (s.raise c len) (c.code s.cfg) len s := by
  have hra : s.excReturnAddress len = returnAddressFor s len := by
    simp only [State.excReturnAddress, returnAddressFor]
    split <;> simp_all
  refine ⟨fun h => ⟨_, State.takeException_even s c _ h, ?_⟩, fun h => State.takeException_odd s c _ h⟩
  rw [← hra]
  exact State.takeException_entered (State.takeException_even s c _ h)

/-- Everything a branch can do. -/
theorem State.branchIf_spec (s : State) (c : BranchCond) (v10 : BitVec 10) :
    ∃ t, s.branchIf c v10 = .next t ∧ Frame [] s t ∧
      t.pc = if condHolds c s.cc = true then s.branchTarget v10 else s.pc + 2 := by
  refine ⟨_, rfl, ?_, ?_⟩
  · split
    · exact Frame.setPc s _
    · exact Frame.advance s 2
  · split <;> rfl

/-- Everything that naming a special register by its number can answer. -/
theorem State.namedSReg_spec {s : State} {n : BitVec 8} {r : SReg} (h : s.namedSReg n = .ok r) :
    SReg.ofNumber n = some r ∧ n.toNat < s.cfg.numSregs := by
  simp only [State.namedSReg] at h
  split at h
  · cases h
  · split at h
    · cases h
    · cases h
      exact ⟨‹_›, by omega⟩

theorem State.namedSReg_ok {s : State} {n : BitVec 8} {r : SReg} (hr : SReg.ofNumber n = some r)
    (hn : n.toNat < s.cfg.numSregs) : s.namedSReg n = .ok r := by
  have : ¬s.cfg.numSregs ≤ n.toNat := by omega
  simp [State.namedSReg, hr, this]

/-- The fetch of one byte succeeds on a backed byte with a value that the program has not stored to. -/
theorem State.fetchByte_ok {s : State} {a : Word} {b : Byte} (hb : s.backed a = true) (hs : a.toNat ∉ s.stored)
    (hm : Memory.read s.mem a.toNat = some b) : s.fetchByte a = .ok b := by
  simp [State.fetchByte, hb, hs, hm]

/-- Where a fetch succeeds, and the instruction it answers: the two bytes of the word, and then the trailing unit's. -/
theorem State.fetch_ok {s : State} {bs ts : List Byte} {w : BitVec 16} (he : evenAddr s.pc = true)
    (h1 : readBytes s.fetchByte s.pc 2 = .ok bs) (hw : (wordOfBytes s.cfg.endian bs).setWidth 16 = w)
    (h2 : readBytes s.fetchByte (byteAddr s.pc 2) (tailLength w) = .ok ts) :
    s.fetch = .ok (decodeUnits w (wordOfBytes s.cfg.endian ts)) := by
  have : ¬s.pc.toNat % 2 = 1 := by simp [evenAddr] at he; omega
  simp only [State.fetch, if_neg this, h1, hw, h2]

end Sys2Proof.Machine
end

