-- ==== Sys2Proof/Laws/PerInstr.lean ====
section
/-! SUPPORT. Statements made once per instruction: how many bytes the encoder writes (`30_encoding.md` R80). -/

namespace Sys2Proof.Laws

open Sys2Proof.Machine

/-- The encoder writes as many bytes as the instruction is long, in both byte orders. -/
def EncodedLength.Statement (i : Instr) : Prop := ∀ e, (encode e i).length = i.length

/-- The encoder writes the word's two bytes and the trailing unit's. -/
theorem encode_length (e : Endian) (i : Instr) : (encode e i).length = 2 + (i.length - 2) := by
  simp [encode]

theorem EncodedLength.ldiL (a : Reg) (i32 : Word) : EncodedLength.Statement (.ldiL a i32) :=
  fun e => encode_length e _
theorem EncodedLength.mov (a : Reg) (b : Reg) : EncodedLength.Statement (.mov a b) :=
  fun e => encode_length e _
theorem EncodedLength.jsra (i32 : Word) : EncodedLength.Statement (.jsra i32) :=
  fun e => encode_length e _
theorem EncodedLength.ret : EncodedLength.Statement (.ret) :=
  fun e => encode_length e _
theorem EncodedLength.add (a : Reg) (b : Reg) : EncodedLength.Statement (.add a b) :=
  fun e => encode_length e _
theorem EncodedLength.push (a : Reg) (b : Reg) : EncodedLength.Statement (.push a b) :=
  fun e => encode_length e _
theorem EncodedLength.pop (a : Reg) (b : Reg) : EncodedLength.Statement (.pop a b) :=
  fun e => encode_length e _
theorem EncodedLength.ldaL (a : Reg) (i32 : Word) : EncodedLength.Statement (.ldaL a i32) :=
  fun e => encode_length e _
theorem EncodedLength.staL (a : Reg) (i32 : Word) : EncodedLength.Statement (.staL a i32) :=
  fun e => encode_length e _
theorem EncodedLength.ldL (a : Reg) (b : Reg) : EncodedLength.Statement (.ldL a b) :=
  fun e => encode_length e _
theorem EncodedLength.stL (a : Reg) (b : Reg) : EncodedLength.Statement (.stL a b) :=
  fun e => encode_length e _
theorem EncodedLength.ldoL (a : Reg) (b : Reg) (i16 : BitVec 16) : EncodedLength.Statement (.ldoL a b i16) :=
  fun e => encode_length e _
theorem EncodedLength.stoL (a : Reg) (b : Reg) (i16 : BitVec 16) : EncodedLength.Statement (.stoL a b i16) :=
  fun e => encode_length e _
theorem EncodedLength.cmp (a : Reg) (b : Reg) : EncodedLength.Statement (.cmp a b) :=
  fun e => encode_length e _
theorem EncodedLength.nop : EncodedLength.Statement (.nop) :=
  fun e => encode_length e _
theorem EncodedLength.sexB (a : Reg) (b : Reg) : EncodedLength.Statement (.sexB a b) :=
  fun e => encode_length e _
theorem EncodedLength.sexS (a : Reg) (b : Reg) : EncodedLength.Statement (.sexS a b) :=
  fun e => encode_length e _
theorem EncodedLength.zexB (a : Reg) (b : Reg) : EncodedLength.Statement (.zexB a b) :=
  fun e => encode_length e _
theorem EncodedLength.zexS (a : Reg) (b : Reg) : EncodedLength.Statement (.zexS a b) :=
  fun e => encode_length e _
theorem EncodedLength.umulX (a : Reg) (b : Reg) : EncodedLength.Statement (.umulX a b) :=
  fun e => encode_length e _
theorem EncodedLength.mulX (a : Reg) (b : Reg) : EncodedLength.Statement (.mulX a b) :=
  fun e => encode_length e _
theorem EncodedLength.jsr (a : Reg) : EncodedLength.Statement (.jsr a) :=
  fun e => encode_length e _
theorem EncodedLength.jmpa (i32 : Word) : EncodedLength.Statement (.jmpa i32) :=
  fun e => encode_length e _
theorem EncodedLength.ldiB (a : Reg) (i32 : Word) : EncodedLength.Statement (.ldiB a i32) :=
  fun e => encode_length e _
theorem EncodedLength.ldB (a : Reg) (b : Reg) : EncodedLength.Statement (.ldB a b) :=
  fun e => encode_length e _
theorem EncodedLength.ldaB (a : Reg) (i32 : Word) : EncodedLength.Statement (.ldaB a i32) :=
  fun e => encode_length e _
theorem EncodedLength.stB (a : Reg) (b : Reg) : EncodedLength.Statement (.stB a b) :=
  fun e => encode_length e _
theorem EncodedLength.staB (a : Reg) (i32 : Word) : EncodedLength.Statement (.staB a i32) :=
  fun e => encode_length e _
theorem EncodedLength.ldiS (a : Reg) (i32 : Word) : EncodedLength.Statement (.ldiS a i32) :=
  fun e => encode_length e _
theorem EncodedLength.ldS (a : Reg) (b : Reg) : EncodedLength.Statement (.ldS a b) :=
  fun e => encode_length e _
theorem EncodedLength.ldaS (a : Reg) (i32 : Word) : EncodedLength.Statement (.ldaS a i32) :=
  fun e => encode_length e _
theorem EncodedLength.stS (a : Reg) (b : Reg) : EncodedLength.Statement (.stS a b) :=
  fun e => encode_length e _
theorem EncodedLength.staS (a : Reg) (i32 : Word) : EncodedLength.Statement (.staS a i32) :=
  fun e => encode_length e _
theorem EncodedLength.jmp (a : Reg) : EncodedLength.Statement (.jmp a) :=
  fun e => encode_length e _
theorem EncodedLength.and (a : Reg) (b : Reg) : EncodedLength.Statement (.and a b) :=
  fun e => encode_length e _
theorem EncodedLength.lshr (a : Reg) (b : Reg) : EncodedLength.Statement (.lshr a b) :=
  fun e => encode_length e _
theorem EncodedLength.ashl (a : Reg) (b : Reg) : EncodedLength.Statement (.ashl a b) :=
  fun e => encode_length e _
theorem EncodedLength.sub (a : Reg) (b : Reg) : EncodedLength.Statement (.sub a b) :=
  fun e => encode_length e _
theorem EncodedLength.neg (a : Reg) (b : Reg) : EncodedLength.Statement (.neg a b) :=
  fun e => encode_length e _
theorem EncodedLength.or (a : Reg) (b : Reg) : EncodedLength.Statement (.or a b) :=
  fun e => encode_length e _
theorem EncodedLength.not (a : Reg) (b : Reg) : EncodedLength.Statement (.not a b) :=
  fun e => encode_length e _
theorem EncodedLength.ashr (a : Reg) (b : Reg) : EncodedLength.Statement (.ashr a b) :=
  fun e => encode_length e _
theorem EncodedLength.xor (a : Reg) (b : Reg) : EncodedLength.Statement (.xor a b) :=
  fun e => encode_length e _
theorem EncodedLength.mul (a : Reg) (b : Reg) : EncodedLength.Statement (.mul a b) :=
  fun e => encode_length e _
theorem EncodedLength.swi (i32 : Word) : EncodedLength.Statement (.swi i32) :=
  fun e => encode_length e _
theorem EncodedLength.div (a : Reg) (b : Reg) : EncodedLength.Statement (.div a b) :=
  fun e => encode_length e _
theorem EncodedLength.udiv (a : Reg) (b : Reg) : EncodedLength.Statement (.udiv a b) :=
  fun e => encode_length e _
theorem EncodedLength.mod (a : Reg) (b : Reg) : EncodedLength.Statement (.mod a b) :=
  fun e => encode_length e _
theorem EncodedLength.umod (a : Reg) (b : Reg) : EncodedLength.Statement (.umod a b) :=
  fun e => encode_length e _
theorem EncodedLength.brk : EncodedLength.Statement (.brk) :=
  fun e => encode_length e _
theorem EncodedLength.ldoB (a : Reg) (b : Reg) (i16 : BitVec 16) : EncodedLength.Statement (.ldoB a b i16) :=
  fun e => encode_length e _
theorem EncodedLength.stoB (a : Reg) (b : Reg) (i16 : BitVec 16) : EncodedLength.Statement (.stoB a b i16) :=
  fun e => encode_length e _
theorem EncodedLength.ldoS (a : Reg) (b : Reg) (i16 : BitVec 16) : EncodedLength.Statement (.ldoS a b i16) :=
  fun e => encode_length e _
theorem EncodedLength.stoS (a : Reg) (b : Reg) (i16 : BitVec 16) : EncodedLength.Statement (.stoS a b i16) :=
  fun e => encode_length e _
theorem EncodedLength.inc (a : Reg) (i8 : BitVec 8) : EncodedLength.Statement (.inc a i8) :=
  fun e => encode_length e _
theorem EncodedLength.dec (a : Reg) (i8 : BitVec 8) : EncodedLength.Statement (.dec a i8) :=
  fun e => encode_length e _
theorem EncodedLength.gsr (a : Reg) (n : BitVec 8) : EncodedLength.Statement (.gsr a n) :=
  fun e => encode_length e _
theorem EncodedLength.ssr (a : Reg) (n : BitVec 8) : EncodedLength.Statement (.ssr a n) :=
  fun e => encode_length e _
theorem EncodedLength.beq (v10 : BitVec 10) : EncodedLength.Statement (.beq v10) :=
  fun e => encode_length e _
theorem EncodedLength.bne (v10 : BitVec 10) : EncodedLength.Statement (.bne v10) :=
  fun e => encode_length e _
theorem EncodedLength.blt (v10 : BitVec 10) : EncodedLength.Statement (.blt v10) :=
  fun e => encode_length e _
theorem EncodedLength.bgt (v10 : BitVec 10) : EncodedLength.Statement (.bgt v10) :=
  fun e => encode_length e _
theorem EncodedLength.bltu (v10 : BitVec 10) : EncodedLength.Statement (.bltu v10) :=
  fun e => encode_length e _
theorem EncodedLength.bgtu (v10 : BitVec 10) : EncodedLength.Statement (.bgtu v10) :=
  fun e => encode_length e _
theorem EncodedLength.bge (v10 : BitVec 10) : EncodedLength.Statement (.bge v10) :=
  fun e => encode_length e _
theorem EncodedLength.ble (v10 : BitVec 10) : EncodedLength.Statement (.ble v10) :=
  fun e => encode_length e _
theorem EncodedLength.bgeu (v10 : BitVec 10) : EncodedLength.Statement (.bgeu v10) :=
  fun e => encode_length e _
theorem EncodedLength.bleu (v10 : BitVec 10) : EncodedLength.Statement (.bleu v10) :=
  fun e => encode_length e _
theorem EncodedLength.bad (w : BitVec 16) : EncodedLength.Statement (.bad w) :=
  fun e => encode_length e _

end Sys2Proof.Laws
end

