-- ==== Sys2Proof/Tests/Slice0.lean ====
section
/-! SUPPORT. Tests. The words are written out from the patterns of `30_encoding.md` R90 to R93, and the results are those of
the spec's own examples and of the rows of `95_test_vectors.md` section 2, named in each comment. Then, for each statement
with hypotheses, a state and operands that meet them. -/

namespace Sys2Proof.Tests

open Sys2Proof Sys2Proof.Machine

/-! ## Well-formedness: the one check, a word that `bad` does not hold -/

theorem test_wellformed_bad_word : (Instr.bad 0x1600).wellFormed = true := by decide
theorem test_illformed_bad_add : (Instr.bad 0x0523).wellFormed = false := by decide
theorem test_illformed_bad_inc : (Instr.bad 0x8204).wellFormed = false := by decide
theorem test_illformed_bad_beq : (Instr.bad 0xC002).wellFormed = false := by decide
theorem test_wellformed_add : (Instr.add 2 3).wellFormed = true := by decide

/-! ## Decoding: one word for each constructor, A = 2, B = 3 -/

theorem test_decode_ldiL : decode .big [0x01, 0x20, 0x12, 0x34, 0x56, 0x78] = .ok (.ldiL 2 0x12345678, []) := by decide
theorem test_decode_mov : decode .big [0x02, 0x23] = .ok (.mov 2 3, []) := by decide
theorem test_decode_jsra : decode .big [0x03, 0x00, 0x12, 0x34, 0x56, 0x78] = .ok (.jsra 0x12345678, []) := by decide
theorem test_decode_ret : decode .big [0x04, 0x00] = .ok (.ret, []) := by decide
theorem test_decode_add : decode .big [0x05, 0x23] = .ok (.add 2 3, []) := by decide
theorem test_decode_push : decode .big [0x06, 0x23] = .ok (.push 2 3, []) := by decide
theorem test_decode_pop : decode .big [0x07, 0x23] = .ok (.pop 2 3, []) := by decide
theorem test_decode_ldaL : decode .big [0x08, 0x20, 0x12, 0x34, 0x56, 0x78] = .ok (.ldaL 2 0x12345678, []) := by decide
theorem test_decode_staL : decode .big [0x09, 0x20, 0x12, 0x34, 0x56, 0x78] = .ok (.staL 2 0x12345678, []) := by decide
theorem test_decode_ldL : decode .big [0x0A, 0x23] = .ok (.ldL 2 3, []) := by decide
theorem test_decode_stL : decode .big [0x0B, 0x23] = .ok (.stL 2 3, []) := by decide
theorem test_decode_ldoL : decode .big [0x0C, 0x23, 0xFE, 0xDC] = .ok (.ldoL 2 3 0xFEDC, []) := by decide
theorem test_decode_stoL : decode .big [0x0D, 0x23, 0xFE, 0xDC] = .ok (.stoL 2 3 0xFEDC, []) := by decide
theorem test_decode_cmp : decode .big [0x0E, 0x23] = .ok (.cmp 2 3, []) := by decide
theorem test_decode_nop : decode .big [0x0F, 0x00] = .ok (.nop, []) := by decide
theorem test_decode_sexB : decode .big [0x10, 0x23] = .ok (.sexB 2 3, []) := by decide
theorem test_decode_sexS : decode .big [0x11, 0x23] = .ok (.sexS 2 3, []) := by decide
theorem test_decode_zexB : decode .big [0x12, 0x23] = .ok (.zexB 2 3, []) := by decide
theorem test_decode_zexS : decode .big [0x13, 0x23] = .ok (.zexS 2 3, []) := by decide
theorem test_decode_umulX : decode .big [0x14, 0x23] = .ok (.umulX 2 3, []) := by decide
theorem test_decode_mulX : decode .big [0x15, 0x23] = .ok (.mulX 2 3, []) := by decide
theorem test_decode_jsr : decode .big [0x19, 0x20] = .ok (.jsr 2, []) := by decide
theorem test_decode_jmpa : decode .big [0x1A, 0x00, 0x12, 0x34, 0x56, 0x78] = .ok (.jmpa 0x12345678, []) := by decide
theorem test_decode_ldiB : decode .big [0x1B, 0x20, 0x12, 0x34, 0x56, 0x78] = .ok (.ldiB 2 0x12345678, []) := by decide
theorem test_decode_ldB : decode .big [0x1C, 0x23] = .ok (.ldB 2 3, []) := by decide
theorem test_decode_ldaB : decode .big [0x1D, 0x20, 0x12, 0x34, 0x56, 0x78] = .ok (.ldaB 2 0x12345678, []) := by decide
theorem test_decode_stB : decode .big [0x1E, 0x23] = .ok (.stB 2 3, []) := by decide
theorem test_decode_staB : decode .big [0x1F, 0x20, 0x12, 0x34, 0x56, 0x78] = .ok (.staB 2 0x12345678, []) := by decide
theorem test_decode_ldiS : decode .big [0x20, 0x20, 0x12, 0x34, 0x56, 0x78] = .ok (.ldiS 2 0x12345678, []) := by decide
theorem test_decode_ldS : decode .big [0x21, 0x23] = .ok (.ldS 2 3, []) := by decide
theorem test_decode_ldaS : decode .big [0x22, 0x20, 0x12, 0x34, 0x56, 0x78] = .ok (.ldaS 2 0x12345678, []) := by decide
theorem test_decode_stS : decode .big [0x23, 0x23] = .ok (.stS 2 3, []) := by decide
theorem test_decode_staS : decode .big [0x24, 0x20, 0x12, 0x34, 0x56, 0x78] = .ok (.staS 2 0x12345678, []) := by decide
theorem test_decode_jmp : decode .big [0x25, 0x20] = .ok (.jmp 2, []) := by decide
theorem test_decode_and : decode .big [0x26, 0x23] = .ok (.and 2 3, []) := by decide
theorem test_decode_lshr : decode .big [0x27, 0x23] = .ok (.lshr 2 3, []) := by decide
theorem test_decode_ashl : decode .big [0x28, 0x23] = .ok (.ashl 2 3, []) := by decide
theorem test_decode_sub : decode .big [0x29, 0x23] = .ok (.sub 2 3, []) := by decide
theorem test_decode_neg : decode .big [0x2A, 0x23] = .ok (.neg 2 3, []) := by decide
theorem test_decode_or : decode .big [0x2B, 0x23] = .ok (.or 2 3, []) := by decide
theorem test_decode_not : decode .big [0x2C, 0x23] = .ok (.not 2 3, []) := by decide
theorem test_decode_ashr : decode .big [0x2D, 0x23] = .ok (.ashr 2 3, []) := by decide
theorem test_decode_xor : decode .big [0x2E, 0x23] = .ok (.xor 2 3, []) := by decide
theorem test_decode_mul : decode .big [0x2F, 0x23] = .ok (.mul 2 3, []) := by decide
theorem test_decode_swi : decode .big [0x30, 0x00, 0x12, 0x34, 0x56, 0x78] = .ok (.swi 0x12345678, []) := by decide
theorem test_decode_div : decode .big [0x31, 0x23] = .ok (.div 2 3, []) := by decide
theorem test_decode_udiv : decode .big [0x32, 0x23] = .ok (.udiv 2 3, []) := by decide
theorem test_decode_mod : decode .big [0x33, 0x23] = .ok (.mod 2 3, []) := by decide
theorem test_decode_umod : decode .big [0x34, 0x23] = .ok (.umod 2 3, []) := by decide
theorem test_decode_brk : decode .big [0x35, 0x00] = .ok (.brk, []) := by decide
theorem test_decode_ldoB : decode .big [0x36, 0x23, 0xFE, 0xDC] = .ok (.ldoB 2 3 0xFEDC, []) := by decide
theorem test_decode_stoB : decode .big [0x37, 0x23, 0xFE, 0xDC] = .ok (.stoB 2 3 0xFEDC, []) := by decide
theorem test_decode_ldoS : decode .big [0x38, 0x23, 0xFE, 0xDC] = .ok (.ldoS 2 3 0xFEDC, []) := by decide
theorem test_decode_stoS : decode .big [0x39, 0x23, 0xFE, 0xDC] = .ok (.stoS 2 3 0xFEDC, []) := by decide
theorem test_decode_inc : decode .big [0x82, 0x9C] = .ok (.inc 2 0x9C, []) := by decide
theorem test_decode_dec : decode .big [0x92, 0x9C] = .ok (.dec 2 0x9C, []) := by decide
theorem test_decode_gsr : decode .big [0xA2, 0x9C] = .ok (.gsr 2 0x9C, []) := by decide
theorem test_decode_ssr : decode .big [0xB2, 0x9C] = .ok (.ssr 2 0x9C, []) := by decide
theorem test_decode_beq : decode .big [0xC2, 0x05] = .ok (.beq 0x205, []) := by decide
theorem test_decode_bne : decode .big [0xC6, 0x05] = .ok (.bne 0x205, []) := by decide
theorem test_decode_blt : decode .big [0xCA, 0x05] = .ok (.blt 0x205, []) := by decide
theorem test_decode_bgt : decode .big [0xCE, 0x05] = .ok (.bgt 0x205, []) := by decide
theorem test_decode_bltu : decode .big [0xD2, 0x05] = .ok (.bltu 0x205, []) := by decide
theorem test_decode_bgtu : decode .big [0xD6, 0x05] = .ok (.bgtu 0x205, []) := by decide
theorem test_decode_bge : decode .big [0xDA, 0x05] = .ok (.bge 0x205, []) := by decide
theorem test_decode_ble : decode .big [0xDE, 0x05] = .ok (.ble 0x205, []) := by decide
theorem test_decode_bgeu : decode .big [0xE2, 0x05] = .ok (.bgeu 0x205, []) := by decide
theorem test_decode_bleu : decode .big [0xE6, 0x05] = .ok (.bleu 0x205, []) := by decide
theorem test_decode_bad : decode .big [0x16, 0x23] = .ok (.bad 0x1623, []) := by decide

theorem test_decode_little_add : decode .little [0x23, 0x05] = .ok (.add 2 3, []) := by decide
theorem test_decode_little_ldoL : decode .little [0x23, 0x0C, 0xFC, 0xFF] = .ok (.ldoL 2 3 0xFFFC, []) := by decide
theorem test_decode_little_ldiL : decode .little [0x20, 0x01, 0x78, 0x56, 0x34, 0x12] = .ok (.ldiL 2 0x12345678, []) := by
  decide
theorem test_decode_x_bits : decode .big [0x25, 0x2F] = .ok (.jmp 2, []) := by decide
theorem test_decode_leaves_rest : decode .big [0x0F, 0xAB, 0x05] = .ok (.nop, [0x05]) := by decide
theorem test_decode_truncated : decode .big [0x01, 0x20, 0x12, 0x34, 0x56] = .error .truncated := by decide
theorem test_bad_edges : [0x00FF, 0x1800, 0x3A00, 0x3FFF, 0x4000, 0x7FFF, 0xE800, 0xFFFF].all isBadWord = true := by decide
theorem test_not_bad_edges : [0x0100, 0x15FF, 0x1900, 0x39FF, 0x8000, 0xE7FF].any isBadWord = false := by decide
theorem test_encode_jmpa : encode .little (.jmpa 0x12345678) = [0x00, 0x1A, 0x78, 0x56, 0x34, 0x12] := by decide
theorem test_table_word : decodeTableWord 16 0x0523 = some (.add 2 3) := by decide
theorem test_table_word_tail : decodeTableWord 48 0x567812341A00 = some (.jmpa 0x12345678) := by decide

/-! ## One step -/

/-- Program text at 0x1000, and data where the spec's vectors have it. -/
def config : Config :=
  { specConfig with memMap := [⟨0x1000, 0x10, .text⟩, ⟨0x3000, 8, .data⟩, ⟨0x7FF4, 12, .data⟩] }

/-- The machine at 0x1000 with these bytes there, these registers and these bytes of data. -/
def machine (program : List Byte) (regs : List (Reg × Word)) (base : Word := 0x3000) (data : List Byte := []) : State :=
  regs.foldl (fun s p => s.setReg p.1 p.2) ((State.load { State.reset with cfg := config } 0x1000 program).load base data)

/-- Eight bytes of data. -/
def data : List Byte := [0x81, 0x92, 0xA3, 0xB4, 0xC5, 0xD6, 0xE7, 0xF8]

/-- What is seen of a next state. -/
def observe {α : Type} (r : Result) (f : State → α) : Option α :=
  match r with
  | .next t => some (f t)
  | _ => none

/-- Several bytes of memory. -/
def bytesAt (s : State) (a : Nat) (n : Nat) : List (Option Byte) := (List.range n).map fun k => Memory.read s.mem (a + k)

-- A2
theorem test_add :
    observe (step (machine [0x05, 0x23] [(2, 0xFFFFFFFF), (3, 0x2)]))
        (fun t => (t.reg 2, t.pc)) =
      some (0x1, 0x1002) := by decide
-- A3
theorem test_add_same :
    observe (step (machine [0x05, 0x22] [(2, 0x80000001)]))
        (fun t => (t.reg 2, t.pc)) =
      some (0x2, 0x1002) := by decide
-- A4
theorem test_sub :
    observe (step (machine [0x29, 0x23] [(2, 0x0), (3, 0x1)]))
        (fun t => (t.reg 2, t.pc)) =
      some (0xFFFFFFFF, 0x1002) := by decide
-- the operands of A7 in $r0, $r1
theorem test_and :
    observe (step (machine [0x26, 0x23] [(2, 0xF0F0F0F0), (3, 0x0FF00FF0)]))
        (fun t => (t.reg 2, t.pc)) =
      some (0x00F000F0, 0x1002) := by decide
-- the operands of A8
theorem test_or :
    observe (step (machine [0x2B, 0x23] [(2, 0xF0F0F0F0), (3, 0x0FF00FF0)]))
        (fun t => (t.reg 2, t.pc)) =
      some (0xFFF0FFF0, 0x1002) := by decide
-- the operands of A9
theorem test_xor :
    observe (step (machine [0x2E, 0x23] [(2, 0xF0F0F0F0), (3, 0x0FF00FF0)]))
        (fun t => (t.reg 2, t.pc)) =
      some (0xFF00FF00, 0x1002) := by decide
-- A11
theorem test_not :
    observe (step (machine [0x2C, 0x23] [(3, 0x00FF00FF)]))
        (fun t => (t.reg 2, t.pc)) =
      some (0xFF00FF00, 0x1002) := by decide
-- A13
theorem test_neg :
    observe (step (machine [0x2A, 0x23] [(3, 0x1)]))
        (fun t => (t.reg 2, t.pc)) =
      some (0xFFFFFFFF, 0x1002) := by decide
-- A14
theorem test_neg_min :
    observe (step (machine [0x2A, 0x23] [(3, 0x80000000)]))
        (fun t => (t.reg 2, t.pc)) =
      some (0x80000000, 0x1002) := by decide
-- A17
theorem test_ashl :
    observe (step (machine [0x28, 0x23] [(2, 0x1), (3, 0x1F)]))
        (fun t => (t.reg 2, t.pc)) =
      some (0x80000000, 0x1002) := by decide
-- A20
theorem test_ashr :
    observe (step (machine [0x2D, 0x23] [(2, 0x80000000), (3, 0x4)]))
        (fun t => (t.reg 2, t.pc)) =
      some (0xF8000000, 0x1002) := by decide
-- A21
theorem test_ashr_31 :
    observe (step (machine [0x2D, 0x23] [(2, 0x80000000), (3, 0x1F)]))
        (fun t => (t.reg 2, t.pc)) =
      some (0xFFFFFFFF, 0x1002) := by decide
-- A25
theorem test_lshr :
    observe (step (machine [0x27, 0x23] [(2, 0x80000000), (3, 0x1F)]))
        (fun t => (t.reg 2, t.pc)) =
      some (0x1, 0x1002) := by decide
-- A28
theorem test_inc :
    observe (step (machine [0x82, 0xFF] [(2, 0xFFFFFF01)]))
        (fun t => (t.reg 2, t.pc)) =
      some (0x0, 0x1002) := by decide
-- A29
theorem test_inc_unsigned :
    observe (step (machine [0x82, 0x80] [(2, 0x0)]))
        (fun t => (t.reg 2, t.pc)) =
      some (0x80, 0x1002) := by decide
-- A32
theorem test_dec :
    observe (step (machine [0x92, 0x01] [(2, 0x0)]))
        (fun t => (t.reg 2, t.pc)) =
      some (0xFFFFFFFF, 0x1002) := by decide
-- as A34
theorem test_mov :
    observe (step (machine [0x02, 0x23] [(3, 0x2000)]))
        (fun t => (t.reg 2, t.pc)) =
      some (0x2000, 0x1002) := by decide
-- A36
theorem test_sexB :
    observe (step (machine [0x10, 0x23] [(3, 0x12345680)]))
        (fun t => (t.reg 2, t.pc)) =
      some (0xFFFFFF80, 0x1002) := by decide
-- A38
theorem test_sexS :
    observe (step (machine [0x11, 0x23] [(3, 0x12348000)]))
        (fun t => (t.reg 2, t.pc)) =
      some (0xFFFF8000, 0x1002) := by decide
-- A40
theorem test_zexB :
    observe (step (machine [0x12, 0x23] [(3, 0x123456FF)]))
        (fun t => (t.reg 2, t.pc)) =
      some (0xFF, 0x1002) := by decide
-- A41
theorem test_zexS :
    observe (step (machine [0x13, 0x23] [(3, 0x1234FFFF)]))
        (fun t => (t.reg 2, t.pc)) =
      some (0xFFFF, 0x1002) := by decide
-- X2
theorem test_nop :
    observe (step (machine [0x0F, 0xAB] [(2, 7)]))
        (fun t => (t.reg 2, t.pc)) =
      some (7, 0x1002) := by decide
-- M3
theorem test_mul :
    observe (step (machine [0x2F, 0x23] [(2, 0x12345678), (3, 0x9ABCDEF0)]))
        (fun t => (t.reg 2, t.pc)) =
      some (0x242D2080, 0x1002) := by decide
-- M7
theorem test_mulX :
    observe (step (machine [0x15, 0x23] [(2, 0x12345678), (3, 0x9ABCDEF0)]))
        (fun t => (t.reg 2, t.pc)) =
      some (0xF8CC93D6, 0x1002) := by decide
-- M6
theorem test_mulX_min :
    observe (step (machine [0x15, 0x23] [(2, 0x80000000), (3, 0x80000000)]))
        (fun t => (t.reg 2, t.pc)) =
      some (0x40000000, 0x1002) := by decide
-- M10
theorem test_umulX :
    observe (step (machine [0x14, 0x23] [(2, 0x12345678), (3, 0x9ABCDEF0)]))
        (fun t => (t.reg 2, t.pc)) =
      some (0x0B00EA4E, 0x1002) := by decide
-- M12
theorem test_div :
    observe (step (machine [0x31, 0x23] [(2, 0xFFFFFFF9), (3, 0x3)]))
        (fun t => (t.reg 2, t.pc)) =
      some (0xFFFFFFFE, 0x1002) := by decide
-- M16
theorem test_div_min :
    observe (step (machine [0x31, 0x23] [(2, 0x80000000), (3, 0xFFFFFFFF)]))
        (fun t => (t.reg 2, t.pc)) =
      some (0x80000000, 0x1002) := by decide
-- M21
theorem test_mod :
    observe (step (machine [0x33, 0x23] [(2, 0xFFFFFFF9), (3, 0x3)]))
        (fun t => (t.reg 2, t.pc)) =
      some (0xFFFFFFFF, 0x1002) := by decide
-- M25
theorem test_mod_min :
    observe (step (machine [0x33, 0x23] [(2, 0x80000000), (3, 0xFFFFFFFF)]))
        (fun t => (t.reg 2, t.pc)) =
      some (0x0, 0x1002) := by decide
-- M30
theorem test_udiv :
    observe (step (machine [0x32, 0x23] [(2, 0xFFFFFFF9), (3, 0x3)]))
        (fun t => (t.reg 2, t.pc)) =
      some (0x55555553, 0x1002) := by decide
-- M41
theorem test_umod :
    observe (step (machine [0x34, 0x23] [(2, 0xFFFFFFF9), (3, 0xFFFFFFFD)]))
        (fun t => (t.reg 2, t.pc)) =
      some (0xFFFFFFF9, 0x1002) := by decide
-- C4
theorem test_cmp_signed :
    observe (step (machine [0x0E, 0x23] [(2, 0xFFFFFFFF), (3, 1)]))
        (fun t => (t.cc, t.pc)) =
      some (⟨false, true, false⟩, 0x1002) := by decide
-- C5
theorem test_cmp_unsigned :
    observe (step (machine [0x0E, 0x23] [(2, 1), (3, 0xFFFFFFFF)]))
        (fun t => (t.cc, t.pc)) =
      some (⟨false, false, true⟩, 0x1002) := by decide
-- X4
theorem test_jmp :
    observe (step (machine [0x25, 0x2F] [(2, 0x2000)]))
        (fun t => t.pc) =
      some 0x2000 := by decide
-- J3
theorem test_jmpa :
    observe (step (machine [0x1A, 0x00, 0x12, 0x34, 0x56, 0x78] []))
        (fun t => t.pc) =
      some 0x12345678 := by decide
-- J5
theorem test_jsr :
    observe (step (machine [0x19, 0x20] [(0, 0x8040), (1, 0x8000), (2, 0x2000)]))
        (fun t => (t.reg 0, t.reg 1, t.pc, bytesAt t 0x7FF4 8)) =
      some (0x7FF4, 0x7FF4, 0x2000, [0, 0, 0x80, 0x40, 0, 0, 0x10, 0x02].map some) := by decide
-- J7: the target is read before $sp changes
theorem test_jsr_sp :
    observe (step (machine [0x19, 0x10] [(0, 0x8040), (1, 0x8000)]))
        (fun t => (t.reg 0, t.reg 1, t.pc, bytesAt t 0x7FF4 8)) =
      some (0x7FF4, 0x7FF4, 0x8000, [0, 0, 0x80, 0x40, 0, 0, 0x10, 0x02].map some) := by decide
-- J8
theorem test_jsra :
    observe (step (machine [0x03, 0x00, 0x00, 0x00, 0x20, 0x00] [(0, 0x8040), (1, 0x8000)]))
        (fun t => (t.reg 1, t.pc, bytesAt t 0x7FF4 8)) =
      some (0x7FF4, 0x2000, [0, 0, 0x80, 0x40, 0, 0, 0x10, 0x06].map some) := by decide
-- J10
theorem test_ret :
    observe (step (machine [0x04, 0x00] [(0, 0x7FF4), (1, 0x7000)] 0x7FF4 [0, 0, 0x80, 0x40, 0, 0, 0x10, 0x06]))
        (fun t => (t.reg 0, t.reg 1, t.pc)) =
      some (0x8040, 0x8000, 0x1006) := by decide
-- L1
theorem test_ldL :
    observe (step (machine [0x0A, 0x23] [(3, 0x3000)] 0x3000 data))
        (fun t => (t.reg 2, t.pc)) =
      some (0x8192A3B4, 0x1002) := by decide
-- L2
theorem test_ldS :
    observe (step (machine [0x21, 0x23] [(3, 0x3002)] 0x3000 data))
        (fun t => (t.reg 2, t.pc)) =
      some (0xA3B4, 0x1002) := by decide
-- L3
theorem test_ldB :
    observe (step (machine [0x1C, 0x23] [(3, 0x3003)] 0x3000 data))
        (fun t => (t.reg 2, t.pc)) =
      some (0xB4, 0x1002) := by decide
-- L4
theorem test_ldaL :
    observe (step (machine [0x08, 0x20, 0x00, 0x00, 0x30, 0x04] [] 0x3000 data))
        (fun t => (t.reg 2, t.pc)) =
      some (0xC5D6E7F8, 0x1006) := by decide
-- L5
theorem test_ldaS :
    observe (step (machine [0x22, 0x20, 0x00, 0x00, 0x30, 0x06] [] 0x3000 data))
        (fun t => (t.reg 2, t.pc)) =
      some (0xE7F8, 0x1006) := by decide
-- L6
theorem test_ldaB :
    observe (step (machine [0x1D, 0x20, 0x00, 0x00, 0x30, 0x07] [] 0x3000 data))
        (fun t => (t.reg 2, t.pc)) =
      some (0xF8, 0x1006) := by decide
-- L7
theorem test_ldoL :
    observe (step (machine [0x0C, 0x23, 0xFF, 0xFC] [(3, 0x3008)] 0x3000 data))
        (fun t => (t.reg 2, t.pc)) =
      some (0xC5D6E7F8, 0x1004) := by decide
-- L8
theorem test_ldoS :
    observe (step (machine [0x38, 0x23, 0x00, 0x02] [(3, 0x3000)] 0x3000 data))
        (fun t => (t.reg 2, t.pc)) =
      some (0xA3B4, 0x1004) := by decide
-- L9
theorem test_ldoB :
    observe (step (machine [0x36, 0x23, 0xFF, 0xF8] [(3, 0x3008)] 0x3000 data))
        (fun t => (t.reg 2, t.pc)) =
      some (0x81, 0x1004) := by decide
-- L10, with the byte after it
theorem test_stL :
    observe (step (machine [0x0B, 0x23] [(2, 0x3000), (3, 0x11223344)] 0x3000 data))
        (fun t => (bytesAt t 0x3000 5, t.pc)) =
      some ([0x11, 0x22, 0x33, 0x44, 0xC5].map some, 0x1002) := by decide
-- L11, with the byte before it
theorem test_stS :
    observe (step (machine [0x23, 0x23] [(2, 0x3002), (3, 0x11223344)] 0x3000 data))
        (fun t => (bytesAt t 0x3001 3, t.pc)) =
      some ([0x92, 0x33, 0x44].map some, 0x1002) := by decide
-- L12, with the byte before it
theorem test_stB :
    observe (step (machine [0x1E, 0x23] [(2, 0x3003), (3, 0x11223344)] 0x3000 data))
        (fun t => (bytesAt t 0x3002 2, t.pc)) =
      some ([0xA3, 0x44].map some, 0x1002) := by decide
-- X9
theorem test_staL :
    observe (step (machine [0x09, 0x2F, 0x00, 0x00, 0x30, 0x04] [(2, 0x11223344)] 0x3000 data))
        (fun t => (bytesAt t 0x3004 4, t.pc)) =
      some ([0x11, 0x22, 0x33, 0x44].map some, 0x1006) := by decide
-- L14
theorem test_staS :
    observe (step (machine [0x24, 0x20, 0x00, 0x00, 0x30, 0x06] [(2, 0x11223344)] 0x3000 data))
        (fun t => (bytesAt t 0x3006 2, t.pc)) =
      some ([0x33, 0x44].map some, 0x1006) := by decide
-- L15
theorem test_staB :
    observe (step (machine [0x1F, 0x20, 0x00, 0x00, 0x30, 0x07] [(2, 0x11223344)] 0x3000 data))
        (fun t => (bytesAt t 0x3007 1, t.pc)) =
      some ([0x44].map some, 0x1006) := by decide
-- L16
theorem test_stoL :
    observe (step (machine [0x0D, 0x23, 0x00, 0x04] [(2, 0x3000), (3, 0x11223344)] 0x3000 data))
        (fun t => (bytesAt t 0x3004 4, t.pc)) =
      some ([0x11, 0x22, 0x33, 0x44].map some, 0x1004) := by decide
-- L17
theorem test_stoS :
    observe (step (machine [0x39, 0x23, 0xFF, 0xFE] [(2, 0x3008), (3, 0x11223344)] 0x3000 data))
        (fun t => (bytesAt t 0x3006 2, t.pc)) =
      some ([0x33, 0x44].map some, 0x1004) := by decide
-- L18
theorem test_stoB :
    observe (step (machine [0x37, 0x23, 0xFF, 0xFF] [(2, 0x3008), (3, 0x11223344)] 0x3000 data))
        (fun t => (bytesAt t 0x3007 1, t.pc)) =
      some ([0x44].map some, 0x1004) := by decide
-- X6
theorem test_ldiL :
    observe (step (machine [0x01, 0x2F, 0xCA, 0xFE, 0xF0, 0x0D] []))
        (fun t => (t.reg 2, t.pc)) =
      some (0xCAFEF00D, 0x1006) := by decide
-- L43
theorem test_ldiS :
    observe (step (machine [0x20, 0x20, 0x00, 0x01, 0x23, 0x45] []))
        (fun t => (t.reg 2, t.pc)) =
      some (0x12345, 0x1006) := by decide
-- L44
theorem test_ldiB :
    observe (step (machine [0x1B, 0x20, 0xFF, 0xFF, 0xFF, 0x80] []))
        (fun t => (t.reg 2, t.pc)) =
      some (0xFFFFFF80, 0x1006) := by decide
-- L20
theorem test_push :
    observe (step (machine [0x06, 0x12] [(1, 0x3008), (2, 0x11223344)] 0x3000 data))
        (fun t => (t.reg 1, bytesAt t 0x3004 4)) =
      some (0x3004, [0x11, 0x22, 0x33, 0x44].map some) := by decide
-- L47
theorem test_push_same :
    observe (step (machine [0x06, 0x11] [(1, 0x3008)] 0x3000 data))
        (fun t => (t.reg 1, bytesAt t 0x3004 4)) =
      some (0x3004, [0, 0, 0x30, 0x08].map some) := by decide
-- L21
theorem test_pop :
    observe (step (machine [0x07, 0x12] [(1, 0x3004)] 0x3000 data))
        (fun t => (t.reg 1, t.reg 2, t.pc)) =
      some (0x3008, 0xC5D6E7F8, 0x1002) := by decide

/-- The branches that are taken with this condition code, of the ten at offset +4, in the order of op4. -/
def takenBranches (c : CondCode) : List Bool :=
  [0xC0, 0xC4, 0xC8, 0xCC, 0xD0, 0xD4, 0xD8, 0xDC, 0xE0, 0xE4].map fun b =>
    observe (step ((machine [b, 0x02] []).setCc c)) (fun t => t.pc) == some 0x1004

-- `42_compare_branch.md` R181, after `cmp` of equal, of 1 and 2, of FFFFFFFF and 1, of 1 and FFFFFFFF (C1, C2, C4, C5)
theorem test_branches_equal :
    takenBranches ⟨true, false, false⟩ = [true, false, false, false, false, false, true, true, true, true] := by decide
theorem test_branches_less :
    takenBranches ⟨false, true, true⟩ = [false, true, true, false, true, false, false, true, false, true] := by decide
theorem test_branches_signed_less :
    takenBranches ⟨false, true, false⟩ = [false, true, true, false, false, true, false, true, true, false] := by decide
theorem test_branches_unsigned_less :
    takenBranches ⟨false, false, true⟩ = [false, true, false, true, true, false, true, false, false, true] := by decide
-- B3, B4, B6
theorem test_branch_back :
    observe (step ((machine [0xC3, 0xFF] []).setCc ⟨true, false, false⟩)) (fun t => t.pc) = some 0x0FFE := by decide
theorem test_branch_far :
    observe (step ((machine [0xC1, 0xFF] []).setCc ⟨true, false, false⟩)) (fun t => t.pc) = some 0x13FE := by decide
theorem test_branch_not_taken :
    observe (step ((machine [0xC0, 0x02] []).setCc ⟨false, true, true⟩)) (fun t => t.pc) = some 0x1002 := by decide

/-- A machine whose handler is at 0x2000. -/
def handled (program : List Byte) (regs : List (Reg × Word)) : State := (machine program regs).setSReg .handler 0x2000

-- M48, S9, S17
theorem test_div_by_zero :
    observe (step (handled [0x31, 0x23] [(2, 5)])) (fun t => (t.sregs.cause, t.sregs.returnAddress, t.pc, t.reg 2)) =
      some (0, 0x1002, 0x2000, 5) := by decide
theorem test_swi :
    observe (step (handled [0x30, 0x00, 0x00, 0x00, 0x00, 0x30] []))
        (fun t => (t.sregs.cause, t.sregs.swiNumber, t.sregs.returnAddress, t.pc)) =
      some (3, 0x30, 0x1006, 0x2000) := by decide
theorem test_bad :
    observe (step (handled [0x16, 0x00] [])) (fun t => (t.sregs.cause, t.sregs.returnAddress, t.pc)) =
      some (1, 0x1002, 0x2000) := by decide
-- S11 and S27: `EXC_RA_MODE` = `current`
theorem test_swi_current :
    observe (step { handled [0x30, 0x00, 0xFF, 0xFF, 0xFF, 0xFF] [] with cfg := { config with excRaMode := .current } })
        (fun t => (t.sregs.swiNumber, t.sregs.returnAddress)) =
      some (0xFFFFFFFF, 0x1000) := by decide
theorem test_bad_current :
    observe (step { handled [0x00, 0x00] [] with cfg := { config with excRaMode := .current } })
        (fun t => (t.sregs.cause, t.sregs.returnAddress)) =
      some (1, 0x1000) := by decide
-- S1, S7, S14
theorem test_gsr :
    observe (step ((machine [0xA2, 0x05] []).setSReg .returnAddress 0x1006)) (fun t => (t.reg 2, t.pc)) =
      some (0x1006, 0x1002) := by decide
-- the numbers of `10_state.md` R38
theorem test_gsr_numbers :
    [0, 1, 2, 3, 4, 5, 9].map (fun n => observe (step { machine [0xA2, n] [] with
        sregs := ⟨0x10, 0x11, 0x12, 0x13, 0x14, 0x15, 0x19, Vector.replicate 246 0⟩ }) (fun t => t.reg 2)) =
      [some 0x10, some 0x11, some 0x12, some 0x13, some 0x14, some 0x15, some 0x19] := by decide
theorem test_ssr_numbers :
    [0, 1, 2, 3, 4, 5, 9].map (fun n => observe (step (machine [0xB2, n] [(2, 7)])) (fun t =>
        [t.sregs.status, t.sregs.handler, t.sregs.cause, t.sregs.swiNumber, t.sregs.supervisorStack,
          t.sregs.returnAddress, t.sregs.deviceTree])) =
      [some [7, 0, 0, 0, 0, 0, 0], some [0, 7, 0, 0, 0, 0, 0], some [0, 0, 7, 0, 0, 0, 0], some [0, 0, 0, 7, 0, 0, 0],
        some [0, 0, 0, 0, 7, 0, 0], some [0, 0, 0, 0, 0, 7, 0], some [0, 0, 0, 0, 0, 0, 7]] := by decide
theorem test_ssr :
    observe (step (machine [0xB2, 0xFF] [(2, 0xABCD0123)])) (fun t => (t.sreg (.plain 245), t.pc)) =
      some (0xABCD0123, 0x1002) := by decide
theorem test_brk : observe (step (machine [0x35, 0x00] [])) (fun t => (t.pc, t.ended)) = some (0x1000, true) := by decide

/-- How a step stops. -/
def stop (r : Result) : Option Stop :=
  match r with
  | .next _ => none
  | .fault f => some (.fault f)
  | .refused f => some (.refused f)

-- M51, M52, M53, J2, J9, L49, L50, L55, S3, S13
theorem test_udiv_by_zero : stop (step (machine [0x32, 0x23] [(2, 5)])) = some (.fault .udivByZero) := by decide
theorem test_mod_by_zero : stop (step (machine [0x33, 0x23] [(2, 5)])) = some (.fault .modByZero) := by decide
theorem test_umod_by_zero : stop (step (machine [0x34, 0x23] [(2, 5)])) = some (.fault .umodByZero) := by decide
theorem test_odd_target : stop (step (machine [0x25, 0x20] [(2, 0x2001)])) = some (.fault .oddTarget) := by decide
theorem test_call_misaligned :
    stop (step (machine [0x03, 0x00, 0x00, 0x00, 0x20, 0x00] [(1, 0x8002)])) = some (.fault .misaligned) := by decide
theorem test_pop_same : stop (step (machine [0x07, 0x11] [(1, 0x3004)])) = some (.refused .popSameRegister) := by decide
theorem test_misaligned : stop (step (machine [0x0A, 0x23] [(3, 0x3002)])) = some (.fault .misaligned) := by decide
theorem test_unbacked : stop (step (machine [0x1C, 0x23] [(3, 0x4000)])) = some (.fault .unbacked) := by decide
theorem test_unwritten : stop (step (machine [0x1C, 0x23] [(3, 0x3000)])) = some (.fault .unwrittenMemory) := by decide
theorem test_store_into_text :
    stop (step (machine [0x1E, 0x23] [(2, 0x1000)])) = some (.refused .storeIntoText) := by decide
theorem test_reserved_sreg : stop (step (machine [0xA2, 0x07] [])) = some (.fault .reservedSpecialRegister) := by decide
theorem test_odd_handler :
    stop (step ((machine [0x30, 0x00, 0x00, 0x00, 0x00, 0x01] []).setSReg .handler 0x2001)) =
      some (.fault .oddHandler) := by decide

/-! ## The state that runs a given instruction next -/

theorem test_withFetchWord_ldi :
    observe (step (State.reset.withFetchWord 48 0x567812340120)) (fun t => (t.reg 2, t.pc)) =
      some (0x12345678, 0x1006) := by decide
theorem test_withFetchWord_fetch : (State.reset.withFetchWord 16 0x0523).fetch = .ok (.add 2 3) := by decide

/-! ## Each statement's hypotheses are met together, in each clause -/

/-- A meaning or a step that is seen to answer a next state does answer one. -/
theorem exists_next {r : Result} (h : observe r (fun _ => ()) = some ()) : ∃ t, r = .next t := by
  cases r with
  | next t => exact ⟨t, rfl⟩
  | fault _ => cases h
  | refused _ => cases h

/-- A machine that nothing but a program is loaded on. -/
def adding : State := machine [0x05, 0x23] []

theorem witness_DecodeEncodeRoundTrip : (Instr.bad 0xFFFF).WellFormed ∧ (Instr.ldiL 15 0xFFFFFFFF).WellFormed := by decide

theorem witness_DecodeIsTotal : 4 ≤ ([1, 2, 3, 4] : List Byte).length ∧
    ([1, 2, 3] : List Byte).length < tailLength ((wordOfBytes .big [0x01, 0x20]).setWidth 16) := by decide

theorem witness_BadWordsExactly : decodeUnits 0x16FF 0 = .bad 0x16FF ∧ decodeUnits 0xE800 0 = .bad 0xE800 ∧
    evenAddr (handled [] []).sregs.handler = true ∧
    evenAddr ((handled [] []).setSReg .handler 1).sregs.handler = false := by decide

theorem witness_FirstWordDecidesLength : (Instr.swi 1).length = 6 ∧ (Instr.stoB 1 2 3).length = 4 := by decide

theorem witness_IgnoredBitsDoNotMatter :
    ((0x0F00 : BitVec 16).extractLsb' 8 8).toNat ∈ [0x03, 0x04, 0x0F, 0x1A, 0x30, 0x35] ∧
      (0x0F00 : BitVec 16).extractLsb' 8 8 = (0x0FFF : BitVec 16).extractLsb' 8 8 ∧
      ((0x2520 : BitVec 16).extractLsb' 8 8).toNat ∈
        [0x01, 0x08, 0x09, 0x19, 0x1B, 0x1D, 0x1F, 0x20, 0x22, 0x24, 0x25] ∧
      (0x2520 : BitVec 16).extractLsb' 4 12 = (0x252F : BitVec 16).extractLsb' 4 12 := by decide

theorem witness_StepRunsDecodedInstruction :
    adding.ended = false ∧ adding.sampleEnv.irqTaken = false ∧ evenAddr adding.pc = true ∧
      Holds adding adding.pc [0x05, 0x23] ∧ (∀ k, k < 2 → (byteAddr adding.pc k).toNat ∉ adding.stored) ∧
      decode adding.cfg.endian [0x05, 0x23] = .ok (.add 2 3, []) ∧ adding.cfg.irqPresent = false := by
  refine ⟨by decide, by decide, by decide, ?_, by decide, by decide, by decide⟩
  unfold Holds
  decide

/-- A machine that has stored to 0x3003, the second byte of a long instruction's immediate. -/
def storedLater : State :=
  { machine [] [] with pc := 0x3000, stored := [0x3003], mem := [(0x3000, 0x01), (0x3001, 0x20), (0x3002, 0)] }

/-- A machine whose backed memory ends after the first byte of an instruction. -/
def cutOff : State :=
  { machine [] [] with pc := 0x3000, mem := [(0x3000, 0x05)], cfg := { config with memMap := [⟨0x3000, 1, .data⟩] } }

/-- The first byte, the second byte and a byte of the trailing unit. -/
theorem witness_FetchStops :
    (adding.ended = false ∧ adding.sampleEnv.irqTaken = false ∧ evenAddr (adding.setPc 0x1001).pc = false) ∧
      (evenAddr (adding.setPc 0x4000).pc = true ∧ (adding.setPc 0x4000).backed 0x4000 = false ∧
        decode .big [] = .error .truncated) ∧
      (Holds cutOff cutOff.pc [0x05] ∧ decode .big [0x05] = .error .truncated ∧
        cutOff.backed (byteAddr cutOff.pc 1) = false) ∧
      (Holds storedLater storedLater.pc [0x01, 0x20, 0] ∧ decode .big [0x01, 0x20, 0] = .error .truncated ∧
        (∀ k, k < 3 → (byteAddr storedLater.pc k).toNat ∉ storedLater.stored) ∧
        storedLater.backed (byteAddr storedLater.pc 3) = true ∧
        (byteAddr storedLater.pc 3).toNat ∈ storedLater.stored) ∧
      (evenAddr (adding.setPc 0x1002).pc = true ∧ adding.backed 0x1002 = true ∧ 0x1002 ∉ adding.stored ∧
        Memory.read adding.mem 0x1002 = none) := by
  unfold Holds
  decide

/-- A machine with interrupts, a request pending. -/
def interrupted : State := { handled [0x05, 0x23] [] with cfg := { config with irqPresent := true }, irqPending := true }

theorem witness_InterruptTakenBeforeFetch :
    adding.cfg.irqPresent = false ∧ interrupted.ended = false ∧ interrupted.cfg.irqPresent = true ∧
      evenAddr interrupted.sregs.handler = true ∧ (interrupted.irqPending || Config.irqArrives 0) = true ∧
      evenAddr (interrupted.setSReg .handler 0x2001).sregs.handler = false :=
  ⟨by decide, by decide, by decide, by decide, rfl, by decide⟩

theorem witness_DivResults :
    (machine [] [(2, 5)]).reg 3 = 0 ∧ (machine [] [(3, 3)]).reg 3 ≠ 0 ∧
      ((machine [] [(2, 0x80000000), (3, 0xFFFFFFFF)]).reg 2).toInt = -2 ^ 31 ∧
      ((machine [] [(2, 0x80000000), (3, 0xFFFFFFFF)]).reg 3).toInt = -1 ∧
      evenAddr (handled [] [(2, 5)]).sregs.handler = true ∧
      evenAddr ((machine [] []).setSReg .handler 0x2001).sregs.handler = false := by decide

theorem witness_UnsignedDivideResults :
    (machine [] [(2, 5)]).reg 3 = 0 ∧ (machine [] [(2, 5), (3, 1)]).reg 3 ≠ 0 := by decide

theorem witness_ModResults :
    (machine [] [(2, 5)]).reg 3 = 0 ∧ (machine [] [(2, 5), (3, 0xFFFFFFFF)]).reg 3 ≠ 0 := by decide

theorem witness_DivModIdentity :
    let s := machine [] [(2, 0xFFFFFFF9), (3, 3)]
    let m := machine [] [(2, 0x80000000), (3, 0xFFFFFFFF)]
    (∃ t u, exec (.div 2 3) s = .next t ∧ exec (.mod 2 3) s = .next u ∧
        ¬((s.reg 2).toInt = -2 ^ 31 ∧ (s.reg 3).toInt = -1)) ∧
      ∃ t u, exec (.div 2 3) m = .next t ∧ exec (.mod 2 3) m = .next u ∧ (m.reg 2).toInt = -2 ^ 31 ∧
        (m.reg 3).toInt = -1 := by
  refine ⟨?_, ?_⟩
  · obtain ⟨t, ht⟩ := exists_next (r := exec (.div 2 3) (machine [] [(2, 0xFFFFFFF9), (3, 3)])) (by decide)
    obtain ⟨u, hu⟩ := exists_next (r := exec (.mod 2 3) (machine [] [(2, 0xFFFFFFF9), (3, 3)])) (by decide)
    exact ⟨t, u, ht, hu, by decide⟩
  · obtain ⟨t, ht⟩ := exists_next (r := exec (.div 2 3) (machine [] [(2, 0x80000000), (3, 0xFFFFFFFF)])) (by decide)
    obtain ⟨u, hu⟩ := exists_next (r := exec (.mod 2 3) (machine [] [(2, 0x80000000), (3, 0xFFFFFFFF)])) (by decide)
    exact ⟨t, u, ht, hu, by decide, by decide⟩

theorem witness_BranchResults : branchRows.length = 10 ∧ adding.cfg.wf ∧ evenAddr adding.pc = true := by decide

theorem witness_CmpThenBranch : relationRows.length = 10 ∧ ∃ t, exec (.cmp 2 3) adding = .next t :=
  ⟨by decide, exists_next (by decide)⟩

theorem witness_CmpResult : (∃ t, exec .nop adding = .next t) ∧ ∀ a b, Instr.nop ≠ .cmp a b :=
  ⟨exists_next (by decide), by simp⟩

theorem witness_OnlyCmpWritesCc : ∃ t, step (machine [0x0E, 0x23] []) = .next t ∧ t.cc ≠ (machine [0x0E, 0x23] []).cc := by
  have h : observe (step (machine [0x0E, 0x23] [])) (fun t => decide (t.cc ≠ (machine [0x0E, 0x23] []).cc)) = some true := by
    decide
  cases hs : step (machine [0x0E, 0x23] []) with
  | next t =>
    rw [hs] at h
    exact ⟨t, rfl, by simpa [observe] using h⟩
  | fault _ => rw [hs] at h; cases h
  | refused _ => rw [hs] at h; cases h

theorem witness_JumpResults :
    evenAddr ((machine [] [(2, 0xFFFFFFFE)]).reg 2) = true ∧ evenAddr ((machine [] [(2, 0xFFFFFFFF)]).reg 2) = false := by
  decide

/-- A machine ready to call: `$sp` at the end of the stack's bytes. -/
def calling : State := machine [] [(0, 0x8040), (1, 0x8000), (2, 0x2000), (3, 0x2001)]

/-- A machine whose two written slots of a call are writable and whose word at `$sp - 4` is not backed. -/
def callingAtEdge : State := machine [] [(1, 0x300C), (2, 0x2000)]

theorem witness_CallResults :
    aligned (calling.reg Reg.sp) .long = true ∧ Writable calling (calling.reg Reg.sp - 12) 12 ∧
      evenAddr (calling.reg 2) = true ∧ evenAddr (calling.reg 3) = false ∧
      aligned ((machine [] [(1, 0x8002)]).reg Reg.sp) .long = false ∧
      (aligned ((machine [] [(1, 0x4004)]).reg Reg.sp) .long = true ∧
        ¬Writable (machine [] [(1, 0x4004)]) ((machine [] [(1, 0x4004)]).reg Reg.sp - 12) 12) ∧
      (aligned ((machine [] [(1, 0x100C)]).reg Reg.sp) .long = true ∧
        ¬Writable (machine [] [(1, 0x100C)]) ((machine [] [(1, 0x100C)]).reg Reg.sp - 12) 12) ∧
      (aligned (callingAtEdge.reg Reg.sp) .long = true ∧ Writable callingAtEdge (callingAtEdge.reg Reg.sp - 12) 8 ∧
        ¬Writable callingAtEdge (callingAtEdge.reg Reg.sp - 12) 12 ∧ evenAddr (callingAtEdge.reg 2) = true ∧
        stop (exec (.jsr 2) callingAtEdge) = some (.fault .callFrameNotWritable)) := by
  unfold Writable
  decide

/-- A machine ready to return to `ra`, with the frame of a call at 0x7FF4. -/
def returning (ra : Byte) : State := machine [] [(0, 0x7FF4)] 0x7FF4 [0, 0, 0x80, 0x40, 0, 0, 0x10, ra]

theorem witness_RetResult :
    aligned ((returning 6).reg Reg.fp) .long = true ∧
      Holds (returning 6) ((returning 6).reg Reg.fp) ([0, 0, 0x80, 0x40] ++ [0, 0, 0x10, 6]) ∧
      Holds (returning 7) ((returning 7).reg Reg.fp) ([0, 0, 0x80, 0x40] ++ [0, 0, 0x10, 7]) ∧
      evenAddr (wordOfBytes (returning 6).cfg.endian [0, 0, 0x10, 6]) = true ∧
      evenAddr (wordOfBytes (returning 7).cfg.endian [0, 0, 0x10, 7]) = false ∧
      aligned ((machine [] [(0, 0x7FF6)]).reg Reg.fp) .long = false ∧
      (aligned ((machine [] [(0, 0x7FF4)]).reg Reg.fp) .long = true ∧
        ¬Readable (machine [] [(0, 0x7FF4)]) ((machine [] [(0, 0x7FF4)]).reg Reg.fp) 8) := by
  unfold Holds Readable
  decide

theorem witness_CallReturnRoundTrip :
    ∃ t u : State, exec (.jsr 2) calling = .next t ∧ evenAddr calling.pc = true ∧ u.cfg = t.cfg ∧
      u.reg Reg.fp = t.reg Reg.fp ∧
      ∀ a, InAccess (calling.reg Reg.sp - 12) 8 a → Memory.read u.mem a = Memory.read t.mem a := by
  obtain ⟨t, ht⟩ := exists_next (r := exec (.jsr 2) calling) (by decide)
  exact ⟨t, t, ht, by decide, rfl, rfl, fun _ _ => rfl⟩

/-- A machine with eight bytes of data, whose $r0 and $r1 hold addresses. -/
def moving (address : Word) : State := machine [] [(2, address), (3, address)] 0x3000 data

theorem witness_loads :
    (aligned 0x3004 .long = true ∧ Holds (moving 0x3004) 0x3004 [0xC5, 0xD6, 0xE7, 0xF8]) ∧
      (aligned 0x3006 .short = true ∧ Holds (moving 0x3006) 0x3006 [0xE7, 0xF8]) ∧
      (aligned 0x3007 .byte = true ∧ Holds (moving 0x3007) 0x3007 [0xF8]) ∧
      aligned 0x3002 .long = false ∧ aligned 0x3001 .short = false ∧
      (moving 0x4000).memRead 0x4000 .long = .error (.fault .unbacked) := by
  refine ⟨⟨by decide, ?_⟩, ⟨by decide, ?_⟩, ⟨by decide, ?_⟩, by decide, by decide, by decide⟩ <;> unfold Holds <;> decide

/-- The addresses of the loads: register indirect, absolute, and base plus offset. -/
theorem witness_IndirectLoadResults : (moving 0x3004).reg 3 = 0x3004 ∧ (moving 0x3002).reg 3 = 0x3002 := by decide

theorem witness_AbsoluteLoadResults : Holds (moving 0) 0x3000 [0x81, 0x92, 0xA3, 0xB4] := by
  unfold Holds
  decide

theorem witness_OffsetLoadResults : (moving 0x3008).reg 3 + BitVec.ofInt 32 (0xFFFC : BitVec 16).toInt = 0x3004 := by decide

theorem witness_stores :
    (aligned 0x3004 .long = true ∧ Writable (moving 0x3004) 0x3004 4) ∧
      (aligned 0x3006 .short = true ∧ Writable (moving 0x3006) 0x3006 2) ∧
      (aligned 0x3007 .byte = true ∧ Writable (moving 0x3007) 0x3007 1) ∧
      aligned 0x3006 .long = false ∧ aligned 0x3007 .short = false ∧
      stop (execStB 2 3 (moving 0x1000)) = some (.refused .storeIntoText) := by
  refine ⟨⟨by decide, ?_⟩, ⟨by decide, ?_⟩, ⟨by decide, ?_⟩, by decide, by decide, by decide⟩ <;> unfold Writable <;> decide

theorem witness_IndirectStoreResults : (moving 0x3004).reg 2 = 0x3004 ∧ (moving 0x3006).reg 2 = 0x3006 := by decide

theorem witness_AbsoluteStoreResults : Writable (moving 0) 0x3000 4 := by
  unfold Writable
  decide

theorem witness_OffsetStoreResults : (moving 0x3008).reg 2 + BitVec.ofInt 32 (0xFFFF : BitVec 16).toInt = 0x3007 := by decide

theorem witness_PushResult :
    aligned ((moving 0x3004).reg 2 - 4) .long = true ∧ Writable (moving 0x3004) ((moving 0x3004).reg 2 - 4) 4 ∧
      aligned ((moving 0x3006).reg 2 - 4) .long = false := by
  refine ⟨by decide, ?_, by decide⟩
  unfold Writable
  decide

theorem witness_PopResult :
    (2 : Reg) ≠ 3 ∧ aligned ((moving 0x3004).reg 2) .long = true ∧
      Holds (moving 0x3004) ((moving 0x3004).reg 2) [0xC5, 0xD6, 0xE7, 0xF8] ∧
      aligned ((moving 0x3006).reg 2) .long = false := by
  refine ⟨by decide, by decide, ?_, by decide⟩
  unfold Holds
  decide

theorem witness_PushPopRoundTrip : (∃ t, exec (.push 2 3) (moving 0x3008) = .next t) ∧ (4 : Reg) ≠ 2 :=
  ⟨exists_next (by decide), by decide⟩

/-- The same machine with the other byte order. -/
def littleMoving : State := { moving 0x3000 with cfg := { config with endian := .little } }

theorem witness_MemReadByteOrder :
    Holds (moving 0x3000) 0x3000 [0x81] ∧ Holds (moving 0x3000) 0x3000 [0x81, 0x92] ∧
      Holds (moving 0x3000) 0x3000 [0x81, 0x92, 0xA3, 0xB4] ∧ Holds littleMoving 0x3000 [0x81, 0x92, 0xA3, 0xB4] ∧
      aligned 0x3000 .short = true ∧ aligned 0x3000 .long = true ∧ (moving 0x3000).cfg.endian = .big ∧
      littleMoving.cfg.endian = .little ∧ ∃ t, exec .nop littleMoving = .next t := by
  refine ⟨?_, ?_, ?_, ?_, by decide, by decide, by decide, by decide, exists_next (by decide)⟩ <;> unfold Holds <;> decide

/-- An operation that is seen to succeed does. -/
theorem exists_ok {x : Except Stop State} (h : x.toOption.isSome = true) : ∃ t, x = .ok t := by
  cases x with
  | ok t => exact ⟨t, rfl⟩
  | error _ => cases h

theorem witness_MemWriteReadsBack :
    (∃ t, (moving 0).memWrite 0x3007 .byte 0x11223344 = .ok t) ∧ (∃ t, (moving 0).memWrite 0x3006 .short 1 = .ok t) ∧
      ∃ t, littleMoving.memWrite 0x3004 .long 1 = .ok t :=
  ⟨exists_ok (by decide), exists_ok (by decide), exists_ok (by decide)⟩

theorem witness_MixedWidthAccess :
    ((∃ t, (moving 0).memWrite 0x3004 .long 0x11223344 = .ok t) ∧ (moving 0).cfg.endian = .big) ∧
      (∃ t, littleMoving.memWrite 0x3004 .long 0x11223344 = .ok t) ∧ littleMoving.cfg.endian = .little :=
  ⟨⟨exists_ok (by decide), by decide⟩, exists_ok (by decide), by decide⟩

theorem witness_AccessStops :
    (aligned 0x3008 .long = true ∧ (moving 0).backed 0x3008 = false) ∧
      (aligned 0x3000 .short = true ∧ adding.backed 0x3000 = true ∧ Memory.read adding.mem 0x3000 = none) ∧
      (aligned 0x1000 .byte = true ∧ adding.backed 0x1000 = true ∧ adding.isText 0x1000 = true) ∧
      (aligned cutOff.pc .short = true ∧ ¬Readable cutOff cutOff.pc 2 ∧ ¬Writable cutOff cutOff.pc 2) := by
  unfold Readable Writable
  decide

/-- A machine with 16 special registers. -/
def fewSregs : State := { adding with cfg := { config with numSregs := 16 } }

theorem witness_GsrResult :
    (6 : BitVec 8).toNat ∈ [6, 7, 8] ∧ (8 : BitVec 8).toNat ∈ [6, 7, 8] ∧
      ((16 : BitVec 8).toNat ∉ [6, 7, 8] ∧ fewSregs.cfg.numSregs ≤ (16 : BitVec 8).toNat) ∧
      ((15 : BitVec 8).toNat ∉ [6, 7, 8] ∧ (15 : BitVec 8).toNat < fewSregs.cfg.numSregs) ∧
      ((255 : BitVec 8).toNat ∉ [6, 7, 8] ∧ (255 : BitVec 8).toNat < adding.cfg.numSregs) := by decide

theorem witness_SsrResult :
    (7 : BitVec 8).toNat ∈ [6, 7, 8] ∧
      ((255 : BitVec 8).toNat ∉ [6, 7, 8] ∧ fewSregs.cfg.numSregs ≤ (255 : BitVec 8).toNat) ∧
      ((5 : BitVec 8).toNat ∉ [6, 7, 8] ∧ (5 : BitVec 8).toNat < fewSregs.cfg.numSregs) ∧
      ((9 : BitVec 8).toNat ∉ [6, 7, 8] ∧ (9 : BitVec 8).toNat < adding.cfg.numSregs) := by decide

theorem witness_SsrGsrRoundTrip :
    ∃ t u v, exec (.ssr 2 9) adding = .next t ∧ exec (.gsr 3 9) t = .next u ∧ exec (.gsr 3 10) t = .next v :=
  ⟨_, _, _, rfl, rfl, rfl⟩

theorem witness_SwiResult :
    evenAddr ((handled [] []).setSReg .swiNumber 1).sregs.handler = true ∧
      evenAddr (((handled [] []).setSReg .handler 1).setSReg .swiNumber 1).sregs.handler = false ∧
      ∃ t, exec (.swi 1) (handled [] []) = .next t :=
  ⟨by decide, by decide, exists_next (by decide)⟩

theorem witness_BadResult :
    isBadWord 0x0000 = true ∧ isBadWord 0xFFFF = true ∧ evenAddr (handled [] []).sregs.handler = true ∧
      evenAddr ((handled [] []).setSReg .handler 1).sregs.handler = false := by decide

/-- The same machine under `EXC_RA_MODE` = `current`. -/
def handledCurrent : State := { handled [] [] with cfg := { config with excRaMode := .current } }

theorem witness_ReturnAddresses :
    (∃ t, exec (.swi 1) (handled [] []) = .next t) ∧ (∃ t, exec (.swi 1) handledCurrent = .next t) ∧
      ((handled [] []).reg 3 = 0 ∧ ∃ t, exec (.div 2 3) (handled [] []) = .next t) ∧
      (∃ t, exec (.bad 0) handledCurrent = .next t) ∧ ∃ t, (handled [] []).takeIrq = .next t :=
  ⟨exists_next (by decide), exists_next (by decide), ⟨by decide, exists_next (by decide)⟩, exists_next (by decide),
    exists_next (by decide)⟩

theorem witness_HandlerReturn :
    5 < (adding.setSReg .returnAddress 0x1006).cfg.numSregs ∧
      evenAddr (adding.setSReg .returnAddress 0x1006).sregs.returnAddress = true := by decide

theorem witness_SpecialRegisterWriters :
    (∃ t, exec (.swi 1) (handled [] []) = .next t) ∧ (∀ a n, Instr.swi 1 ≠ .ssr a n) ∧
      (∃ t, exec (.div 2 3) (machine [] [(3, 1)]) = .next t) ∧ (∀ a n, Instr.div 2 3 ≠ .ssr a n) ∧
      (∀ x, Instr.div 2 3 ≠ .swi x) ∧ (∀ w, Instr.div 2 3 ≠ .bad w) ∧
      ∀ a b, Instr.div 2 3 = .div a b → (machine [] [(3, 1)]).reg b ≠ 0 := by
  refine ⟨exists_next (by decide), by simp, exists_next (by decide), by simp, by simp, by simp, fun a b h => ?_⟩
  cases h
  decide

theorem witness_EveryInstructionFrame :
    (∃ t, exec (.pop 2 4) (moving 0x3004) = .next t) ∧ (5 : Reg) ∉ destinations (.pop 2 4) ∧
      storeAccess (.pop 2 4) (moving 0x3004) = none ∧ (∃ t, exec (.push 2 4) (moving 0x3004) = .next t) ∧
      storeAccess (.push 2 4) (moving 0x3004) = some (0x3000, 4) ∧ ¬InAccess 0x3000 4 0x3004 := by
  refine ⟨exists_next (by decide), by decide, by decide, exists_next (by decide), by decide, ?_⟩
  rintro ⟨k, hk, h⟩
  interval_cases k <;> simp [byteAddr] at h

theorem witness_ConfigNeverChanges : (∃ t, exec .brk adding = .next t) ∧ ∃ t, step adding = .next t :=
  ⟨exists_next (by decide), exists_next (by decide)⟩

theorem witness_OnlyBrkEndsRun : (∃ t, exec (.add 2 3) adding = .next t) ∧ Instr.add 2 3 ≠ .brk :=
  ⟨exists_next (by decide), by decide⟩

/-- A machine that stores next. -/
def storing : State := machine [0x1E, 0x23] [(2, 0x3000), (3, 0x55)] 0x3000 data

theorem witness_StoredTracksWrites :
    ∃ t, step storing = .next t ∧ Memory.read t.mem 0x3000 ≠ Memory.read storing.mem 0x3000 := by
  have h : observe (step storing) (fun t => decide (Memory.read t.mem 0x3000 ≠ Memory.read storing.mem 0x3000)) =
      some true := by decide
  cases hs : step storing with
  | next t =>
    rw [hs] at h
    exact ⟨t, rfl, by simpa [observe] using h⟩
  | fault _ => rw [hs] at h; cases h
  | refused _ => rw [hs] at h; cases h

theorem storing_inv : storing.Inv := by
  refine ⟨by decide, by decide, by decide, by decide, fun a ha => ?_, by decide⟩
  have h0 : storing.stored = [] := by decide
  rw [h0] at ha
  cases ha

theorem witness_StepKeepsInvariant : storing.Inv ∧ ∃ t, step storing = .next t :=
  ⟨storing_inv, exists_next (by decide)⟩

theorem witness_TextNeverChanges : (∃ t, step storing = .next t) ∧ storing.isText 0x1001 = true :=
  ⟨exists_next (by decide), by decide⟩

theorem witness_TextFetchStableOverRuns :
    storing.Inv ∧ TextFrom storing 0x1000 6 ∧ ∃ t, core.run 1 storing = .next t := by
  refine ⟨storing_inv, ?_, exists_next (r := core.run 1 storing) (by decide)⟩
  unfold TextFrom
  decide

end Sys2Proof.Tests
end

section
/-! PROOFS. Memory (`20_memory.md` R52 to R54): what the bytes of a word are worth, what a read answers after a write of the
same or of a wider access, and that no instruction changes the configuration. -/

namespace Sys2Proof

open Sys2Proof.Machine

/-! ## Bytes and the numbers they stand for -/

theorem toNat_joinBytes_lt (bs : List Byte) : (joinBytes bs).toNat < 2 ^ (8 * bs.length) := by
  induction bs with
  | nil => simp [joinBytes]
  | cons b bs ih =>
    have hb : b.toNat < 2 ^ (8 * (b :: bs).length) :=
      Nat.lt_of_lt_of_le b.isLt (Nat.pow_le_pow_right (by omega) (by simp only [List.length_cons]; omega))
    have hs : (joinBytes bs <<< 8).toNat < 2 ^ (8 * (b :: bs).length) := by
      calc (joinBytes bs <<< 8).toNat
        _ ≤ (joinBytes bs).toNat <<< 8 := by rw [BitVec.toNat_shiftLeft]; exact Nat.mod_le _ _
        _ = (joinBytes bs).toNat * 2 ^ 8 := Nat.shiftLeft_eq _ _
        _ < 2 ^ (8 * bs.length) * 2 ^ 8 := Nat.mul_lt_mul_of_pos_right ih (by omega)
        _ = 2 ^ (8 * (b :: bs).length) := by rw [← Nat.pow_add, List.length_cons, Nat.mul_add]
    rw [joinBytes, BitVec.toNat_or, BitVec.toNat_setWidth_of_le (by omega)]
    exact Nat.or_lt_two_pow hb hs

/-- Up to four bytes join without loss: the first is the least significant. -/
theorem toNat_joinBytes_cons (b : Byte) {bs : List Byte} (hl : bs.length ≤ 3) :
    (joinBytes (b :: bs)).toNat = (joinBytes bs).toNat * 2 ^ 8 + b.toNat := by
  have hj : (joinBytes bs).toNat < 2 ^ 24 :=
    Nat.lt_of_lt_of_le (toNat_joinBytes_lt bs) (Nat.pow_le_pow_right (by omega) (by omega))
  have hs : (joinBytes bs <<< 8).toNat = (joinBytes bs).toNat <<< 8 := by
    rw [BitVec.toNat_shiftLeft, Nat.shiftLeft_eq]
    omega
  rw [joinBytes, BitVec.toNat_or, BitVec.toNat_setWidth_of_le (by omega), hs, Nat.or_comm,
    ← Nat.shiftLeft_add_eq_or_of_lt b.isLt, Nat.shiftLeft_eq]

theorem toNat_joinBytes_one (b : Byte) : (joinBytes [b]).toNat = b.toNat := by
  rw [toNat_joinBytes_cons b (by simp)]
  simp [joinBytes]

theorem toNat_joinBytes_two (b0 b1 : Byte) : (joinBytes [b0, b1]).toNat = b1.toNat * 2 ^ 8 + b0.toNat := by
  rw [toNat_joinBytes_cons b0 (by simp), toNat_joinBytes_one]

theorem toNat_joinBytes_four (b0 b1 b2 b3 : Byte) :
    (joinBytes [b0, b1, b2, b3]).toNat =
      b3.toNat * 2 ^ 24 + b2.toNat * 2 ^ 16 + b1.toNat * 2 ^ 8 + b0.toNat := by
  rw [toNat_joinBytes_cons b0 (by simp), toNat_joinBytes_cons b1 (by simp), toNat_joinBytes_two]
  omega

theorem splitBytes_getElem (n : Nat) (v : Word) (k : Nat) (hk : k < (splitBytes n v).length) :
    (splitBytes n v)[k] = (v >>> (8 * k)).setWidth 8 := by
  induction n generalizing v k with
  | zero => simp at hk
  | succ n ih =>
    cases k with
    | zero => simp [splitBytes]
    | succ k =>
      have hk' : k < (splitBytes n (v >>> 8)).length := by simpa using hk
      simp only [splitBytes, List.getElem_cons_succ]
      rw [ih _ _ hk', ← BitVec.shiftRight_add, Nat.mul_succ, Nat.add_comm]

/-- The byte at the lowest address (`20_memory.md` R53): the most significant one for `big`, the least for `little`. -/
theorem bytesOfWord_first (e : Endian) (n : Nat) (v : Word) (h : 0 < (bytesOfWord e n v).length) :
    (bytesOfWord e n v)[0] = BitVec.ofNat 8 (if e = .big then v.toNat / 2 ^ (8 * (n - 1)) else v.toNat) := by
  apply BitVec.eq_of_toNat_eq
  cases e with
  | big => simp [bytesOfWord, byteOrder, splitBytes_getElem, Nat.shiftRight_eq_div_pow]
  | little => simp [bytesOfWord, byteOrder, splitBytes_getElem]

end Sys2Proof

namespace Sys2Proof.Machine

/-! ## Reading what was written -/

/-- The configuration, and with it the byte order and the backing of addresses, is not memory. -/
theorem State.memWrite_cfg {s t : State} {a v : Word} {w : Width} (h : s.memWrite a w v = .ok t) : t.cfg = s.cfg := by
  obtain ⟨-, -, -, hframe⟩ := State.memWrite_spec h
  rw [hframe]

/-- After a write the bytes of the value stand at its address. -/
theorem State.memWrite_holds {s t : State} {a v : Word} {w : Width} (h : s.memWrite a w v = .ok t) :
    Holds t a (bytesOfWord s.cfg.endian w.bytes v) := by
  obtain ⟨-, hwritable, hstores, -⟩ := State.memWrite_spec h
  intro k hk
  obtain ⟨hbacked, -⟩ := hwritable k (by simpa using hk)
  refine ⟨?_, hstores.bytes k hk⟩
  simpa only [State.backed, State.memWrite_cfg h] using hbacked

/-- Bytes that stand in memory are made of bytes that stand at their own addresses. -/
theorem Holds.slice {s : State} {a : Word} {bs : List Byte} (h : Holds s a bs) (j n : Nat) :
    Holds s (byteAddr a j) ((bs.drop j).take n) := by
  intro k hk
  have hjk : j + k < bs.length := by
    simp only [List.length_take, List.length_drop] at hk
    omega
  rw [byteAddr_byteAddr, List.getElem_take, List.getElem_drop]
  exact h (j + k) hjk

theorem aligned_byte (a : Word) : aligned a .byte = true := by
  simp [aligned, Width.bytes, Nat.mod_one]

/-- An access inside an aligned one, at a multiple of its own size, is aligned. -/
theorem aligned_byteAddr {a : Word} {w w' : Width} {j : Nat} (ha : aligned a w = true) (hw : w'.bytes ∣ w.bytes)
    (hj : w'.bytes ∣ j) : aligned (byteAddr a j) w' = true := by
  have hmod : w'.bytes ∣ 2 ^ 32 := by cases w' <;> decide
  have haddr : w'.bytes ∣ a.toNat := hw.trans (Nat.dvd_of_mod_eq_zero (by simpa [aligned] using ha))
  have hsum : w'.bytes ∣ (byteAddr a j).toNat := by
    rw [byteAddr, BitVec.toNat_add, BitVec.toNat_ofNat, Nat.add_mod_mod]
    exact (Nat.dvd_mod_iff hmod).2 (haddr.add hj)
  simpa [aligned] using Nat.mod_eq_zero_of_dvd hsum

/-- A read inside a write (`20_memory.md` R54): it answers the value of its own bytes among those written. -/
theorem State.memRead_within_memWrite {s t : State} {a v : Word} {w w' : Width} (j : Nat)
    (h : s.memWrite a w v = .ok t) (hw : w'.bytes ∣ w.bytes) (hj : w'.bytes ∣ j) (hin : j + w'.bytes ≤ w.bytes) :
    t.memRead (byteAddr a j) w' =
      .ok (wordOfBytes s.cfg.endian (((bytesOfWord s.cfg.endian w.bytes v).drop j).take w'.bytes)) := by
  obtain ⟨haligned, -, -, -⟩ := State.memWrite_spec h
  have hlen : (((bytesOfWord s.cfg.endian w.bytes v).drop j).take w'.bytes).length = w'.bytes := by
    simp only [List.length_take, List.length_drop, bytesOfWord_length]
    omega
  rw [State.memRead_ok t (aligned_byteAddr haligned hw hj) hlen ((State.memWrite_holds h).slice j w'.bytes),
    State.memWrite_cfg h]

/-- A read of the width written answers the low bits of the value (`20_memory.md` R53). -/
theorem State.memRead_of_memWrite {s t : State} {a v : Word} {w : Width} (h : s.memWrite a w v = .ok t) :
    t.memRead a w = .ok (BitVec.ofNat 32 (v.toNat % 2 ^ (8 * w.bytes))) := by
  obtain ⟨haligned, -, -, -⟩ := State.memWrite_spec h
  have hlow : (v.setWidth (8 * w.bytes)).setWidth 32 = BitVec.ofNat 32 (v.toNat % 2 ^ (8 * w.bytes)) :=
    BitVec.eq_of_toNat_eq (by simp)
  rw [State.memRead_ok t haligned (bytesOfWord_length _ _ v) (State.memWrite_holds h), State.memWrite_cfg h,
    wordOfBytes_bytesOfWord, hlow]

/-- The byte that a write leaves at its address (`20_memory.md` R53). -/
theorem State.read_first_of_memWrite {s t : State} {a v : Word} {w : Width} (h : s.memWrite a w v = .ok t) :
    Memory.read t.mem a.toNat =
      some (BitVec.ofNat 8 (if s.cfg.endian = .big then v.toNat / 2 ^ (8 * (w.bytes - 1)) else v.toNat)) := by
  have hpos : 0 < (bytesOfWord s.cfg.endian w.bytes v).length := by
    rw [bytesOfWord_length]
    cases w <;> decide
  obtain ⟨-, hread⟩ := State.memWrite_holds h 0 hpos
  rw [← bytesOfWord_first _ _ _ hpos, ← hread, byteAddr_zero]

/-- A read in the configured order: `big` takes the bytes as most significant first, `little` as least. -/
theorem State.memRead_toNat (s : State) {a : Word} {w : Width} {bs : List Byte} (ha : aligned a w = true)
    (hl : bs.length = w.bytes) (h : Holds s a bs) :
    ∃ v, s.memRead a w = .ok v ∧
      v.toNat = if s.cfg.endian = .big then (joinBytes bs.reverse).toNat else (joinBytes bs).toNat := by
  refine ⟨_, State.memRead_ok s ha hl h, ?_⟩
  cases he : s.cfg.endian <;> simp [wordOfBytes, byteOrder]

/-! ## The configuration -/

theorem State.writeReg_cfg {s t : State} {r : Reg} {v : Word} {len : Nat} (h : s.writeReg r v len = .next t) :
    t.cfg = s.cfg := by
  cases h
  rfl

theorem State.branchIf_cfg {s t : State} {c : BranchCond} {v10 : BitVec 10} (h : s.branchIf c v10 = .next t) :
    t.cfg = s.cfg := by
  obtain ⟨u, hu, hframe, -⟩ := s.branchIf_spec c v10
  cases hu.symm.trans h
  exact hframe.cfg

theorem State.jumpTo_cfg {s t : State} {x : Word} (h : s.jumpTo x = .next t) : t.cfg = s.cfg := by
  obtain ⟨-, rfl⟩ := State.jumpTo_spec h
  rfl

theorem State.loadTo_cfg {s t : State} {r : Reg} {ea : Word} {w : Width} {len : Nat}
    (h : s.loadTo r ea w len = .next t) : t.cfg = s.cfg := by
  obtain ⟨v, -, rfl⟩ := State.loadTo_spec h
  rfl

theorem State.storeTo_cfg {s t : State} {ea v : Word} {w : Width} {len : Nat} (h : s.storeTo ea w v len = .next t) :
    t.cfg = s.cfg := by
  obtain ⟨u, hu, rfl⟩ := State.storeTo_spec h
  exact State.memWrite_cfg (t := u) hu

theorem State.call_cfg {s t : State} {target : Word} {len : Nat} (h : s.call target len = .next t) :
    t.cfg = s.cfg := by
  obtain ⟨u, v, hu, hv, -, -, rfl⟩ := State.call_spec h
  exact (State.memWrite_cfg hv).trans (State.memWrite_cfg hu)

theorem execRet_cfg {s t : State} (h : execRet s = .next t) : t.cfg = s.cfg := by
  obtain ⟨fp, ra, -, -, -, rfl⟩ := execRet_spec h
  rfl

theorem State.takeException_cfg {s t : State} {c : Cause} {ra : Word} (h : s.takeException c ra = .next t) :
    t.cfg = s.cfg :=
  (State.takeException_entered h).cfg

/-- Everything `push` can do. -/
theorem execPush_spec {a b : Reg} {s t : State} (h : execPush a b s = .next t) :
    ∃ u, s.memWrite (s.eaPush a) .long (s.reg b) = .ok u ∧ t = (u.setReg a (s.eaPush a)).advance 2 := by
  simp only [execPush] at h
  split at h
  · simp at h
  · cases h
    exact ⟨_, ‹_›, rfl⟩

/-- Everything `pop` can do. -/
theorem execPop_spec {a b : Reg} {s t : State} (h : execPop a b s = .next t) :
    a ≠ b ∧ ∃ v, s.memRead (s.eaIndirect a) .long = .ok v ∧
      t = ((s.setReg b v).setReg a (s.reg a + 4)).advance 2 := by
  simp only [execPop] at h
  split at h
  · cases h
  · split at h
    · simp at h
    · cases h
      exact ⟨‹_›, _, ‹_›, rfl⟩

/-- Everything `gsr` can do. -/
theorem execGsr_spec {a : Reg} {n : BitVec 8} {s t : State} (h : execGsr a n s = .next t) :
    ∃ r, s.namedSReg n = .ok r ∧ t = (s.setReg a (s.sreg r)).advance 2 := by
  simp only [execGsr] at h
  split at h
  · simp at h
  · cases h
    exact ⟨_, ‹_›, rfl⟩

/-- Everything `ssr` can do. -/
theorem execSsr_spec {a : Reg} {n : BitVec 8} {s t : State} (h : execSsr a n s = .next t) :
    ∃ r, s.namedSReg n = .ok r ∧ t = (s.setSReg r (s.reg a)).advance 2 := by
  simp only [execSsr] at h
  split at h
  · simp at h
  · cases h
    exact ⟨_, ‹_›, rfl⟩

/-- Everything `div` can do: raise on a zero divisor, else write the quotient. -/
theorem execDiv_spec {a b : Reg} {s t : State} (h : execDiv a b s = .next t) :
    (s.reg b = 0 ∧ s.raise .divideByZero 2 = .next t) ∨
      (s.reg b ≠ 0 ∧ s.writeReg a (divSigned (s.reg a) (s.reg b)) 2 = .next t) := by
  simp only [execDiv] at h
  split at h
  · exact .inl ⟨‹_›, h⟩
  · exact .inr ⟨‹_›, h⟩

/-- Everything `udiv` can do. -/
theorem execUdiv_spec {a b : Reg} {s t : State} (h : execUdiv a b s = .next t) :
    s.reg b ≠ 0 ∧ s.writeReg a (s.reg a / s.reg b) 2 = .next t := by
  simp only [execUdiv] at h
  split at h
  · cases h
  · exact ⟨‹_›, h⟩

/-- Everything `mod` can do. -/
theorem execMod_spec {a b : Reg} {s t : State} (h : execMod a b s = .next t) :
    s.reg b ≠ 0 ∧ s.writeReg a (modSigned (s.reg a) (s.reg b)) 2 = .next t := by
  simp only [execMod] at h
  split at h
  · cases h
  · exact ⟨‹_›, h⟩

/-- Everything `umod` can do. -/
theorem execUmod_spec {a b : Reg} {s t : State} (h : execUmod a b s = .next t) :
    s.reg b ≠ 0 ∧ s.writeReg a (s.reg a % s.reg b) 2 = .next t := by
  simp only [execUmod] at h
  split at h
  · cases h
  · exact ⟨‹_›, h⟩

/-- No instruction changes the configuration: each ends in one of the shared operations, none of which does. -/
theorem exec_cfg {i : Instr} {s t : State} (h : exec i s = .next t) : t.cfg = s.cfg := by
  cases i with
  | ldiL | ldiS | ldiB | mov | add | sub | and | or | xor | not | neg | ashl | ashr | lshr | inc | dec | sexB | sexS
  | zexB | zexS | mul | mulX | umulX => exact State.writeReg_cfg h
  | beq | bne | blt | bgt | bltu | bgtu | bge | ble | bgeu | bleu => exact State.branchIf_cfg h
  | jmp | jmpa => exact State.jumpTo_cfg h
  | jsr | jsra => exact State.call_cfg h
  | ret => exact execRet_cfg h
  | ldL | ldS | ldB | ldaL | ldaS | ldaB | ldoL | ldoS | ldoB => exact State.loadTo_cfg h
  | stL | stS | stB | staL | staS | staB | stoL | stoS | stoB => exact State.storeTo_cfg h
  | cmp | nop | brk => cases h; rfl
  | swi i32 => exact State.takeException_cfg (s := s.setSReg .swiNumber i32) h
  | bad => exact State.takeException_cfg h
  | push =>
    obtain ⟨u, hu, rfl⟩ := execPush_spec h
    exact State.memWrite_cfg (t := u) hu
  | pop =>
    obtain ⟨-, v, -, rfl⟩ := execPop_spec h
    rfl
  | gsr =>
    obtain ⟨r, -, rfl⟩ := execGsr_spec h
    rfl
  | ssr =>
    obtain ⟨r, -, rfl⟩ := execSsr_spec h
    rfl
  | div =>
    obtain ⟨-, hraise⟩ | ⟨-, hwrite⟩ := execDiv_spec h
    · exact State.takeException_cfg hraise
    · exact State.writeReg_cfg hwrite
  | udiv => exact State.writeReg_cfg (execUdiv_spec h).2
  | mod => exact State.writeReg_cfg (execMod_spec h).2
  | umod => exact State.writeReg_cfg (execUmod_spec h).2

/-! ## The statements -/

/-- Settles O40: the bytes of the value stand at the address in the configured order, so they read back. -/
theorem memWriteReadsBack : Obligations.MemWriteReadsBack :=
  fun _ _ _ _ _ h => ⟨State.memRead_of_memWrite h, State.read_first_of_memWrite h⟩

/-- Settles O41: each narrow read answers its own bytes among the four that were written; in a known byte order
these are closed values. -/
theorem mixedWidthAccess : Obligations.MixedWidthAccess := by
  intro s t a h
  have hbyte0 := State.memRead_within_memWrite (w' := .byte) 0 h (by decide) (by decide) (by decide)
  have hshort0 := State.memRead_within_memWrite (w' := .short) 0 h (by decide) (by decide) (by decide)
  have hshort2 := State.memRead_within_memWrite (w' := .short) 2 h (by decide) (by decide) (by decide)
  have hbyte3 := State.memRead_within_memWrite (w' := .byte) 3 h (by decide) (by decide) (by decide)
  rw [byteAddr_zero] at hbyte0 hshort0
  refine ⟨fun hbig => ?_, fun hlittle => ?_⟩
  · rw [hbig] at hbyte0 hshort0 hshort2 hbyte3
    exact ⟨hbyte0, hshort0, hshort2, hbyte3⟩
  · rw [hlittle] at hbyte0 hshort0 hshort2 hbyte3
    exact ⟨hbyte0, hshort0, hshort2, hbyte3⟩

/-- Settles O39: a read joins the bytes in the configured order, and `exec` keeps the configuration. -/
theorem memReadByteOrder : Obligations.MemReadByteOrder := by
  refine ⟨fun s a b0 b1 b2 b3 => ⟨fun h => ?_, fun ha h => ?_, fun ha h => ?_⟩, fun i s t h => ?_⟩
  · obtain ⟨v, hread, hv⟩ := s.memRead_toNat (w := .byte) (aligned_byte a) rfl h
    exact ⟨v, hread, by simpa only [List.reverse_singleton, toNat_joinBytes_one, ite_self] using hv⟩
  · obtain ⟨v, hread, hv⟩ := s.memRead_toNat ha rfl h
    exact ⟨v, hread, by simpa only [List.reverse_cons, List.reverse_nil, List.nil_append, List.cons_append,
      toNat_joinBytes_two] using hv⟩
  · obtain ⟨v, hread, hv⟩ := s.memRead_toNat ha rfl h
    exact ⟨v, hread, by simpa only [List.reverse_cons, List.reverse_nil, List.nil_append, List.cons_append,
      toNat_joinBytes_four] using hv⟩
  · exact congrArg Config.endian (exec_cfg h)

end Sys2Proof.Machine
end

section
/-! PROOFS. Encoding (`30_encoding.md` R80, R93): which words decode to `bad`, by opcode and by match and mask, and that
the first word decides the length. -/

namespace Sys2Proof

open Sys2Proof.Machine

/-! ## The forms that can be `bad` -/

/-- A form 1 word is `bad` exactly by its opcode, and then the instruction holds that word. -/
theorem decodeForm1_eq_bad_iff (w w' : BitVec 16) (op : Nat) (a b : Reg) (tail : Word) :
    decodeForm1 w op a b tail = .bad w' ↔ w' = w ∧ (op ∈ [0x00, 0x16, 0x17, 0x18] ∨ 0x3A ≤ op) := by
  fun_cases decodeForm1 w op a b tail
  case case55 =>
    have hop : op ∈ [0x00, 0x16, 0x17, 0x18] ∨ 0x3A ≤ op := by
      simp only [List.mem_cons, List.not_mem_nil, or_false, imp_false] at *
      omega
    simp only [Instr.bad.injEq, hop, and_true, eq_comm]
  all_goals exact iff_of_false Instr.noConfusion (by simp)

theorem decodeForm2_ne_bad (op2 : BitVec 2) (a : Reg) (x : BitVec 8) (w : BitVec 16) : decodeForm2 op2 a x ≠ .bad w := by
  fun_cases decodeForm2 op2 a x <;> exact Instr.noConfusion

/-- A form 3 word is `bad` exactly where `op4` names no branch, and then the instruction holds that word. -/
theorem decodeForm3_eq_bad_iff (w w' : BitVec 16) (op4 : Nat) (v : BitVec 10) :
    decodeForm3 w op4 v = .bad w' ↔ w' = w ∧ 0b1010 ≤ op4 := by
  fun_cases decodeForm3 w op4 v
  case case11 =>
    have hop : 0b1010 ≤ op4 := by
      simp only [imp_false] at *
      omega
    simp only [Instr.bad.injEq, hop, and_true, eq_comm]
  all_goals exact iff_of_false Instr.noConfusion (by simp)

/-! ## The words that decode to `bad` -/

/-- The words that `30_encoding.md` R93 gives to `bad`, by form and opcode. -/
def HasBadOpcode (w : BitVec 16) : Prop :=
  (w.getLsbD 15 = false ∧
      ((w.extractLsb' 8 8).toNat ∈ [0x00, 0x16, 0x17, 0x18] ∨ 0x3A ≤ (w.extractLsb' 8 8).toNat)) ∨
    (w.getLsbD 15 = true ∧ w.getLsbD 14 = true ∧ 0b1010 ≤ (w.extractLsb' 10 4).toNat)

/-- What decodes to `bad`, and that `bad` then holds the word it was decoded from. -/
theorem decodeUnits_eq_bad_iff (w w' : BitVec 16) (tail : Word) :
    decodeUnits w tail = .bad w' ↔ w' = w ∧ HasBadOpcode w := by
  rw [decodeUnits, HasBadOpcode]
  cases h15 : w.getLsbD 15 with
  | false => simpa using decodeForm1_eq_bad_iff ..
  | true =>
    cases h14 : w.getLsbD 14 with
    | false => simp [decodeForm2_ne_bad]
    | true => simpa using decodeForm3_eq_bad_iff ..

/-- A match under a mask of the bits from `lo` on fixes the number those bits stand for. -/
theorem and_highMask_eq_iff (w : BitVec 16) (lo v : Nat) (hv : v * 2 ^ lo < 2 ^ 16 := by decide) :
    w &&& (BitVec.allOnes 16 <<< lo) = BitVec.ofNat 16 (v * 2 ^ lo) ↔ w.toNat / 2 ^ lo = v := by
  have hw : w.toNat / 2 ^ lo * 2 ^ lo < 2 ^ 16 := Nat.lt_of_le_of_lt (Nat.div_mul_le_self _ _) w.isLt
  rw [← BitVec.shiftLeft_ushiftRight, ← BitVec.toNat_inj, BitVec.toNat_shiftLeft, BitVec.toNat_ushiftRight,
    Nat.shiftRight_eq_div_pow, Nat.shiftLeft_eq, BitVec.toNat_ofNat, Nat.mod_eq_of_lt hw, Nat.mod_eq_of_lt hv]
  exact Nat.mul_left_inj (Nat.two_pow_pos lo).ne'

/-- The nine match and mask pairs, as the numbers that their fixed bits stand for. -/
theorem exists_badPatterns_iff (w : BitVec 16) :
    (∃ p ∈ badPatterns, w &&& p.2 = p.1) ↔
      w.toNat / 2 ^ 8 = 0x00 ∨ w.toNat / 2 ^ 8 = 0x16 ∨ w.toNat / 2 ^ 8 = 0x17 ∨ w.toNat / 2 ^ 8 = 0x18 ∨
        w.toNat / 2 ^ 9 = 0x1D ∨ w.toNat / 2 ^ 10 = 0x0F ∨ w.toNat / 2 ^ 14 = 0b01 ∨
        w.toNat / 2 ^ 11 = 0b11101 ∨ w.toNat / 2 ^ 12 = 0b1111 := by
  simp only [badPatterns, List.exists_mem_cons_iff, List.not_mem_nil, false_and, exists_false, or_false]
  exact or_congr (and_highMask_eq_iff w 8 0x00) <| or_congr (and_highMask_eq_iff w 8 0x16) <|
    or_congr (and_highMask_eq_iff w 8 0x17) <| or_congr (and_highMask_eq_iff w 8 0x18) <|
    or_congr (and_highMask_eq_iff w 9 0x1D) <| or_congr (and_highMask_eq_iff w 10 0x0F) <|
    or_congr (and_highMask_eq_iff w 14 0b01) <| or_congr (and_highMask_eq_iff w 11 0b11101) <|
    and_highMask_eq_iff w 12 0b1111

/-- The opcodes of R93 and its match and mask pairs say the same. -/
theorem hasBadOpcode_iff_badPatterns (w : BitVec 16) : HasBadOpcode w ↔ ∃ p ∈ badPatterns, w &&& p.2 = p.1 := by
  rw [exists_badPatterns_iff]
  simp only [HasBadOpcode, getLsbD_eq_decide, toNat_extract, decide_eq_true_eq, decide_eq_false_iff_not, List.mem_cons,
    List.not_mem_nil, or_false]
  omega

/-! ## Lengths -/

/-- The unit after a form 1 word does not enter its length. -/
theorem decodeForm1_length_tail (w : BitVec 16) (op : Nat) (a b : Reg) (t1 t2 : Word) :
    (decodeForm1 w op a b t1).length = (decodeForm1 w op a b t2).length := by
  unfold decodeForm1
  split <;> rfl

theorem decodeUnits_length_tail (w : BitVec 16) (t1 t2 : Word) :
    (decodeUnits w t1).length = (decodeUnits w t2).length := by
  simp only [decodeUnits]
  split
  · exact decodeForm1_length_tail ..
  · rfl

theorem Instr.length_eq_six_iff (i : Instr) :
    i.length = 6 ↔ ∃ a x, i ∈ [Instr.ldiL a x, .ldiS a x, .ldiB a x, .ldaL a x, .ldaS a x, .ldaB a x, .staL a x,
      .staS a x, .staB a x, .jmpa x, .jsra x, .swi x] := by
  cases i with
  | ldiL a x | ldiS a x | ldiB a x | ldaL a x | ldaS a x | ldaB a x | staL a x | staS a x | staB a x =>
    exact iff_of_true rfl ⟨a, x, by simp⟩
  | jmpa x | jsra x | swi x => exact iff_of_true rfl ⟨0, x, by simp⟩
  | _ => exact iff_of_false (by simp [Instr.length]) (by simp)

theorem Instr.length_eq_four_iff (i : Instr) :
    i.length = 4 ↔ ∃ a b x, i ∈ [Instr.ldoL a b x, .ldoS a b x, .ldoB a b x, .stoL a b x, .stoS a b x, .stoB a b x] := by
  cases i with
  | ldoL a b x | ldoS a b x | ldoB a b x | stoL a b x | stoS a b x | stoB a b x =>
    exact iff_of_true rfl ⟨a, b, x, by simp⟩
  | _ => exact iff_of_false (by simp [Instr.length]) (by simp)

/-! ## The statements -/

/-- Settles O4: each form says which of its words are `bad`, and a match under a mask is an equation of the high bits. -/
theorem badWordsExactly : Obligations.BadWordsExactly := by
  intro w tail
  have hbad : decodeUnits w tail = .bad w ↔ HasBadOpcode w := by simp [decodeUnits_eq_bad_iff]
  exact ⟨hbad, hbad.trans (hasBadOpcode_iff_badPatterns w), fun w' h => ((decodeUnits_eq_bad_iff w w' tail).1 h).1, rfl,
    fun s => State.raise_raises s .illegal 2⟩

/-- Settles O5: only a form 1 word has a unit after it, and no length depends on that unit. -/
theorem firstWordDecidesLength : Obligations.FirstWordDecidesLength :=
  ⟨decodeUnits_length_tail, fun i => ⟨i.length_eq_six_iff, i.length_eq_four_iff, i.length_cases⟩⟩

end Sys2Proof
end

section
/-! PROOFS. Arithmetic, logic, shift, move and extend (`40_alu.md`): the value that each instruction writes, as a number
modulo 2^32 or as bits, and that it is written to one register alone. -/

namespace Sys2Proof.Machine

/-! ## The values -/

theorem neg_eq_ofInt {n : Nat} (x : BitVec n) : -x = BitVec.ofInt n (0 - (x.toNat : Int)) := by
  rw [Int.zero_sub, BitVec.ofInt_neg, BitVec.ofInt_natCast, BitVec.ofNat_toNat, BitVec.setWidth_eq]

theorem sub_eq_ofInt {n : Nat} (x y : BitVec n) : x - y = BitVec.ofInt n ((x.toNat : Int) - (y.toNat : Int)) := by
  rw [BitVec.sub_eq_add_neg, neg_eq_ofInt, Int.zero_sub, Int.sub_eq_add_neg, BitVec.ofInt_add, BitVec.ofInt_natCast,
    BitVec.ofNat_toNat, BitVec.setWidth_eq]

theorem not_eq_ofNat {n : Nat} (x : BitVec n) : ~~~x = BitVec.ofNat n (2 ^ n - 1 - x.toNat) := by
  rw [← BitVec.toNat_not, BitVec.ofNat_toNat, BitVec.setWidth_eq]

/-- The immediate of `inc` and `dec` is unsigned (`30_encoding.md` R85). -/
theorem toNat_imm8 (i8 : BitVec 8) : (imm8 i8).toNat = i8.toNat :=
  BitVec.toNat_setWidth_of_le (by decide)

theorem shiftLeft_eq_ofNat {n : Nat} (x : BitVec n) (k : Nat) : x <<< k = BitVec.ofNat n (x.toNat * 2 ^ k) :=
  BitVec.eq_of_toNat_eq <| by rw [BitVec.toNat_shiftLeft, BitVec.toNat_ofNat, Nat.shiftLeft_eq]

theorem ushiftRight_eq_ofNat {n : Nat} (x : BitVec n) (k : Nat) : x >>> k = BitVec.ofNat n (x.toNat / 2 ^ k) := by
  rw [← Nat.shiftRight_eq_div_pow, ← BitVec.toNat_ushiftRight, BitVec.ofNat_toNat, BitVec.setWidth_eq]

/-- An arithmetic shift right divides the signed value, rounding down. -/
theorem sshiftRight_eq_ofInt {n : Nat} (x : BitVec n) (k : Nat) :
    x.sshiftRight k = BitVec.ofInt n (x.toInt.fdiv (2 ^ k)) := by
  rw [BitVec.sshiftRight, Int.shiftRight_eq_div_pow, Int.fdiv_eq_ediv_of_nonneg _ (by positivity)]
  norm_cast

/-- Sign extension keeps the signed value of the field (`00_scope.md` R8). -/
theorem sextLow_eq_ofInt {n : Nat} (hn : n ≤ 32) (v : Word) :
    sextLow n v = BitVec.ofInt 32 (v.extractLsb' 0 n).toInt := by
  rw [sextLow, BitVec.setWidth_eq_extractLsb' hn, BitVec.signExtend]

/-- Zero extension masks the low bits (`00_scope.md` R8). -/
theorem zextLow_eq_and {n : Nat} (hn : n ≤ 32) (v : Word) : zextLow n v = v &&& (BitVec.allOnes n).setWidth 32 := by
  apply BitVec.eq_of_toNat_eq
  rw [BitVec.toNat_and, BitVec.toNat_setWidth_of_le hn, BitVec.toNat_allOnes, Nat.and_two_pow_sub_one_eq_mod, zextLow,
    BitVec.toNat_setWidth_of_le hn, BitVec.toNat_setWidth]

/-! ## The results of the shifts (R127 to R129) -/

theorem shiftResult_ashl (x n : Word) : shiftResult .ashl x n =
    if n.toNat < 32 then BitVec.ofNat 32 (x.toNat * 2 ^ n.toNat) else Config.shiftOver .ashl x n := by
  rw [shiftResult, shiftLeft_eq_ofNat]

theorem shiftResult_ashr (x n : Word) : shiftResult .ashr x n =
    if n.toNat < 32 then BitVec.ofInt 32 (x.toInt.fdiv (2 ^ n.toNat)) else Config.shiftOver .ashr x n := by
  rw [shiftResult, sshiftRight_eq_ofInt]

theorem shiftResult_lshr (x n : Word) : shiftResult .lshr x n =
    if n.toNat < 32 then BitVec.ofNat 32 (x.toNat / 2 ^ n.toNat) else Config.shiftOver .lshr x n := by
  rw [shiftResult, ushiftRight_eq_ofNat]

/-! ## The shared shape: one encoding, one register written -/

/-- An instruction that ends in the shared register write changes that register alone. -/
theorem writesReg_of_exec {i : Instr} {dst : Reg} {len : Nat} {result v : State → Word}
    (hexec : ∀ s, exec i s = s.writeReg dst (result s) len) (hresult : ∀ s, result s = v s) :
    WritesReg i dst len v := by
  intro s
  rw [hexec, hresult]
  exact s.writeReg_spec dst (v s) len

/-- A two-register form 1 instruction of 2 bytes that ends in the shared register write. -/
theorem form1_writesReg (op : BitVec 8) {a b : Reg} {i : Instr} {result v : State → Word}
    (hdecode : ∀ w, decodeForm1 w op.toNat a b 0 = i) (hexec : ∀ s, exec i s = s.writeReg a (result s) 2)
    (hresult : ∀ s, result s = v s) (hop : op.toNat < 128 := by decide) (hlength : i.length = 2 := by rfl) :
    Encodes2 (form1Bits op (regBits a) (regBits b)) i ∧ WritesReg i a 2 v :=
  ⟨encodes2_form1 op (regBits a) (regBits b) hop hdecode hlength, writesReg_of_exec hexec hresult⟩

/-- A form 2 instruction of 2 bytes that ends in the shared register write. -/
theorem form2_writesReg (op2 : BitVec 2) {a : Reg} {x : BitVec 8} {i : Instr} {result v : State → Word}
    (hdecode : decodeForm2 op2 a x = i) (hexec : ∀ s, exec i s = s.writeReg a (result s) 2)
    (hresult : ∀ s, result s = v s) (hlength : i.length = 2 := by rfl) :
    Encodes2 (form2 op2 a x) i ∧ WritesReg i a 2 v :=
  ⟨encodes2_form2 op2 a x hdecode hlength, writesReg_of_exec hexec hresult⟩

/-! ## The statements -/

/-- Settles O11: sums and differences of words are those of their unsigned values, modulo 2^32. -/
theorem arithmeticResults : Obligations.ArithmeticResults := by
  intro a b i8
  refine ⟨?add, ?sub, ?neg, ?inc, ?dec⟩
  case add => exact form1_writesReg 0x05 (fun _ => rfl) (fun _ => rfl) fun s => BitVec.add_def ..
  case sub => exact form1_writesReg 0x29 (fun _ => rfl) (fun _ => rfl) fun s => sub_eq_ofInt ..
  case neg => exact form1_writesReg 0x2A (fun _ => rfl) (fun _ => rfl) fun s => neg_eq_ofInt _
  case inc => exact form2_writesReg 0b00 rfl (fun _ => rfl) fun s => by rw [BitVec.add_def, toNat_imm8]
  case dec => exact form2_writesReg 0b01 rfl (fun _ => rfl) fun s => by rw [sub_eq_ofInt, toNat_imm8]

/-- Settles O12: the model's bitwise operations are the statement's, and the complement is `2^32 - 1` less the value. -/
theorem logicResults : Obligations.LogicResults := by
  intro a b
  refine ⟨?and, ?or, ?xor, ?not⟩
  case and => exact form1_writesReg 0x26 (fun _ => rfl) (fun _ => rfl) fun _ => rfl
  case or => exact form1_writesReg 0x2B (fun _ => rfl) (fun _ => rfl) fun _ => rfl
  case xor => exact form1_writesReg 0x2E (fun _ => rfl) (fun _ => rfl) fun _ => rfl
  case not => exact form1_writesReg 0x2C (fun _ => rfl) (fun _ => rfl) fun s => not_eq_ofNat _

/-- Settles O13: a shift below 32 multiplies or divides by a power of two; from 32 on it is `ShiftOver`. -/
theorem shiftResults : Obligations.ShiftResults := by
  intro a b
  refine ⟨?ashl, ?ashr, ?lshr⟩
  case ashl => exact form1_writesReg 0x28 (fun _ => rfl) (fun _ => rfl) fun s => shiftResult_ashl ..
  case ashr => exact form1_writesReg 0x2D (fun _ => rfl) (fun _ => rfl) fun s => shiftResult_ashr ..
  case lshr => exact form1_writesReg 0x27 (fun _ => rfl) (fun _ => rfl) fun s => shiftResult_lshr ..

/-- Settles O14: the extensions are the signed value of the low field and the mask of the low bits. -/
theorem moveAndExtendResults : Obligations.MoveAndExtendResults := by
  intro a b
  refine ⟨?mov, ?sexB, ?sexS, ?zexB, ?zexS⟩
  case mov => exact form1_writesReg 0x02 (fun _ => rfl) (fun _ => rfl) fun _ => rfl
  case sexB => exact form1_writesReg 0x10 (fun _ => rfl) (fun _ => rfl) fun s => sextLow_eq_ofInt (by decide) _
  case sexS => exact form1_writesReg 0x11 (fun _ => rfl) (fun _ => rfl) fun s => sextLow_eq_ofInt (by decide) _
  case zexB => exact form1_writesReg 0x12 (fun _ => rfl) (fun _ => rfl) fun s => zextLow_eq_and (by decide) _
  case zexS => exact form1_writesReg 0x13 (fun _ => rfl) (fun _ => rfl) fun s => zextLow_eq_and (by decide) _

/-- Settles O15: `nop` decodes whatever its low fields are, and is the bare move to the next instruction. -/
theorem nopAdvancesOnly : Obligations.NopAdvancesOnly :=
  ⟨fun x y => encodes2_form1 0x0F x y (by decide) (fun _ => rfl) rfl, fun s => ⟨_, rfl, Frame.advance s 2, rfl⟩⟩

end Sys2Proof.Machine
end

section
/-! PROOFS. Multiply, divide and modulus (`41_muldiv.md`): the value that each instruction writes, as an exact integer
narrowed to 32 bits, and what each division answers for a zero divisor. -/

namespace Sys2Proof.Machine

/-! ## The values -/

theorem mulHighSigned_eq_ofInt (x y : Word) :
    mulHighSigned x y = BitVec.ofInt 32 ((x.toInt * y.toInt).fdiv (2 ^ 32)) := by
  rw [mulHighSigned, Int.fdiv_eq_ediv_of_nonneg _ (by decide)]

/-- The one quotient that does not fit, told by the signed values of the operands (`41_muldiv.md` R163). -/
theorem divSigned_eq_ite_toInt (x y : Word) :
    divSigned x y =
      if x.toInt = -2 ^ 31 ∧ y.toInt = -1 then 0x80000000 else BitVec.ofInt 32 (x.toInt.tdiv y.toInt) := by
  have hmin : x.toInt = -2 ^ 31 ↔ x = 0x80000000 := BitVec.toInt_inj (y := 0x80000000)
  have hneg : y.toInt = -1 ↔ y = 0xFFFFFFFF := BitVec.toInt_inj (y := 0xFFFFFFFF)
  simp only [divSigned, hmin, hneg]

/-- The remainder of the division that rounds toward zero fits in a word, `INT_MIN` by -1 included: no narrowing. -/
theorem toInt_modSigned (x y : Word) : (modSigned x y).toInt = x.toInt.tmod y.toInt := by
  rw [modSigned, Int.mul_comm, ← Int.tmod_def, ← BitVec.toInt_srem, BitVec.ofInt_toInt]

/-- The sign of a remainder is the dividend's (`41_muldiv.md` R165). -/
theorem tmod_eq_zero_or_neg_iff (m n : Int) : m.tmod n = 0 ∨ (m.tmod n < 0 ↔ m < 0) := by
  have hsign := Int.sign_tmod m n
  split at hsign
  case isTrue => exact .inl (Int.sign_eq_zero_iff_zero.1 hsign)
  case isFalse => exact .inr (by rw [← Int.sign_eq_neg_one_iff_neg, hsign, Int.sign_eq_neg_one_iff_neg])

theorem natAbs_tmod_lt (m : Int) {n : Int} (hn : n ≠ 0) : (m.tmod n).natAbs < n.natAbs := by
  rw [Int.natAbs_tmod]
  exact Nat.mod_lt _ (Int.natAbs_pos.2 hn)

/-! ## One equation for each outcome of a division -/

section
variable {a b : Reg} {s : State}

theorem exec_div_of_zero (hb : s.reg b = 0) : exec (.div a b) s = s.raise .divideByZero 2 := if_pos hb

theorem exec_div_of_ne_zero (hb : s.reg b ≠ 0) :
    exec (.div a b) s = s.writeReg a (divSigned (s.reg a) (s.reg b)) 2 := if_neg hb

theorem exec_udiv_of_zero (hb : s.reg b = 0) : exec (.udiv a b) s = .fault .udivByZero := if_pos hb

theorem exec_udiv_of_ne_zero (hb : s.reg b ≠ 0) :
    exec (.udiv a b) s = s.writeReg a (s.reg a / s.reg b) 2 := if_neg hb

theorem exec_mod_of_zero (hb : s.reg b = 0) : exec (.mod a b) s = .fault .modByZero := if_pos hb

theorem exec_mod_of_ne_zero (hb : s.reg b ≠ 0) :
    exec (.mod a b) s = s.writeReg a (modSigned (s.reg a) (s.reg b)) 2 := if_neg hb

theorem exec_umod_of_zero (hb : s.reg b = 0) : exec (.umod a b) s = .fault .umodByZero := if_pos hb

theorem exec_umod_of_ne_zero (hb : s.reg b ≠ 0) :
    exec (.umod a b) s = s.writeReg a (s.reg a % s.reg b) 2 := if_neg hb

/-- A division that ends in the register write changes that register alone, and what it writes has every property `P` of
the value. -/
theorem exists_next_of_writeReg {i : Instr} {v : Word} (P : Word → Prop) (hexec : exec i s = s.writeReg a v 2)
    (hv : P v) : ∃ t, exec i s = .next t ∧ Frame [a] s t ∧ t.pc = s.pc + 2 ∧ P (t.reg a) := by
  obtain ⟨t, hnext, hreg, hframe, hpc⟩ := s.writeReg_spec a v 2
  exact ⟨t, hexec.trans hnext, hframe, hpc, hreg ▸ hv⟩

end

/-! ## The statements -/

/-- Settles O16: the low word is the product modulo 2^32; the high words are the exact product divided by 2^32, rounded
down. -/
theorem multiplyResults : Obligations.MultiplyResults := by
  intro a b
  refine ⟨?mul, ?mulX, ?umulX⟩
  case mul => exact form1_writesReg 0x2F (fun _ => rfl) (fun _ => rfl) fun s => by simp [BitVec.ofNat_mul]
  case mulX => exact form1_writesReg 0x15 (fun _ => rfl) (fun _ => rfl) fun s => mulHighSigned_eq_ofInt ..
  case umulX => exact form1_writesReg 0x14 (fun _ => rfl) (fun _ => rfl) fun _ => rfl

/-- Settles O17: a zero divisor raises; else the quotient is written, with `INT_MIN` by -1 told by the signed values. -/
theorem divResults : Obligations.DivResults := by
  intro a b
  refine ⟨encodes2_form1 0x31 _ _ (by decide) (fun _ => rfl) rfl, fun s hb => ?zero, fun s hb => ?nonzero⟩
  case zero => exact exec_div_of_zero hb ▸ s.raise_raises .divideByZero 2
  case nonzero => exact exists_next_of_writeReg (· = _) (exec_div_of_ne_zero hb) (divSigned_eq_ite_toInt ..)

/-- Settles O18: a zero divisor faults; else the model's unsigned quotient and remainder are those of the natural numbers. -/
theorem unsignedDivideResults : Obligations.UnsignedDivideResults := by
  intro a b
  refine ⟨⟨encodes2_form1 0x32 _ _ (by decide) (fun _ => rfl) rfl, fun s => exec_udiv_of_zero, fun s hb => ?udiv⟩,
    encodes2_form1 0x34 _ _ (by decide) (fun _ => rfl) rfl, fun s => exec_umod_of_zero, fun s hb => ?umod⟩
  case udiv => exact exists_next_of_writeReg (·.toNat = _) (exec_udiv_of_ne_zero hb) BitVec.toNat_udiv
  case umod =>
    exact exists_next_of_writeReg (·.toNat = _) (exec_umod_of_ne_zero hb)
      (BitVec.toNat_umod.trans Nat.mod_eq_sub_div_mul)

/-- Settles O19: a zero divisor faults; else the remainder is written, which is exact, so that it has the sign and the bound
of the integers' remainder. -/
theorem modResults : Obligations.ModResults := by
  intro a b
  refine ⟨encodes2_form1 0x33 _ _ (by decide) (fun _ => rfl) rfl, fun s => exec_mod_of_zero, fun s hb => ?_⟩
  have hdivisor : (s.reg b).toInt ≠ 0 := fun h => hb (BitVec.toInt_inj.1 h)
  refine exists_next_of_writeReg
    (fun v => v = _ ∧ (v.toInt = 0 ∨ (v.toInt < 0 ↔ (s.reg a).toInt < 0)) ∧ v.toInt.natAbs < (s.reg b).toInt.natAbs)
    (exec_mod_of_ne_zero hb) ⟨rfl, ?_⟩
  rw [toInt_modSigned]
  exact ⟨tmod_eq_zero_or_neg_iff .., natAbs_tmod_lt _ hdivisor⟩

end Sys2Proof.Machine
end

section
/-! PROOFS. Compare and branch (`42_compare_branch.md`): what each instruction leaves unchanged, that `cmp` alone writes the
condition code, and where a branch goes. -/

namespace Sys2Proof.Machine

/-! ## Frames, by the update that ends an operation -/

theorem FrameExceptMemory.refl (written : List Reg) (s : State) : FrameExceptMemory written s s :=
  ⟨fun _ _ => rfl, rfl, rfl, rfl, rfl, rfl, rfl⟩

theorem FrameExceptMemory.trans {written : List Reg} {s t u : State} (h : FrameExceptMemory written s t)
    (h' : FrameExceptMemory written t u) : FrameExceptMemory written s u :=
  ⟨fun r hr => (h'.regs r hr).trans (h.regs r hr), h'.cc.trans h.cc, h'.sregs.trans h.sregs, h'.cfg.trans h.cfg,
    h'.irqPending.trans h.irqPending, h'.envTick.trans h.envTick, h'.ended.trans h.ended⟩

theorem FrameExceptMemory.setReg {written : List Reg} {s t : State} (h : FrameExceptMemory written s t) {r : Reg}
    (hr : r ∈ written) (v : Word) : FrameExceptMemory written s (t.setReg r v) :=
  h.trans ⟨fun _ hq => t.reg_setReg_of_ne v fun he => hq (he ▸ hr), rfl, rfl, rfl, rfl, rfl, rfl⟩

theorem FrameExceptMemory.setPc {written : List Reg} {s t : State} (h : FrameExceptMemory written s t) (v : Word) :
    FrameExceptMemory written s (t.setPc v) :=
  h.trans ⟨fun _ _ => rfl, rfl, rfl, rfl, rfl, rfl, rfl⟩

theorem FrameExceptMemory.advance {written : List Reg} {s t : State} (h : FrameExceptMemory written s t) (n : Nat) :
    FrameExceptMemory written s (t.advance n) :=
  h.setPc _

theorem State.memWrite_frame {s t : State} {a v : Word} {w : Width} (h : s.memWrite a w v = .ok t)
    (written : List Reg) : FrameExceptMemory written s t := by
  obtain ⟨-, -, -, hframe⟩ := State.memWrite_spec h
  rw [hframe]
  exact ⟨fun _ _ => rfl, rfl, rfl, rfl, rfl, rfl, rfl⟩

/-! ## Frames of the shared operations -/

theorem State.writeReg_frame {s t : State} {r : Reg} {v : Word} {len : Nat} (h : s.writeReg r v len = .next t) :
    FrameExceptMemory [r] s t := by
  cases h
  exact ((FrameExceptMemory.refl _ s).setReg (by simp) v).advance len

theorem State.branchIf_frame {s t : State} {c : BranchCond} {v10 : BitVec 10} (h : s.branchIf c v10 = .next t) :
    FrameExceptMemory [] s t := by
  obtain ⟨u, hu, hframe, -⟩ := s.branchIf_spec c v10
  cases hu.symm.trans h
  exact hframe.toFrameExceptMemory

theorem State.jumpTo_frame {s t : State} {x : Word} (h : s.jumpTo x = .next t) : FrameExceptMemory [] s t := by
  obtain ⟨-, rfl⟩ := State.jumpTo_spec h
  exact (FrameExceptMemory.refl _ s).setPc x

theorem State.loadTo_frame {s t : State} {r : Reg} {ea : Word} {w : Width} {len : Nat}
    (h : s.loadTo r ea w len = .next t) : FrameExceptMemory [r] s t := by
  obtain ⟨v, -, rfl⟩ := State.loadTo_spec h
  exact ((FrameExceptMemory.refl _ s).setReg (by simp) v).advance len

theorem State.storeTo_frame {s t : State} {ea v : Word} {w : Width} {len : Nat} (h : s.storeTo ea w v len = .next t) :
    FrameExceptMemory [] s t := by
  obtain ⟨u, hu, rfl⟩ := State.storeTo_spec h
  exact (State.memWrite_frame hu _).advance len

theorem State.call_frame {s t : State} {target : Word} {len : Nat} (h : s.call target len = .next t) :
    FrameExceptMemory [Reg.fp, Reg.sp] s t := by
  obtain ⟨u, v, hu, hv, -, -, rfl⟩ := State.call_spec h
  have hstores := (State.memWrite_frame hu [Reg.fp, Reg.sp]).trans (State.memWrite_frame hv _)
  exact ((hstores.setReg (by simp) _).setReg (by simp) _).setPc target

theorem execRet_frame {s t : State} (h : execRet s = .next t) : FrameExceptMemory [Reg.fp, Reg.sp] s t := by
  obtain ⟨fp, ra, -, -, -, rfl⟩ := execRet_spec h
  exact (((FrameExceptMemory.refl _ s).setReg (by simp) fp).setReg (by simp) _).setPc ra

theorem execPush_frame {a b : Reg} {s t : State} (h : execPush a b s = .next t) : FrameExceptMemory [a] s t := by
  obtain ⟨u, hu, rfl⟩ := execPush_spec h
  exact ((State.memWrite_frame hu _).setReg (by simp) _).advance 2

theorem execPop_frame {a b : Reg} {s t : State} (h : execPop a b s = .next t) : FrameExceptMemory [a, b] s t := by
  obtain ⟨-, v, -, rfl⟩ := execPop_spec h
  exact (((FrameExceptMemory.refl _ s).setReg (by simp) v).setReg (by simp) _).advance 2

theorem execGsr_frame {a : Reg} {n : BitVec 8} {s t : State} (h : execGsr a n s = .next t) :
    FrameExceptMemory [a] s t := by
  obtain ⟨r, -, rfl⟩ := execGsr_spec h
  exact ((FrameExceptMemory.refl _ s).setReg (by simp) _).advance 2

/-! ## Frames of the instructions -/

/-- `t` differs from `s` at most in `pc`, memory, the special registers, the mark of `brk`, and the general registers
listed in `written`. -/
def FrameExceptSystem (written : List Reg) (s t : State) : Prop :=
  FrameExceptMemory written { s with sregs := t.sregs, ended := t.ended } t

theorem FrameExceptMemory.exceptSystem {written : List Reg} {s t : State} (h : FrameExceptMemory written s t) :
    FrameExceptSystem written s t :=
  ⟨h.regs, h.cc, rfl, h.cfg, h.irqPending, h.envTick, rfl⟩

theorem State.takeException_frame {s t : State} {c : Cause} {ra : Word} (h : s.takeException c ra = .next t)
    (written : List Reg) : FrameExceptSystem written s t := by
  have he := State.takeException_entered h
  exact ⟨fun r _ => he.regs r, he.cc, rfl, he.cfg, he.irqPending, he.envTick, rfl⟩

theorem execSsr_frame {a : Reg} {n : BitVec 8} {s t : State} (h : execSsr a n s = .next t) :
    FrameExceptSystem [] s t := by
  obtain ⟨r, -, rfl⟩ := execSsr_spec h
  exact ⟨fun _ _ => rfl, rfl, rfl, rfl, rfl, rfl, rfl⟩

theorem execBrk_frame {s t : State} (h : execBrk s = .next t) : FrameExceptSystem [] s t := by
  cases h
  exact ⟨fun _ _ => rfl, rfl, rfl, rfl, rfl, rfl, rfl⟩

theorem execDiv_frame {a b : Reg} {s t : State} (h : execDiv a b s = .next t) : FrameExceptSystem [a] s t := by
  obtain ⟨-, hraise⟩ | ⟨-, hwrite⟩ := execDiv_spec h
  · exact State.takeException_frame hraise _
  · exact (State.writeReg_frame hwrite).exceptSystem

/-- Every instruction but `cmp` keeps the condition code, the configuration, the interrupt line, and the general registers
that are not its destinations: each ends in one of the shared operations, all of which do. -/
theorem exec_frameExceptSystem {i : Instr} {s t : State} (h : exec i s = .next t) (hcmp : ∀ a b, i ≠ .cmp a b) :
    FrameExceptSystem (destinations i) s t := by
  cases i with
  | cmp a b => exact absurd rfl (hcmp a b)
  | ldiL | ldiS | ldiB | mov | add | sub | and | or | xor | not | neg | ashl | ashr | lshr | inc | dec | sexB | sexS
  | zexB | zexS | mul | mulX | umulX => exact (State.writeReg_frame h).exceptSystem
  | nop =>
    cases h
    exact (Frame.advance s 2).toFrameExceptMemory.exceptSystem
  | beq | bne | blt | bgt | bltu | bgtu | bge | ble | bgeu | bleu => exact (State.branchIf_frame h).exceptSystem
  | jmp | jmpa => exact (State.jumpTo_frame h).exceptSystem
  | jsr | jsra => exact (State.call_frame h).exceptSystem
  | ret => exact (execRet_frame h).exceptSystem
  | ldL | ldS | ldB | ldaL | ldaS | ldaB | ldoL | ldoS | ldoB => exact (State.loadTo_frame h).exceptSystem
  | stL | stS | stB | staL | staS | staB | stoL | stoS | stoB => exact (State.storeTo_frame h).exceptSystem
  | push => exact (execPush_frame h).exceptSystem
  | pop => exact (execPop_frame h).exceptSystem
  | div => exact execDiv_frame h
  | udiv => exact (State.writeReg_frame (execUdiv_spec h).2).exceptSystem
  | mod => exact (State.writeReg_frame (execMod_spec h).2).exceptSystem
  | umod => exact (State.writeReg_frame (execUmod_spec h).2).exceptSystem
  | gsr => exact (execGsr_frame h).exceptSystem
  | ssr => exact execSsr_frame h
  | swi i32 => exact State.takeException_frame (s := s.setSReg .swiNumber i32) h _
  | bad => exact State.takeException_frame h _
  | brk => exact execBrk_frame h

/-! ## `cmp` -/

/-- Everything `cmp` does. -/
theorem exec_cmp (a b : Reg) (s : State) :
    exec (.cmp a b) s = .next ((s.setCc (compareWords (s.reg a) (s.reg b))).advance 2) := rfl

/-- No instruction but `cmp` writes the condition code (`10_state.md` R26). -/
theorem exec_cc_of_ne_cmp {i : Instr} {s t : State} (h : exec i s = .next t) (hcmp : ∀ a b, i ≠ .cmp a b) :
    t.cc = s.cc :=
  (exec_frameExceptSystem h hcmp).cc

/-! ## Branches -/

/-- The ten rows are the ten conditions: each op4 decodes to its instruction, which is the shared branch on a condition that
holds as the row says (`42_compare_branch.md` R181). -/
theorem exists_cond_of_mem_branchRows : ∀ row ∈ branchRows, ∃ c : BranchCond,
    (∀ w v10, decodeForm3 w row.1.toNat v10 = row.2.1 v10) ∧ (∀ v10, (row.2.1 v10).length = 2) ∧
      (∀ v10 s, exec (row.2.1 v10) s = s.branchIf c v10) ∧ ∀ f, condHolds c f = row.2.2 f := by
  simp only [branchRows, List.forall_mem_cons]
  exact ⟨⟨.eq, fun _ _ => rfl, fun _ => rfl, fun _ _ => rfl, fun _ => rfl⟩,
    ⟨.ne, fun _ _ => rfl, fun _ => rfl, fun _ _ => rfl, fun _ => rfl⟩,
    ⟨.lt, fun _ _ => rfl, fun _ => rfl, fun _ _ => rfl, fun _ => rfl⟩,
    ⟨.gt, fun _ _ => rfl, fun _ => rfl, fun _ _ => rfl, fun _ => rfl⟩,
    ⟨.ltu, fun _ _ => rfl, fun _ => rfl, fun _ _ => rfl, fun _ => rfl⟩,
    ⟨.gtu, fun _ _ => rfl, fun _ => rfl, fun _ _ => rfl, fun _ => rfl⟩,
    ⟨.ge, fun _ _ => rfl, fun _ => rfl, fun _ _ => rfl, fun _ => rfl⟩,
    ⟨.le, fun _ _ => rfl, fun _ => rfl, fun _ _ => rfl, fun _ => rfl⟩,
    ⟨.geu, fun _ _ => rfl, fun _ => rfl, fun _ _ => rfl, fun _ => rfl⟩,
    ⟨.leu, fun _ _ => rfl, fun _ => rfl, fun _ _ => rfl, fun _ => rfl⟩, by simp⟩

/-- The offset field counts signed 16-bit units (`30_encoding.md` R86). -/
theorem branchOffset_eq_ofInt (v10 : BitVec 10) : branchOffset v10 = BitVec.ofInt 32 (2 * v10.toInt) := by
  rw [branchOffset, BitVec.signExtend, BitVec.shiftLeft_eq_mul_twoPow, BitVec.ofInt_mul, BitVec.mul_comm]
  rfl

theorem evenAddr_add {x y : Word} (hx : evenAddr x = true) (hy : evenAddr y = true) : evenAddr (x + y) = true := by
  simp only [evenAddr, beq_iff_eq, BitVec.toNat_add] at *
  omega

theorem evenAddr_branchOffset (v10 : BitVec 10) : evenAddr (branchOffset v10) = true := by
  simp only [evenAddr, beq_iff_eq, branchOffset, BitVec.toNat_shiftLeft, Nat.shiftLeft_eq]
  omega

/-- `BRANCH_BASE` is 0 or 2 (`42_compare_branch.md` R182). -/
theorem evenAddr_branchBase {c : Config} (h : c.wf) : evenAddr c.branchBase = true := by
  obtain ⟨-, -, hzero | htwo, -⟩ := h
  · rw [hzero]; rfl
  · rw [htwo]; rfl

/-- From an even `pc` a branch goes to an even address, taken or not (`20_memory.md` R58). -/
theorem State.branchTarget_even {s : State} (hcfg : s.cfg.wf) (hpc : evenAddr s.pc = true) (v10 : BitVec 10) :
    evenAddr (s.branchTarget v10) = true :=
  evenAddr_add (evenAddr_add hpc (evenAddr_branchBase hcfg)) (evenAddr_branchOffset v10)

/-! ## The statements -/

/-- Settles O21: `cmp` is the write of the three comparisons; every other instruction has a frame that holds the condition
code. -/
theorem cmpResult : Obligations.CmpResult := by
  refine ⟨fun a b => ⟨encodes2_form1 0x0E _ _ (by decide) (fun _ => rfl) rfl, fun s => ?cmp⟩,
    fun i s t => exec_cc_of_ne_cmp⟩
  exact ⟨_, exec_cmp a b s, decide_eq_true_iff, decide_eq_true_iff, decide_eq_true_iff, Frame.advance _ 2, rfl⟩

/-- Settles O22: every row is the shared branch on its condition; `BRANCH_BASE`, the offset and the length of a branch are
even. -/
theorem branchResults : Obligations.BranchResults := by
  intro row hrow v10
  obtain ⟨c, hdecode, hlength, hexec, htaken⟩ := exists_cond_of_mem_branchRows row hrow
  refine ⟨encodes2_form3 row.1 v10 (fun w => hdecode w v10) (hlength v10), fun s => ?_⟩
  obtain ⟨t, hnext, hframe, hpc⟩ := s.branchIf_spec c v10
  refine ⟨t, (hexec v10 s).trans hnext, hframe, ?target, fun hcfg heven => ?even⟩
  case target => rw [hpc, htaken, State.branchTarget, branchOffset_eq_ofInt]
  case even =>
    rw [hpc]
    split
    · exact State.branchTarget_even hcfg heven v10
    · exact evenAddr_add heven rfl

end Sys2Proof.Machine
end

section
/-! PROOFS. Jumps and the return from a call (`43_jump_call.md` R200, R201, R204, R206): the two words at `$fp` as one frame
of eight bytes, what `ret` does with them, and that a call leaves there what its return needs. -/

namespace Sys2Proof.Machine

/-! ## Bytes side by side -/

/-- Bytes stand one list after the other exactly where each list stands at its own address. -/
theorem holds_append_iff (s : State) (a : Word) (bs cs : List Byte) :
    Holds s a (bs ++ cs) ↔ Holds s a bs ∧ Holds s (byteAddr a bs.length) cs := by
  constructor
  · intro h
    exact ⟨by simpa using h.slice 0 bs.length, by simpa using h.slice bs.length cs.length⟩
  · rintro ⟨hbs, hcs⟩ k hk
    rw [List.getElem_append]
    split
    · exact hbs k ‹_›
    · rename_i hge
      have hin := hcs (k - bs.length) (by rw [List.length_append] at hk; omega)
      rwa [byteAddr_byteAddr, Nat.add_sub_cancel' (Nat.le_of_not_lt hge)] at hin

/-- Bytes stand where they stood when neither they nor the backing of their addresses changed. -/
theorem Holds.of_same_bytes {s t : State} {a : Word} {bs : List Byte} (h : Holds s a bs) (hcfg : t.cfg = s.cfg)
    (hsame : ∀ x, InAccess a bs.length x → Memory.read t.mem x = Memory.read s.mem x) : Holds t a bs := by
  intro k hk
  obtain ⟨hbacked, hread⟩ := h k hk
  exact ⟨by simpa only [State.backed, hcfg] using hbacked, (hsame _ ⟨k, hk, rfl⟩).trans hread⟩

/-- Bytes that stand in memory may be read. -/
theorem Holds.readable {s : State} {a : Word} {bs : List Byte} (h : Holds s a bs) : Readable s a bs.length := by
  intro k hk
  obtain ⟨hbacked, hread⟩ := h k hk
  exact ⟨hbacked, by rw [hread, Option.isSome_some]⟩

/-- What stops a read stops for a byte of every access around it. -/
theorem ReadStop.within {s : State} {a : Word} {j n m : Nat} {e : Stop} (h : ReadStop s (byteAddr a j) n e)
    (hin : j + n ≤ m) : ReadStop s a m e := by
  refine h.imp ?_ ?_ <;>
  · rintro ⟨he, k, hk, hcause⟩
    exact ⟨he, j + k, by omega, by rwa [byteAddr_byteAddr] at hcause⟩

/-- A byte past the end of an access is not in it. -/
theorem not_inAccess_byteAddr (a : Word) {n j : Nat} (hn : n ≤ j) (hj : j < 2 ^ 32) :
    ¬InAccess a n (byteAddr a j).toNat := by
  rintro ⟨k, hk, heq⟩
  have := byteAddr_injective a hj (by omega) (BitVec.eq_of_toNat_eq heq)
  omega

/-! ## `ret` -/

/-- The address of the word above, as `ret` writes it. -/
theorem byteAddr_four (a : Word) : byteAddr a 4 = a + 4 := rfl

/-- `ret` stops where its read of the saved `$fp` does. -/
theorem execRet_fp_stop {s : State} {e : Stop} (h : s.memRead (s.reg Reg.fp) .long = .error e) :
    execRet s = e.result := by
  simp only [execRet, h]

/-- `ret` stops where its read of the return address does. -/
theorem execRet_ra_stop {s : State} {fp : Word} {e : Stop} (hfp : s.memRead (s.reg Reg.fp) .long = .ok fp)
    (hra : s.memRead (byteAddr (s.reg Reg.fp) 4) .long = .error e) : execRet s = e.result := by
  rw [byteAddr_four] at hra
  simp only [execRet, hfp, hra]

/-- With both words of the frame in memory, `ret` is the write of `$fp` and `$sp` and the jump to the return address. -/
theorem execRet_of_holds {s : State} {fpBytes raBytes : List Byte} (ha : aligned (s.reg Reg.fp) .long = true)
    (hfpl : fpBytes.length = 4) (hral : raBytes.length = 4) (h : Holds s (s.reg Reg.fp) (fpBytes ++ raBytes)) :
    execRet s =
      ((s.setReg Reg.fp (wordOfBytes s.cfg.endian fpBytes)).setReg Reg.sp (s.reg Reg.fp + 12)).jumpTo
        (wordOfBytes s.cfg.endian raBytes) := by
  obtain ⟨hfp, hra⟩ := (holds_append_iff ..).1 h
  rw [hfpl] at hra
  have hreadfp := s.memRead_ok (w := .long) ha hfpl hfp
  have hreadra := s.memRead_ok (w := .long) (aligned_byteAddr ha (by decide) (by decide)) hral hra
  rw [byteAddr_four] at hreadra
  simp only [execRet, hreadfp, hreadra]

/-- `ret` through a frame whose return address is even. -/
theorem execRet_even {s : State} {fpBytes raBytes : List Byte} (ha : aligned (s.reg Reg.fp) .long = true)
    (hfpl : fpBytes.length = 4) (hral : raBytes.length = 4) (h : Holds s (s.reg Reg.fp) (fpBytes ++ raBytes))
    (heven : evenAddr (wordOfBytes s.cfg.endian raBytes) = true) :
    ∃ t, execRet s = .next t ∧ t.reg Reg.fp = wordOfBytes s.cfg.endian fpBytes ∧
      t.reg Reg.sp = s.reg Reg.fp + 12 ∧ Frame [Reg.fp, Reg.sp] s t ∧ t.pc = wordOfBytes s.cfg.endian raBytes := by
  have hnext := (execRet_of_holds ha hfpl hral h).trans (State.jumpTo_even _ heven)
  refine ⟨_, hnext, ?fp, ?sp, ⟨execRet_frame hnext, ⟨fun _ => rfl, rfl⟩⟩, rfl⟩
  case fp => rw [State.setPc_reg, State.reg_setReg_of_ne _ _ (by decide), State.reg_setReg_self]
  case sp => rw [State.setPc_reg, State.reg_setReg_self]

/-- Where not all eight bytes of the frame can be read, one of the two reads of `ret` stops, for such a byte. -/
theorem execRet_unreadable {s : State} (ha : aligned (s.reg Reg.fp) .long = true) (h : ¬Readable s (s.reg Reg.fp) 8) :
    ∃ e, execRet s = e.result ∧ ReadStop s (s.reg Reg.fp) 8 e := by
  have hara := aligned_byteAddr (w' := .long) (j := 4) ha (by decide) (by decide)
  cases hfp : s.memRead (s.reg Reg.fp) .long with
  | error e =>
    have hstop := State.memRead_stop ha hfp
    rw [← byteAddr_zero (s.reg Reg.fp)] at hstop
    exact ⟨e, execRet_fp_stop hfp, hstop.within (by decide)⟩
  | ok fp =>
    cases hra : s.memRead (byteAddr (s.reg Reg.fp) 4) .long with
    | error e => exact ⟨e, execRet_ra_stop hfp hra, (State.memRead_stop hara hra).within (by decide)⟩
    | ok ra =>
      obtain ⟨-, fpBytes, hfpl, hfpb, -⟩ := State.memRead_spec hfp
      obtain ⟨-, raBytes, hral, hrab, -⟩ := State.memRead_spec hra
      have hframe := ((holds_append_iff ..).2 ⟨hfpb, by rwa [hfpl]⟩).readable
      rw [List.length_append, hfpl, hral] at hframe
      exact absurd hframe h

/-! ## What a call leaves for its return -/

/-- The return address goes to the word above the saved `$fp` (`43_jump_call.md` R205). -/
theorem State.eaCallReturn_eq (s : State) : s.eaCallReturn = byteAddr s.eaCallFrame 4 := by
  simp only [State.eaCallReturn, State.eaCallFrame, byteAddr]
  bv_omega

/-- After a call, `$fp` is aligned and points at the saved `$fp` and, above it, the return address: the second store does
not touch the first. -/
theorem State.call_holds {s t : State} {target : Word} {len : Nat} (h : s.call target len = .next t) :
    t.reg Reg.fp = s.reg Reg.sp - 12 ∧ aligned (s.reg Reg.sp - 12) .long = true ∧
      Holds t (s.reg Reg.sp - 12)
        (bytesOfWord s.cfg.endian 4 (s.reg Reg.fp) ++ bytesOfWord s.cfg.endian 4 (s.pc + BitVec.ofNat 32 len)) := by
  obtain ⟨u, v, hu, hv, -, -, rfl⟩ := State.call_spec h
  obtain ⟨haligned, -, hstores, -⟩ := State.memWrite_spec hv
  have hfp := State.memWrite_holds hv
  rw [State.memWrite_cfg hu] at hfp
  have hra : Holds v s.eaCallReturn (bytesOfWord s.cfg.endian 4 (s.pc + BitVec.ofNat 32 len)) := by
    refine (State.memWrite_holds hu).of_same_bytes (State.memWrite_cfg hv) ?_
    rintro x ⟨k, hk, rfl⟩
    rw [bytesOfWord_length, Width.bytes] at hk
    refine hstores.outside _ ?_
    rw [bytesOfWord_length, State.eaCallReturn_eq, byteAddr_byteAddr]
    exact not_inAccess_byteAddr _ (by simp only [Width.bytes]; omega) (by omega)
  refine ⟨by rw [State.setPc_reg, State.reg_setReg_self, State.eaCallFrame], haligned, ?_⟩
  rw [State.eaCallReturn_eq] at hra
  exact (holds_append_iff v ..).2 ⟨hfp, by rwa [bytesOfWord_length]⟩

/-- Both calls are the shared call, of their own length. -/
theorem exists_exec_eq_call {i : Instr} (hi : (∃ a, i = .jsr a) ∨ ∃ x, i = .jsra x) (s : State) :
    ∃ target, exec i s = s.call target i.length := by
  obtain ⟨a, rfl⟩ | ⟨x, rfl⟩ := hi
  · exact ⟨s.reg a, rfl⟩
  · exact ⟨x, rfl⟩

/-- Every instruction has an even length, so `pc` stays even past it. -/
theorem evenAddr_length (i : Instr) : evenAddr (BitVec.ofNat 32 i.length) = true := by
  obtain h | h | h := i.length_cases <;> rw [h] <;> rfl

/-! ## The statements -/

/-- Settles O28: the call leaves an aligned frame at the new `$fp`; it still stands in `u`, so `ret` reads it back. -/
theorem callReturnRoundTrip : Obligations.CallReturnRoundTrip := by
  intro i s t u hi hcall hpc hcfg hfp hsame
  obtain ⟨target, hexec⟩ := exists_exec_eq_call hi s
  rw [hexec] at hcall
  obtain ⟨hfpt, haligned, hholds⟩ := State.call_holds hcall
  have hcfgs : u.cfg = s.cfg := hcfg.trans (State.call_cfg hcall)
  have hfpu : u.reg Reg.fp = s.reg Reg.sp - 12 := hfp.trans hfpt
  have hframe := hholds.of_same_bytes hcfg (by simpa using hsame)
  rw [← hfpu] at haligned hframe
  have hra : evenAddr (wordOfBytes u.cfg.endian
      (bytesOfWord s.cfg.endian 4 (s.pc + BitVec.ofNat 32 i.length))) = true := by
    rw [hcfgs, wordOfBytes_bytesOfWord_four]
    exact evenAddr_add hpc (evenAddr_length i)
  obtain ⟨v, hnext, hvfp, hvsp, hvframe, hvpc⟩ := execRet_even haligned (by simp) (by simp) hframe hra
  rw [hcfgs, wordOfBytes_bytesOfWord_four] at hvfp hvpc
  rw [hfpu, BitVec.sub_add_cancel] at hvsp
  exact ⟨v, hnext, hvsp, hvfp, hvpc, hvframe⟩

/-- Settles O25: both are the shared jump, which looks only at the parity of its target. -/
theorem jumpResults : Obligations.JumpResults := by
  refine ⟨fun a x => ⟨?jmpEncoding, fun s heven => ?jmpEven, fun s => s.jumpTo_odd⟩,
    fun x y i32 => ⟨?jmpaEncoding, fun heven s => ?jmpaEven, fun hodd s => s.jumpTo_odd hodd⟩⟩
  case jmpEncoding => exact encodes2_form1 0x25 _ _ (by decide) (fun _ => rfl) rfl
  case jmpEven => exact ⟨_, s.jumpTo_even heven, Frame.setPc s _, rfl⟩
  case jmpaEncoding => exact encodes6_form1 0x1A _ _ i32 (by decide) (fun _ => rfl) fun _ => rfl
  case jmpaEven => exact ⟨_, s.jumpTo_even heven, Frame.setPc s _, rfl⟩

/-- Settles O27: with the frame in memory `ret` ends in a jump; else one of its two reads stops. -/
theorem retResult : Obligations.RetResult := by
  refine ⟨fun x y => ?encoding, fun s fpBytes raBytes ha hfpl hral h => ⟨?even, fun hodd => ?odd⟩,
    fun s ha => ?misaligned, fun s => execRet_unreadable⟩
  case encoding => exact encodes2_form1 0x04 _ _ (by decide) (fun _ => rfl) rfl
  case even => exact execRet_even ha hfpl hral h
  case odd => exact (execRet_of_holds ha hfpl hral h).trans (State.jumpTo_odd _ hodd)
  case misaligned => exact execRet_fp_stop (s.memRead_misaligned ha)

end Sys2Proof.Machine
end

section
/-! PROOFS. Loads and stores (`44_load_store.md`): every load and every store is the shared one at its own effective address
and width; load-immediate is the shared register write; `push` and `pop` are one access and the move of the pointer. -/

namespace Sys2Proof.Machine

/-! ## Encodings and effective addresses -/

/-- A form 1 word with a 16-bit unit after it, which is the third operand of the instruction. -/
theorem encodes4_form1_operand (op : BitVec 8) (a b : Reg) (x : BitVec 16) {i : BitVec 16 → Instr}
    (hdecode : ∀ w tail, decodeForm1 w op.toNat a b tail = i (tail.setWidth 16)) (hlength : ∀ y, (i y).length = 4)
    (hop : op.toNat < 128 := by decide) : Encodes4 (form1Bits op (regBits a) (regBits b)) x (i x) := by
  refine encodes4_form1 op _ _ x hop (fun w => ?operand) fun w => ?length
  case operand => exact (hdecode w _).trans (congrArg i (by simp))
  case length => exact (congrArg Instr.length (hdecode w 0)).trans (hlength _)

/-- The offset of `ldo` and `sto` is the signed value of its field (`30_encoding.md` R87). -/
theorem State.eaOffset_eq_ofInt (s : State) (r : Reg) (i16 : BitVec 16) :
    s.eaOffset r i16 = s.reg r + BitVec.ofInt 32 i16.toInt := rfl

/-! ## The shared load and store -/

/-- A load stops where its read does, for the same. -/
theorem State.loadTo_stop {s : State} {ea : Word} {w : Width} {e : Stop} (h : s.memRead ea w = .error e) (r : Reg)
    (len : Nat) : s.loadTo r ea w len = e.result := by
  simp only [State.loadTo, h]

/-- A store stops where its write does, for the same. -/
theorem State.storeTo_stop {s : State} {ea v : Word} {w : Width} {e : Stop} (h : s.memWrite ea w v = .error e)
    (len : Nat) : s.storeTo ea w v len = e.result := by
  simp only [State.storeTo, h]

/-- An instruction that is the shared load in every state is the load from that address (R243, R244). -/
theorem loads_of_exec {i : Instr} {dst : Reg} {address ea : State → Word} {w : Width} {len : Nat}
    (hexec : ∀ s, exec i s = s.loadTo dst (address s) w len) (haddress : ∀ s, address s = ea s) :
    Loads i dst ea w len := by
  simp only [haddress] at hexec
  refine ⟨fun s bs ha hl h => ?completes, fun s ha => ?misaligned, fun s e he => ?stops⟩
  case completes => exact hexec s ▸ s.loadTo_ok dst len ha hl h
  case misaligned => exact (hexec s).trans (State.loadTo_stop (s.memRead_misaligned ha) ..)
  case stops => exact (hexec s).trans (State.loadTo_stop he ..)

/-- An instruction that is the shared store in every state is the store to that address (R243, R244). -/
theorem stores_of_exec {i : Instr} {address ea v : State → Word} {w : Width} {len : Nat}
    (hexec : ∀ s, exec i s = s.storeTo (address s) w (v s) len) (haddress : ∀ s, address s = ea s) :
    Stores i ea w v len := by
  simp only [haddress] at hexec
  refine ⟨fun s ha hw => ?completes, fun s ha => ?misaligned, fun s e he => ?stops⟩
  case completes => exact hexec s ▸ s.storeTo_ok (v s) len ha hw
  case misaligned => exact (hexec s).trans (State.storeTo_stop (s.memWrite_misaligned _ ha) _)
  case stops => exact (hexec s).trans (State.storeTo_stop he _)

/-! ## `push` -/

/-- What a store left in memory is still there after a change that is not one of memory. -/
theorem StoresOnly.of_sameMemory {ea : Word} {bs : List Byte} {s t u : State} (h : StoresOnly ea bs s t)
    (hsame : SameMemory t u) : StoresOnly ea bs s u :=
  ⟨fun k hk => (hsame.bytes _).trans (h.bytes k hk), fun a ha => (hsame.bytes a).trans (h.outside a ha),
    fun a => hsame.stored ▸ h.stored a⟩

theorem State.memWrite_pc {s t : State} {a v : Word} {w : Width} (h : s.memWrite a w v = .ok t) : t.pc = s.pc := by
  obtain ⟨-, -, -, hframe⟩ := State.memWrite_spec h
  rw [hframe]

/-- `push` completes where its write does. -/
theorem exec_push_of_memWrite {a b : Reg} {s u : State} (h : s.memWrite (s.eaPush a) .long (s.reg b) = .ok u) :
    exec (.push a b) s = .next ((u.setReg a (s.eaPush a)).advance 2) := by
  simp only [exec, execPush, h, State.writeReg]

/-- `push` stops where its write does, for the same. -/
theorem exec_push_stop {a b : Reg} {s : State} {e : Stop} (h : s.memWrite (s.eaPush a) .long (s.reg b) = .error e) :
    exec (.push a b) s = e.result := by
  simp only [exec, execPush, h]

/-! ## `pop` -/

/-- `pop` completes, into another register than the pointer, where its read does. -/
theorem exec_pop_of_memRead {a b : Reg} {s : State} {v : Word} (hab : a ≠ b)
    (h : s.memRead (s.reg a) .long = .ok v) :
    exec (.pop a b) s = .next (((s.setReg b v).setReg a (s.reg a + 4)).advance 2) := by
  simp only [exec, execPop, State.eaIndirect, if_neg hab, h, State.writeReg]

/-- `pop` stops where its read does, for the same. -/
theorem exec_pop_stop {a b : Reg} {s : State} {e : Stop} (hab : a ≠ b)
    (h : s.memRead (s.reg a) .long = .error e) : exec (.pop a b) s = e.result := by
  simp only [exec, execPop, State.eaIndirect, if_neg hab, h]

/-! ## The statements -/

/-- Settles O29: each is the shared load from the address in its second register. -/
theorem indirectLoadResults : Obligations.IndirectLoadResults := by
  intro a b
  refine ⟨⟨?ldLEncoding, ?ldL⟩, ⟨?ldSEncoding, ?ldS⟩, ⟨?ldBEncoding, ?ldB⟩⟩
  case ldLEncoding => exact encodes2_form1 0x0A _ _ (by decide) (fun _ => rfl) rfl
  case ldSEncoding => exact encodes2_form1 0x21 _ _ (by decide) (fun _ => rfl) rfl
  case ldBEncoding => exact encodes2_form1 0x1C _ _ (by decide) (fun _ => rfl) rfl
  case ldL | ldS | ldB => exact loads_of_exec (fun _ => rfl) fun _ => rfl

/-- Settles O30: each is the shared load from its 32-bit unit. -/
theorem absoluteLoadResults : Obligations.AbsoluteLoadResults := by
  intro a x i32
  refine ⟨⟨?ldaLEncoding, ?ldaL⟩, ⟨?ldaSEncoding, ?ldaS⟩, ⟨?ldaBEncoding, ?ldaB⟩⟩
  case ldaLEncoding => exact encodes6_form1 0x08 _ _ i32 (by decide) (fun _ => rfl) fun _ => rfl
  case ldaSEncoding => exact encodes6_form1 0x22 _ _ i32 (by decide) (fun _ => rfl) fun _ => rfl
  case ldaBEncoding => exact encodes6_form1 0x1D _ _ i32 (by decide) (fun _ => rfl) fun _ => rfl
  case ldaL | ldaS | ldaB => exact loads_of_exec (fun _ => rfl) fun _ => rfl

/-- Settles O31: each is the shared load from base plus offset, and the offset is its 16-bit unit, signed. -/
theorem offsetLoadResults : Obligations.OffsetLoadResults := by
  intro a b i16
  refine ⟨⟨?ldoLEncoding, ?ldoL⟩, ⟨?ldoSEncoding, ?ldoS⟩, ⟨?ldoBEncoding, ?ldoB⟩⟩
  case ldoLEncoding => exact encodes4_form1_operand 0x0C a b i16 (fun _ _ => rfl) fun _ => rfl
  case ldoSEncoding => exact encodes4_form1_operand 0x38 a b i16 (fun _ _ => rfl) fun _ => rfl
  case ldoBEncoding => exact encodes4_form1_operand 0x36 a b i16 (fun _ _ => rfl) fun _ => rfl
  case ldoL | ldoS | ldoB => exact loads_of_exec (fun _ => rfl) fun s => s.eaOffset_eq_ofInt b i16

/-- Settles O32: each is the shared store to the address in its first register. -/
theorem indirectStoreResults : Obligations.IndirectStoreResults := by
  intro a b
  refine ⟨⟨?stLEncoding, ?stL⟩, ⟨?stSEncoding, ?stS⟩, ⟨?stBEncoding, ?stB⟩⟩
  case stLEncoding => exact encodes2_form1 0x0B _ _ (by decide) (fun _ => rfl) rfl
  case stSEncoding => exact encodes2_form1 0x23 _ _ (by decide) (fun _ => rfl) rfl
  case stBEncoding => exact encodes2_form1 0x1E _ _ (by decide) (fun _ => rfl) rfl
  case stL | stS | stB => exact stores_of_exec (fun _ => rfl) fun _ => rfl

/-- Settles O33: each is the shared store to its 32-bit unit. -/
theorem absoluteStoreResults : Obligations.AbsoluteStoreResults := by
  intro a x i32
  refine ⟨⟨?staLEncoding, ?staL⟩, ⟨?staSEncoding, ?staS⟩, ⟨?staBEncoding, ?staB⟩⟩
  case staLEncoding => exact encodes6_form1 0x09 _ _ i32 (by decide) (fun _ => rfl) fun _ => rfl
  case staSEncoding => exact encodes6_form1 0x24 _ _ i32 (by decide) (fun _ => rfl) fun _ => rfl
  case staBEncoding => exact encodes6_form1 0x1F _ _ i32 (by decide) (fun _ => rfl) fun _ => rfl
  case staL | staS | staB => exact stores_of_exec (fun _ => rfl) fun _ => rfl

/-- Settles O34: each is the shared store to base plus offset, with the first register as the base (C5). -/
theorem offsetStoreResults : Obligations.OffsetStoreResults := by
  intro a b i16
  refine ⟨⟨?stoLEncoding, ?stoL⟩, ⟨?stoSEncoding, ?stoS⟩, ⟨?stoBEncoding, ?stoB⟩⟩
  case stoLEncoding => exact encodes4_form1_operand 0x0D a b i16 (fun _ _ => rfl) fun _ => rfl
  case stoSEncoding => exact encodes4_form1_operand 0x39 a b i16 (fun _ _ => rfl) fun _ => rfl
  case stoBEncoding => exact encodes4_form1_operand 0x37 a b i16 (fun _ _ => rfl) fun _ => rfl
  case stoL | stoS | stoB => exact stores_of_exec (fun _ => rfl) fun s => s.eaOffset_eq_ofInt a i16

/-- Settles O35: each is the shared register write of its 32-bit unit. -/
theorem loadImmediateResults : Obligations.LoadImmediateResults := by
  intro a x i32
  refine ⟨⟨?ldiLEncoding, ?ldiL⟩, ⟨?ldiSEncoding, ?ldiS⟩, ⟨?ldiBEncoding, ?ldiB⟩⟩
  case ldiLEncoding => exact encodes6_form1 0x01 _ _ i32 (by decide) (fun _ => rfl) fun _ => rfl
  case ldiSEncoding => exact encodes6_form1 0x20 _ _ i32 (by decide) (fun _ => rfl) fun _ => rfl
  case ldiBEncoding => exact encodes6_form1 0x1B _ _ i32 (by decide) (fun _ => rfl) fun _ => rfl
  case ldiL | ldiS | ldiB => exact writesReg_of_exec (fun _ => rfl) fun _ => rfl

/-- Settles O36: one write of the old value of B, and then the pointer, which is no change of memory. -/
theorem pushResult : Obligations.PushResult := by
  refine fun a b => ⟨?encoding, fun s ha hw => ?completes, fun s ha => ?misaligned, fun s e => exec_push_stop⟩
  case encoding => exact encodes2_form1 0x06 _ _ (by decide) (fun _ => rfl) rfl
  case completes =>
    obtain ⟨u, hu⟩ := s.memWrite_ok (s.reg b) ha hw
    obtain ⟨-, -, hstores, -⟩ := State.memWrite_spec hu
    have hnext := exec_push_of_memWrite hu
    have hsame := (Frame.setReg_advance u a (s.eaPush a) 2).toSameMemory
    refine ⟨_, hnext, ?pointer, hstores.of_sameMemory hsame, execPush_frame hnext, ?pc⟩
    case pointer => rw [State.advance_reg, State.reg_setReg_self, State.eaPush]
    case pc => exact congrArg (· + 2) (State.memWrite_pc (t := u) hu)
  case misaligned => exact exec_push_stop (s.memWrite_misaligned _ ha)

/-- Settles O37: with two registers one read decides; B is written before the pointer, which is another register. -/
theorem popResult : Obligations.PopResult := by
  refine fun a b => ⟨?encoding, fun hab s => if_pos hab, fun hab =>
    ⟨fun s bs ha hl h => ?completes, fun s ha => ?misaligned, fun s e => exec_pop_stop hab⟩⟩
  case encoding => exact encodes2_form1 0x07 _ _ (by decide) (fun _ => rfl) rfl
  case completes =>
    have hnext := exec_pop_of_memRead hab (s.memRead_ok ha hl h)
    refine ⟨_, hnext, ?loaded, ?pointer, ⟨execPop_frame hnext, ⟨fun _ => rfl, rfl⟩⟩, rfl⟩
    case loaded => rw [State.advance_reg, State.reg_setReg_of_ne _ _ hab.symm, State.reg_setReg_self]
    case pointer => rw [State.advance_reg, State.reg_setReg_self]
  case misaligned => exact exec_pop_stop hab (s.memRead_misaligned ha)

end Sys2Proof.Machine
end

section
/-! PROOFS. Special registers and `bad` (`45_system.md`): which numbers name a special register, what `ssr` does with the
one it names, and that the words of `30_encoding.md` R93 raise the illegal instruction exception. -/

namespace Sys2Proof.Machine

/-! ## The numbers of the special registers (`10_state.md` R35, R38) -/

theorem SReg.ofNumber_plain (k : Fin 246) : SReg.ofNumber (BitVec.ofNat 8 (10 + k.val)) = some (.plain k) := by
  have hk := k.isLt
  have hn : (BitVec.ofNat 8 (10 + k.val)).toNat = 10 + k.val := by
    rw [BitVec.toNat_ofNat]
    omega
  simp only [SReg.ofNumber, hn, Nat.le_add_right, dite_true, Nat.add_sub_cancel_left]

/-- Exactly the three reserved numbers name no register (R35). -/
theorem SReg.ofNumber_eq_none_iff (n : BitVec 8) : SReg.ofNumber n = none ↔ n.toNat ∈ [6, 7, 8] := by
  fun_cases SReg.ofNumber n
  case case1 hplain => exact iff_of_false nofun (by simp; omega)
  case case9 =>
    have hn : n.toNat ∈ [6, 7, 8] := by
      simp only [List.mem_cons, List.not_mem_nil, or_false, imp_false] at *
      omega
    exact iff_of_true rfl hn
  all_goals exact iff_of_false nofun (by simp [*])

theorem specialRegistersNumbered : SpecialRegistersNumbered := by
  refine ⟨?rows, fun k => ⟨SReg.ofNumber_plain k, fun _ => rfl⟩, ?reserved⟩
  case rows =>
    simp only [specialRegisterRows, List.forall_mem_cons]
    exact ⟨⟨rfl, fun _ => rfl⟩, ⟨rfl, fun _ => rfl⟩, ⟨rfl, fun _ => rfl⟩, ⟨rfl, fun _ => rfl⟩, ⟨rfl, fun _ => rfl⟩,
      ⟨rfl, fun _ => rfl⟩, ⟨rfl, fun _ => rfl⟩, by simp⟩
  case reserved => decide

/-! ## The named special register -/

theorem State.namedSReg_reserved (s : State) {n : BitVec 8} (hn : n.toNat ∈ [6, 7, 8]) :
    s.namedSReg n = .error (.fault .reservedSpecialRegister) := by
  rw [State.namedSReg, (SReg.ofNumber_eq_none_iff n).2 hn]

theorem State.namedSReg_absent {s : State} {n : BitVec 8} (hn : n.toNat ∉ [6, 7, 8]) (hs : s.cfg.numSregs ≤ n.toNat) :
    s.namedSReg n = .error (.fault .noSuchSpecialRegister) := by
  obtain ⟨r, hr⟩ := Option.ne_none_iff_exists'.1 (mt (SReg.ofNumber_eq_none_iff n).1 hn)
  rw [State.namedSReg, hr]
  exact if_pos hs

theorem State.exists_namedSReg {s : State} {n : BitVec 8} (hn : n.toNat ∉ [6, 7, 8]) (hs : n.toNat < s.cfg.numSregs) :
    ∃ r, SReg.ofNumber n = some r ∧ s.namedSReg n = .ok r := by
  obtain ⟨r, hr⟩ := Option.ne_none_iff_exists'.1 (mt (SReg.ofNumber_eq_none_iff n).1 hn)
  exact ⟨r, hr, State.namedSReg_ok hr hs⟩

/-! ## `ssr` -/

/-- `ssr` stops where its number names no register, for the same. -/
theorem exec_ssr_stop {a : Reg} {n : BitVec 8} {s : State} {e : Stop} (h : s.namedSReg n = .error e) :
    exec (.ssr a n) s = e.result := by
  simp only [exec, execSsr, h]

theorem exec_ssr_of_namedSReg {a : Reg} {n : BitVec 8} {s : State} {r : SReg} (h : s.namedSReg n = .ok r) :
    exec (.ssr a n) s = .next ((s.setSReg r (s.reg a)).advance 2) := by
  simp only [exec, execSsr, h]

/-- Nothing but one special register and `pc` differs after a special register write. -/
theorem Frame.setSReg_advance (s : State) (r : SReg) (v : Word) (n : Nat) :
    Frame [] { s with sregs := ((s.setSReg r v).advance n).sregs } ((s.setSReg r v).advance n) :=
  Frame.advance (s.setSReg r v) n

/-! ## `bad` -/

theorem isBadWord_iff (w : BitVec 16) : isBadWord w = true ↔ ∃ p ∈ badPatterns, w &&& p.2 = p.1 := by
  simp only [isBadWord, List.any_eq_true, beq_iff_eq]

/-- Every word of R93 decodes to the `bad` that holds it. -/
theorem decodeUnits_of_isBadWord {w : BitVec 16} (h : isBadWord w = true) (tail : Word) :
    decodeUnits w tail = .bad w :=
  (decodeUnits_eq_bad_iff w w tail).2 ⟨rfl, (hasBadOpcode_iff_badPatterns w).2 ((isBadWord_iff w).1 h)⟩

/-! ## The statements -/

/-- Settles O44: the number names a register unless it is reserved, and `ssr` is the write of that register. -/
theorem ssrResult : Obligations.SsrResult := by
  refine ⟨specialRegistersNumbered, fun a n => ⟨encodes2_form2 0b11 a n rfl rfl,
    fun hn s => exec_ssr_stop (s.namedSReg_reserved hn), fun hn s hs => exec_ssr_stop (State.namedSReg_absent hn hs),
    fun hn s hs => ?stored⟩⟩
  case stored =>
    obtain ⟨r, hr, hnamed⟩ := State.exists_namedSReg hn hs
    exact ⟨r, _, hr, exec_ssr_of_namedSReg hnamed, s.sreg_setSReg_self r (s.reg a),
      fun q hq => s.sreg_setSReg_of_ne (s.reg a) hq, Frame.setSReg_advance s r (s.reg a) 2, rfl⟩

/-- Settles O47: a word that matches one of the pairs of R93 decodes to `bad`, which is the raise of that exception. -/
theorem badResult : Obligations.BadResult :=
  fun _ hw => ⟨encodes2_of_decode (decodeUnits_of_isBadWord hw 0) rfl, fun s => s.raise_raises .illegal 2⟩

end Sys2Proof.Machine
end

section
/-! PROOFS. The return addresses (`60_exceptions.md` R286): what special register 5 holds once an exception is entered. -/

namespace Sys2Proof.Machine

/-- Where a raise is answered by entry to the handler, `s[5]` holds the return address of R286. -/
theorem Raises.returnAddress {r : Result} {code : Word} {len : Nat} {s t : State} (hr : Raises r code len s)
    (h : r = .next t) : t.sregs.returnAddress = returnAddressFor s len := by
  obtain ⟨heven, hodd⟩ := hr
  cases he : evenAddr s.sregs.handler with
  | true =>
    obtain ⟨u, hu, entered⟩ := heven he
    cases hu.symm.trans h
    exact entered.returnAddress
  | false => cases (hodd he).symm.trans h

/-- `swi` raises its exception in the state where the request number is already in `s[3]` (`45_system.md` R262). -/
theorem exec_swi_raises (i32 : Word) (s : State) :
    Raises (exec (.swi i32) s) s.cfg.exSwi 6 (s.setSReg .swiNumber i32) :=
  State.raise_raises (s.setSReg .swiNumber i32) .swi 6

/-- Settles O48: three causes are raises, of an instruction of six bytes or of two; an interrupt is entered with the `pc`
of the instruction not yet executed, whatever the mode. -/
theorem returnAddresses : Obligations.ReturnAddresses := by
  refine fun s t => ⟨fun i32 h => ?swi, fun a b hb h => ?divideByZero, fun w h => ?illegal, fun h => ?irq⟩
  case swi => exact (exec_swi_raises i32 s).returnAddress h
  case divideByZero => exact (s.raise_raises .divideByZero 2).returnAddress (exec_div_of_zero hb ▸ h)
  case illegal => exact (s.raise_raises .illegal 2).returnAddress h
  case irq => exact (State.takeException_entered h).returnAddress

end Sys2Proof.Machine
end

section
/-! PROOFS. The decoder as a whole (`30_encoding.md` R88, R95): it reads back what the encoder lays out, it answers a
well-formed instruction or says that bytes are missing, and it ignores the bits printed `x`. -/

namespace Sys2Proof

open Sys2Proof.Machine

/-! ## The word and the trailing unit of an instruction -/

/-- The encoder's form 1 word decodes by its opcode, with its fields as registers. -/
theorem decodeUnits_form1 (op : BitVec 8) (a b : Reg) (tail : Word) {i : Instr}
    (h : ∀ w, decodeForm1 w op.toNat a b tail = i) (hop : op.toNat < 128 := by decide) :
    decodeUnits (form1 op a b) tail = i :=
  (decodeUnits_form1Bits op (regBits a) (regBits b) tail hop).trans (h _)

/-- A 16-bit operand is the low half of its unit. -/
theorem decodeUnits_form1_operand (op : BitVec 8) (a b : Reg) (x : BitVec 16) {i : BitVec 16 → Instr}
    (h : ∀ w tail, decodeForm1 w op.toNat a b tail = i (tail.setWidth 16)) (hop : op.toNat < 128 := by decide) :
    decodeUnits (form1 op a b) (x.setWidth 32) = i x :=
  decodeUnits_form1 op a b _ (fun w => (h w _).trans (congrArg i (by simp))) hop

/-- The decoder reads an instruction back from its word and its trailing unit. -/
theorem decodeUnits_word_tail {i : Instr} (hi : i.WellFormed) : decodeUnits i.word i.tail = i := by
  cases i with
  | ldoL a b x | stoL a b x | ldoS a b x | stoS a b x | ldoB a b x | stoB a b x =>
    exact decodeUnits_form1_operand _ a b x fun _ _ => rfl
  | inc a x | dec a x | gsr a x | ssr a x => exact decodeUnits_form2 _ a x 0
  | beq v | bne v | blt v | bgt v | bltu v | bgtu v | bge v | ble v | bgeu v | bleu v => exact decodeUnits_form3 _ v 0
  | bad w => exact decodeUnits_of_isBadWord hi 0
  | _ => exact decodeUnits_form1 _ _ _ _ fun _ => rfl

/-- As many bytes follow the word as the instruction is long beyond it. -/
theorem tailLength_of_decodeUnits {w : BitVec 16} {tail : Word} {i : Instr} (h : decodeUnits w tail = i) :
    tailLength w = i.length - 2 := by
  rw [tailLength, decodeUnits_length_tail w 0 tail, h]

/-- The trailing unit reads back as it was laid out: it has no bytes, or its operand fills them. -/
theorem wordOfBytes_tail (e : Endian) (i : Instr) : wordOfBytes e (bytesOfWord e (i.length - 2) i.tail) = i.tail := by
  have hnone : wordOfBytes e (bytesOfWord e 0 0) = 0 := by cases e <;> rfl
  cases i with
  | ldoL _ _ x | stoL _ _ x | ldoS _ _ x | stoS _ _ x | ldoB _ _ x | stoB _ _ x =>
    exact (wordOfBytes_bytesOfWord_two e _).trans (by simp [Instr.tail])
  | ldiL _ x | ldiS _ x | ldiB _ x | ldaL _ x | ldaS _ x | ldaB _ x | staL _ x | staS _ x | staB _ x | jmpa x | jsra x
  | swi x => exact wordOfBytes_bytesOfWord_four e x
  | _ => exact hnone

/-! ## The decoder is total -/

/-- The decoder on two bytes and more. -/
theorem decode_cons_cons (e : Endian) (b0 b1 : Byte) (rest : List Byte) {w : BitVec 16}
    (hw : (wordOfBytes e [b0, b1]).setWidth 16 = w) :
    decode e (b0 :: b1 :: rest) =
      if rest.length < tailLength w then .error .truncated
      else .ok (decodeUnits w (wordOfBytes e (rest.take (tailLength w))), rest.drop (tailLength w)) := by
  subst hw
  rfl

/-- Bytes after the word are missing exactly where they are fewer than the word asks for. -/
theorem decode_truncated_iff (e : Endian) (b0 b1 : Byte) (rest : List Byte) :
    decode e (b0 :: b1 :: rest) = .error .truncated ↔
      rest.length < tailLength ((wordOfBytes e [b0, b1]).setWidth 16) := by
  rw [decode_cons_cons e b0 b1 rest rfl]
  split
  · exact iff_of_true rfl ‹_›
  · exact iff_of_false nofun ‹_›

/-- Only `bad` can fail to be well formed. -/
theorem Instr.wellFormed_iff (i : Instr) : i.WellFormed ↔ ∀ w, i = .bad w → isBadWord w = true := by
  cases i with
  | bad w => simp [Instr.WellFormed, Instr.wellFormed]
  | _ => exact iff_of_true rfl (by simp)

theorem decodeUnits_wellFormed (w : BitVec 16) (tail : Word) : (decodeUnits w tail).WellFormed := by
  refine (Instr.wellFormed_iff _).2 fun w' h => ?_
  obtain ⟨rfl, hbad⟩ := (decodeUnits_eq_bad_iff w w' tail).1 h
  exact (isBadWord_iff w').2 ((hasBadOpcode_iff_badPatterns w').1 hbad)

theorem tailLength_le_four (w : BitVec 16) : tailLength w ≤ 4 := by
  obtain h | h | h := (decodeUnits w 0).length_cases <;> rw [tailLength, h] <;> decide

/-! ## The bits that are ignored -/

/-- A word of an opcode below 128 is of form 1. -/
theorem decodeUnits_of_opcode_lt {w : BitVec 16} (h : (w.extractLsb' 8 8).toNat < 128) (tail : Word) :
    decodeUnits w tail =
      decodeForm1 w (w.extractLsb' 8 8).toNat (w.extractLsb' 4 4).toFin (w.extractLsb' 0 4).toFin tail := by
  have h15 : w.getLsbD 15 = false := by
    rw [toNat_extract] at h
    rw [getLsbD_eq_decide, decide_eq_false_iff_not]
    omega
  rw [decodeUnits, if_pos h15]

/-- The opcodes with eight `x` bits read neither register field. -/
theorem decodeForm1_ignores_registers {op : Nat} (h : op ∈ [0x03, 0x04, 0x0F, 0x1A, 0x30, 0x35]) (w w' : BitVec 16)
    (a b a' b' : Reg) (tail : Word) : decodeForm1 w op a b tail = decodeForm1 w' op a' b' tail := by
  simp only [List.mem_cons, List.not_mem_nil, or_false] at h
  obtain rfl | rfl | rfl | rfl | rfl | rfl := h <;> rfl

/-- The opcodes with four `x` bits do not read the second register field. -/
theorem decodeForm1_ignores_second {op : Nat}
    (h : op ∈ [0x01, 0x08, 0x09, 0x19, 0x1B, 0x1D, 0x1F, 0x20, 0x22, 0x24, 0x25]) (w w' : BitVec 16) (a b b' : Reg)
    (tail : Word) : decodeForm1 w op a b tail = decodeForm1 w' op a b' tail := by
  simp only [List.mem_cons, List.not_mem_nil, or_false] at h
  obtain rfl | rfl | rfl | rfl | rfl | rfl | rfl | rfl | rfl | rfl | rfl := h <;> rfl

theorem opcode_lt_of_mem {op : Nat} {l : List Nat} (h : op ∈ l) (hl : ∀ x ∈ l, x < 128 := by decide) : op < 128 :=
  hl op h

/-! ## The statements -/

/-- Settles O2: the laid-out word decodes by its fields, and asks for as many bytes as the trailing unit has. -/
theorem decodeEncodeRoundTrip : Obligations.DecodeEncodeRoundTrip := by
  intro e i rest hi
  have hunits := decodeUnits_word_tail hi
  have hlength : (bytesOfWord e (i.length - 2) i.tail).length = tailLength i.word := by
    rw [bytesOfWord_length, tailLength_of_decodeUnits hunits]
  rw [encode, List.append_assoc, decode_units e i.word _ rest hlength, wordOfBytes_tail, hunits]

/-- Settles O3: the word says how many bytes must follow, never more than four, and every word is some instruction's. -/
theorem decodeIsTotal : Obligations.DecodeIsTotal := by
  refine ⟨fun e b0 b1 rest hrest => ?total, fun e => ⟨rfl, fun b => rfl⟩, decode_truncated_iff⟩
  have henough := Nat.not_lt.2 ((tailLength_le_four ((wordOfBytes e [b0, b1]).setWidth 16)).trans hrest)
  rw [decode_cons_cons e b0 b1 rest rfl, if_neg henough]
  exact ⟨_, by rw [← tailLength_of_decodeUnits rfl], decodeUnits_wellFormed _ _, Instr.length_cases _⟩

/-- Settles O6: the listed opcodes are of form 1, and their rows read no field with ignored bits. -/
theorem ignoredBitsDoNotMatter : Obligations.IgnoredBitsDoNotMatter := by
  refine ⟨fun w w' tail hop heq => ?eight, fun w w' tail hop heq => ?four⟩
  case eight =>
    have hlt := opcode_lt_of_mem hop
    rw [decodeUnits_of_opcode_lt hlt, decodeUnits_of_opcode_lt (heq ▸ hlt), ← heq]
    exact decodeForm1_ignores_registers hop ..
  case four =>
    have hfields := congrArg BitVec.toNat heq
    simp only [toNat_extract] at hfields
    have hopcode : w.extractLsb' 8 8 = w'.extractLsb' 8 8 :=
      BitVec.eq_of_toNat_eq (by rw [toNat_extract, toNat_extract]; omega)
    have hregister : w.extractLsb' 4 4 = w'.extractLsb' 4 4 :=
      BitVec.eq_of_toNat_eq (by rw [toNat_extract, toNat_extract]; omega)
    have hlt := opcode_lt_of_mem hop
    rw [decodeUnits_of_opcode_lt hlt, decodeUnits_of_opcode_lt (hopcode ▸ hlt), ← hopcode, ← hregister]
    exact decodeForm1_ignores_second hop ..

/-- Settles O1: each of the ten is the decoder's answer on closed bytes. -/
theorem decodeSampleWords : Obligations.DecodeSampleWords := by
  unfold Obligations.DecodeSampleWords
  decide

end Sys2Proof
end

section
/-! PROOFS. Memory and the invariant (`20_memory.md` R68, `10_state.md` R24): what every instruction may do to memory, said
once, and from it that a step records its writes, keeps the invariant, and leaves program text as it is. -/

namespace Sys2Proof.Machine

/-! ## What the environment's move leaves alone, field by field -/

@[simp] theorem State.sampleEnv_cfg (s : State) : s.sampleEnv.cfg = s.cfg := by rw [s.sampleEnv_eq]
@[simp] theorem State.sampleEnv_pc (s : State) : s.sampleEnv.pc = s.pc := by rw [s.sampleEnv_eq]
@[simp] theorem State.sampleEnv_cc (s : State) : s.sampleEnv.cc = s.cc := by rw [s.sampleEnv_eq]
@[simp] theorem State.sampleEnv_mem (s : State) : s.sampleEnv.mem = s.mem := by rw [s.sampleEnv_eq]
@[simp] theorem State.sampleEnv_stored (s : State) : s.sampleEnv.stored = s.stored := by rw [s.sampleEnv_eq]
@[simp] theorem State.sampleEnv_reg (s : State) (r : Reg) : s.sampleEnv.reg r = s.reg r := by rw [s.sampleEnv_eq]; rfl
@[simp] theorem State.sampleEnv_isText (s : State) (a : Word) : s.sampleEnv.isText a = s.isText a := by
  simp [State.isText]

/-! ## Accesses side by side -/

/-- Which bytes are program text is a matter of the configuration. -/
theorem State.isText_congr {s t : State} (h : t.cfg = s.cfg) (a : Word) : t.isText a = s.isText a := by
  simp only [State.isText, h]

/-- Which bytes are writable is a matter of the configuration. -/
theorem Writable.of_cfg_eq {s t : State} {a : Word} {n : Nat} (hw : Writable s a n) (h : t.cfg = s.cfg) :
    Writable t a n := by
  simpa only [Writable, State.backed, State.isText, h] using hw

theorem forall_lt_add_iff {p : Nat → Prop} (m n : Nat) :
    (∀ k, k < m + n → p k) ↔ (∀ k, k < m → p k) ∧ ∀ k, k < n → p (m + k) := by
  refine ⟨fun h => ⟨fun k hk => h k (by omega), fun k hk => h (m + k) (by omega)⟩, fun ⟨hlow, hhigh⟩ k hk => ?_⟩
  obtain hk' | ⟨j, rfl⟩ : k < m ∨ ∃ j, k = m + j := (Nat.lt_or_ge k m).imp_right Nat.exists_eq_add_of_le
  · exact hlow k hk'
  · exact hhigh j (by omega)

theorem writable_add_iff (s : State) (a : Word) (m n : Nat) :
    Writable s a (m + n) ↔ Writable s a m ∧ Writable s (byteAddr a m) n := by
  simp only [Writable, forall_lt_add_iff, byteAddr_byteAddr]

theorem not_inAccess_iff (ea : Word) (n a : Nat) : ¬InAccess ea n a ↔ ∀ k, k < n → a ≠ (byteAddr ea k).toNat := by
  simp only [InAccess, not_exists, not_and, ne_eq]

theorem inAccess_add_iff (ea : Word) (m n a : Nat) :
    InAccess ea (m + n) a ↔ InAccess ea m a ∨ InAccess (byteAddr ea m) n a := by
  rw [← not_iff_not, not_or]
  simp only [not_inAccess_iff, forall_lt_add_iff, byteAddr_byteAddr]

/-- A writable access holds no byte of program text. -/
theorem Writable.not_text {s : State} {ea a : Word} {n : Nat} (h : Writable s ea n) (ha : InAccess ea n a.toNat) :
    s.isText a = false := by
  obtain ⟨k, hk, heq⟩ := ha
  rw [BitVec.eq_of_toNat_eq heq]
  exact (h k hk).2

/-! ## What an instruction does to memory -/

/-- `t` has the memory of `s`, and the same addresses stored to. -/
structure KeepsMemory (s t : State) : Prop where
  mem : t.mem = s.mem
  stored : t.stored = s.stored

/-- `t` has the memory of `s` after a store to the `n` bytes from `ea` on, which were writable. -/
structure StoresTo (ea : Word) (n : Nat) (s t : State) : Prop where
  writable : Writable s ea n
  outside : ∀ a, ¬InAccess ea n a → Memory.read t.mem a = Memory.read s.mem a
  stored : ∀ a, a ∈ t.stored ↔ a ∈ s.stored ∨ InAccess ea n a
  wf : Memory.wf s.mem = true → Memory.wf t.mem = true
  sorted : s.stored.Pairwise (· < ·) → t.stored.Pairwise (· < ·)

/-- What becomes of memory between `s` and `t`, by the bytes stored to. -/
inductive MemoryEffect (s t : State) : Option (Word × Nat) → Prop
  | kept (h : KeepsMemory s t) : MemoryEffect s t none
  | stores {ea : Word} {n : Nat} (h : StoresTo ea n s t) : MemoryEffect s t (some (ea, n))

theorem KeepsMemory.sameMemory {s t : State} (h : KeepsMemory s t) : SameMemory s t :=
  ⟨fun a => by rw [h.mem], h.stored⟩

theorem StoresTo.keeps {ea : Word} {n : Nat} {s t u : State} (h : StoresTo ea n s t) (hk : KeepsMemory t u) :
    StoresTo ea n s u := by
  obtain ⟨hmem, hstored⟩ := hk
  exact ⟨h.writable, by rw [hmem]; exact h.outside, by rw [hstored]; exact h.stored, by rw [hmem]; exact h.wf,
    by rw [hstored]; exact h.sorted⟩

/-- Two stores side by side, the upper one first, are one store. -/
theorem StoresTo.append {ea : Word} {m n : Nat} {s t u : State} (hupper : StoresTo (byteAddr ea m) n s t)
    (hlower : StoresTo ea m t u) (hcfg : t.cfg = s.cfg) : StoresTo ea (m + n) s u where
  writable := (writable_add_iff s ea m n).2 ⟨hlower.writable.of_cfg_eq hcfg.symm, hupper.writable⟩
  outside a ha := by
    obtain ⟨hl, hu⟩ := not_or.1 (mt (inAccess_add_iff ea m n a).2 ha)
    exact (hlower.outside a hl).trans (hupper.outside a hu)
  stored a := by rw [hlower.stored, hupper.stored, inAccess_add_iff, or_assoc, or_comm (a := InAccess ea m a)]
  wf hwf := hlower.wf (hupper.wf hwf)
  sorted hsorted := hlower.sorted (hupper.sorted hsorted)

theorem State.memWrite_storesTo {s t : State} {a v : Word} {w : Width} (h : s.memWrite a w v = .ok t) :
    StoresTo a w.bytes s t := by
  obtain ⟨-, hwritable, ⟨-, houtside, hstored⟩, -⟩ := State.memWrite_spec h
  rw [bytesOfWord_length] at houtside hstored
  exact ⟨hwritable, houtside, hstored, fun hm => State.memWrite_wf hm h, fun hm => State.memWrite_stored_sorted hm h⟩

/-! ## The shared operations -/

theorem State.writeReg_keeps {s t : State} {r : Reg} {v : Word} {len : Nat} (h : s.writeReg r v len = .next t) :
    KeepsMemory s t := by
  cases h
  exact ⟨rfl, rfl⟩

theorem State.branchIf_keeps {s t : State} {c : BranchCond} {v10 : BitVec 10} (h : s.branchIf c v10 = .next t) :
    KeepsMemory s t := by
  cases h
  split <;> exact ⟨rfl, rfl⟩

theorem State.jumpTo_keeps {s t : State} {x : Word} (h : s.jumpTo x = .next t) : KeepsMemory s t := by
  obtain ⟨-, rfl⟩ := State.jumpTo_spec h
  exact ⟨rfl, rfl⟩

theorem State.loadTo_keeps {s t : State} {r : Reg} {ea : Word} {w : Width} {len : Nat}
    (h : s.loadTo r ea w len = .next t) : KeepsMemory s t := by
  obtain ⟨v, -, rfl⟩ := State.loadTo_spec h
  exact ⟨rfl, rfl⟩

theorem State.takeException_keeps {s t : State} {c : Cause} {ra : Word} (h : s.takeException c ra = .next t) :
    KeepsMemory s t := by
  obtain ⟨-, rfl⟩ := State.takeException_spec h
  exact ⟨rfl, rfl⟩

theorem State.takeIrq_keeps {s t : State} (h : s.takeIrq = .next t) : KeepsMemory s t := by
  obtain ⟨-, rfl⟩ := State.takeException_spec h
  exact ⟨rfl, rfl⟩

theorem execSwi_keeps {i32 : Word} {s t : State} (h : execSwi i32 s = .next t) : KeepsMemory s t := by
  obtain ⟨-, rfl⟩ := State.takeException_spec h
  exact ⟨rfl, rfl⟩

theorem execRet_keeps {s t : State} (h : execRet s = .next t) : KeepsMemory s t := by
  obtain ⟨fp, ra, -, -, -, rfl⟩ := execRet_spec h
  exact ⟨rfl, rfl⟩

theorem execPop_keeps {a b : Reg} {s t : State} (h : execPop a b s = .next t) : KeepsMemory s t := by
  obtain ⟨-, v, -, rfl⟩ := execPop_spec h
  exact ⟨rfl, rfl⟩

theorem execGsr_keeps {a : Reg} {n : BitVec 8} {s t : State} (h : execGsr a n s = .next t) : KeepsMemory s t := by
  obtain ⟨r, -, rfl⟩ := execGsr_spec h
  exact ⟨rfl, rfl⟩

theorem execSsr_keeps {a : Reg} {n : BitVec 8} {s t : State} (h : execSsr a n s = .next t) : KeepsMemory s t := by
  obtain ⟨r, -, rfl⟩ := execSsr_spec h
  exact ⟨rfl, rfl⟩

theorem execDiv_keeps {a b : Reg} {s t : State} (h : execDiv a b s = .next t) : KeepsMemory s t := by
  obtain ⟨-, hraise⟩ | ⟨-, hwrite⟩ := execDiv_spec h
  · exact State.takeException_keeps hraise
  · exact State.writeReg_keeps hwrite

theorem State.storeTo_stores {s t : State} {ea v : Word} {w : Width} {len : Nat} (h : s.storeTo ea w v len = .next t) :
    StoresTo ea w.bytes s t := by
  obtain ⟨u, hu, rfl⟩ := State.storeTo_spec h
  exact (State.memWrite_storesTo hu).keeps ⟨rfl, rfl⟩

theorem execPush_stores {a b : Reg} {s t : State} (h : execPush a b s = .next t) : StoresTo (s.eaPush a) 4 s t := by
  obtain ⟨u, hu, rfl⟩ := execPush_spec h
  exact (State.memWrite_storesTo hu).keeps ⟨rfl, rfl⟩

/-- A call stores to the two lower slots of its frame, which are side by side (`43_jump_call.md` R205). -/
theorem State.call_stores {s t : State} {target : Word} {len : Nat} (h : s.call target len = .next t) :
    StoresTo s.eaCallFrame 8 s t := by
  obtain ⟨u, v, hu, hv, -, -, rfl⟩ := State.call_spec h
  have hreturn := State.memWrite_storesTo hu
  rw [State.eaCallReturn_eq] at hreturn
  exact (StoresTo.append hreturn (State.memWrite_storesTo hv) (State.memWrite_cfg hu)).keeps ⟨rfl, rfl⟩

/-- Every instruction stores to the bytes of its access, and one that has none keeps memory. -/
theorem exec_memoryEffect {i : Instr} {s t : State} (h : exec i s = .next t) : MemoryEffect s t (storeAccess i s) := by
  cases i with
  | ldiL | ldiS | ldiB | mov | add | sub | and | or | xor | not | neg | ashl | ashr | lshr | inc | dec | sexB | sexS
  | zexB | zexS | mul | mulX | umulX => exact .kept (State.writeReg_keeps h)
  | udiv => exact .kept (State.writeReg_keeps (execUdiv_spec h).2)
  | mod => exact .kept (State.writeReg_keeps (execMod_spec h).2)
  | umod => exact .kept (State.writeReg_keeps (execUmod_spec h).2)
  | div => exact .kept (execDiv_keeps h)
  | beq | bne | blt | bgt | bltu | bgtu | bge | ble | bgeu | bleu => exact .kept (State.branchIf_keeps h)
  | jmp | jmpa => exact .kept (State.jumpTo_keeps h)
  | ret => exact .kept (execRet_keeps h)
  | ldL | ldS | ldB | ldaL | ldaS | ldaB | ldoL | ldoS | ldoB => exact .kept (State.loadTo_keeps h)
  | pop => exact .kept (execPop_keeps h)
  | gsr => exact .kept (execGsr_keeps h)
  | ssr => exact .kept (execSsr_keeps h)
  | swi => exact .kept (execSwi_keeps h)
  | bad => exact .kept (State.takeException_keeps h)
  | cmp | nop | brk => cases h; exact .kept ⟨rfl, rfl⟩
  | stL | stS | stB | staL | staS | staB | stoL | stoS | stoB => exact .stores (State.storeTo_stores h)
  | push => exact .stores (execPush_stores h)
  | jsr | jsra => exact .stores (State.call_stores h)

/-! ## What every effect on memory keeps -/

section
variable {s t : State} {access : Option (Word × Nat)}

theorem MemoryEffect.wf (h : MemoryEffect s t access) (hm : Memory.wf s.mem = true) : Memory.wf t.mem = true := by
  cases h with
  | kept h => rwa [h.mem]
  | stores h => exact h.wf hm

theorem MemoryEffect.sorted (h : MemoryEffect s t access) (hm : s.stored.Pairwise (· < ·)) :
    t.stored.Pairwise (· < ·) := by
  cases h with
  | kept h => rwa [h.stored]
  | stores h => exact h.sorted hm

/-- No program text is stored to (`20_memory.md` R68). -/
theorem MemoryEffect.not_text_of_mem_stored (h : MemoryEffect s t access) {a : Word} (ha : a.toNat ∈ t.stored) :
    a.toNat ∈ s.stored ∨ s.isText a = false := by
  cases h with
  | kept h => exact .inl (h.stored ▸ ha)
  | stores h => exact ((h.stored _).1 ha).imp_right h.writable.not_text

theorem MemoryEffect.read_text (h : MemoryEffect s t access) {a : Word} (ha : s.isText a = true) :
    Memory.read t.mem a.toNat = Memory.read s.mem a.toNat := by
  cases h with
  | kept h => rw [h.mem]
  | stores h => exact h.outside _ fun hin => by simp [h.writable.not_text hin] at ha

theorem MemoryEffect.mem_stored_of_read_ne (h : MemoryEffect s t access) {a : Nat}
    (ha : Memory.read t.mem a ≠ Memory.read s.mem a) : a ∈ t.stored := by
  cases h with
  | kept h => exact absurd (by rw [h.mem]) ha
  | stores h => exact (h.stored a).2 (.inr (not_not.1 (mt (h.outside a) ha)))

theorem MemoryEffect.stored_mono (h : MemoryEffect s t access) {a : Nat} (ha : a ∈ s.stored) : a ∈ t.stored := by
  cases h with
  | kept h => rwa [h.stored]
  | stores h => exact (h.stored a).2 (.inl ha)

end

/-! ## Steps -/

/-- What a step does to memory after the environment's move: what its instruction does, or nothing on an interrupt. -/
theorem step_memoryEffect {s t : State} (h : step s = .next t) : ∃ access, MemoryEffect s.sampleEnv t access := by
  obtain ⟨-, ⟨-, hirq⟩ | ⟨-, i, -, hexec⟩⟩ := step_cases h
  · exact ⟨none, .kept (State.takeIrq_keeps hirq)⟩
  · exact ⟨_, exec_memoryEffect hexec⟩

theorem State.takeIrq_cfg {s t : State} (h : s.takeIrq = .next t) : t.cfg = s.cfg := by
  obtain ⟨-, rfl⟩ := State.takeException_spec h
  rfl

theorem step_cfg {s t : State} (h : step s = .next t) : t.cfg = s.cfg := by
  rw [← s.sampleEnv_cfg]
  obtain ⟨-, ⟨-, hirq⟩ | ⟨-, i, -, hexec⟩⟩ := step_cases h
  · exact State.takeIrq_cfg hirq
  · exact exec_cfg hexec

theorem step_read_text {s t : State} (h : step s = .next t) {a : Word} (ha : s.isText a = true) :
    Memory.read t.mem a.toNat = Memory.read s.mem a.toNat := by
  obtain ⟨access, heffect⟩ := step_memoryEffect h
  simpa using heffect.read_text (by simpa using ha)

/-! ## `pc` stays even -/

theorem State.writeReg_even {s t : State} {r : Reg} {v : Word} {len : Nat} (hpc : evenAddr s.pc = true)
    (h : s.writeReg r v len = .next t) (hlen : evenAddr (BitVec.ofNat 32 len) = true := by rfl) :
    evenAddr t.pc = true := by
  cases h
  exact evenAddr_add hpc hlen

theorem State.branchIf_even {s t : State} {c : BranchCond} {v10 : BitVec 10} (hcfg : s.cfg.wf)
    (hpc : evenAddr s.pc = true) (h : s.branchIf c v10 = .next t) : evenAddr t.pc = true := by
  cases h
  split
  · exact State.branchTarget_even hcfg hpc v10
  · exact evenAddr_add hpc rfl

theorem State.jumpTo_pcEven {s t : State} {x : Word} (h : s.jumpTo x = .next t) : evenAddr t.pc = true := by
  obtain ⟨heven, rfl⟩ := State.jumpTo_spec h
  exact heven

theorem State.call_even {s t : State} {target : Word} {len : Nat} (h : s.call target len = .next t) :
    evenAddr t.pc = true := by
  obtain ⟨u, v, -, -, -, heven, rfl⟩ := State.call_spec h
  exact heven

theorem execRet_pcEven {s t : State} (h : execRet s = .next t) : evenAddr t.pc = true := by
  obtain ⟨fp, ra, -, -, heven, rfl⟩ := execRet_spec h
  exact heven

theorem State.loadTo_even {s t : State} {r : Reg} {ea : Word} {w : Width} {len : Nat} (hpc : evenAddr s.pc = true)
    (h : s.loadTo r ea w len = .next t) (hlen : evenAddr (BitVec.ofNat 32 len) = true := by rfl) :
    evenAddr t.pc = true := by
  obtain ⟨v, -, rfl⟩ := State.loadTo_spec h
  exact evenAddr_add hpc hlen

theorem State.storeTo_even {s t : State} {ea v : Word} {w : Width} {len : Nat} (hpc : evenAddr s.pc = true)
    (h : s.storeTo ea w v len = .next t) (hlen : evenAddr (BitVec.ofNat 32 len) = true := by rfl) :
    evenAddr t.pc = true := by
  obtain ⟨u, hu, rfl⟩ := State.storeTo_spec h
  rw [← State.memWrite_pc hu] at hpc
  exact evenAddr_add hpc hlen

theorem State.takeException_pcEven {s t : State} {c : Cause} {ra : Word} (h : s.takeException c ra = .next t) :
    evenAddr t.pc = true := by
  obtain ⟨heven, rfl⟩ := State.takeException_spec h
  exact heven

theorem execPush_even {a b : Reg} {s t : State} (hpc : evenAddr s.pc = true) (h : execPush a b s = .next t) :
    evenAddr t.pc = true := by
  obtain ⟨u, hu, rfl⟩ := execPush_spec h
  rw [← State.memWrite_pc hu] at hpc
  exact evenAddr_add hpc rfl

theorem execPop_even {a b : Reg} {s t : State} (hpc : evenAddr s.pc = true) (h : execPop a b s = .next t) :
    evenAddr t.pc = true := by
  obtain ⟨-, v, -, rfl⟩ := execPop_spec h
  exact evenAddr_add hpc rfl

theorem execGsr_even {a : Reg} {n : BitVec 8} {s t : State} (hpc : evenAddr s.pc = true)
    (h : execGsr a n s = .next t) : evenAddr t.pc = true := by
  obtain ⟨r, -, rfl⟩ := execGsr_spec h
  exact evenAddr_add hpc rfl

theorem execSsr_even {a : Reg} {n : BitVec 8} {s t : State} (hpc : evenAddr s.pc = true)
    (h : execSsr a n s = .next t) : evenAddr t.pc = true := by
  obtain ⟨r, -, rfl⟩ := execSsr_spec h
  exact evenAddr_add hpc rfl

theorem execDiv_even {a b : Reg} {s t : State} (hpc : evenAddr s.pc = true) (h : execDiv a b s = .next t) :
    evenAddr t.pc = true := by
  obtain ⟨-, hraise⟩ | ⟨-, hwrite⟩ := execDiv_spec h
  · exact State.takeException_pcEven hraise
  · exact State.writeReg_even hpc hwrite

/-- An instruction goes on past its even length, by an even offset, or to an address whose parity was checked. -/
theorem exec_pcEven {i : Instr} {s t : State} (hcfg : s.cfg.wf) (hpc : evenAddr s.pc = true) (h : exec i s = .next t) :
    evenAddr t.pc = true := by
  cases i with
  | ldiL | ldiS | ldiB | mov | add | sub | and | or | xor | not | neg | ashl | ashr | lshr | inc | dec | sexB | sexS
  | zexB | zexS | mul | mulX | umulX => exact State.writeReg_even hpc h
  | udiv => exact State.writeReg_even hpc (execUdiv_spec h).2
  | mod => exact State.writeReg_even hpc (execMod_spec h).2
  | umod => exact State.writeReg_even hpc (execUmod_spec h).2
  | div => exact execDiv_even hpc h
  | cmp | nop => cases h; exact evenAddr_add hpc rfl
  | brk => cases h; exact hpc
  | beq | bne | blt | bgt | bltu | bgtu | bge | ble | bgeu | bleu => exact State.branchIf_even hcfg hpc h
  | jmp | jmpa => exact State.jumpTo_pcEven h
  | jsr | jsra => exact State.call_even h
  | ret => exact execRet_pcEven h
  | ldL | ldS | ldB | ldaL | ldaS | ldaB | ldoL | ldoS | ldoB => exact State.loadTo_even hpc h
  | stL | stS | stB | staL | staS | staB | stoL | stoS | stoB => exact State.storeTo_even hpc h
  | push => exact execPush_even hpc h
  | pop => exact execPop_even hpc h
  | gsr => exact execGsr_even hpc h
  | ssr => exact execSsr_even hpc h
  | swi i32 => exact State.takeException_pcEven (s := s.setSReg .swiNumber i32) h
  | bad => exact State.takeException_pcEven h

/-! ## The invariant -/

/-- Equal operands are not less (`42_compare_branch.md` R193). -/
theorem compareWords_legal (x y : Word) : (compareWords x y).legal = true := by
  by_cases hxy : x = y <;> simp [CondCode.legal, compareWords, hxy]

/-- Every instruction that is not `cmp` has the frame of its destinations; `cmp` is the write of the condition code. -/
theorem eq_cmp_or_frame {i : Instr} {s t : State} (h : exec i s = .next t) :
    (∃ a b, i = .cmp a b ∧ t = (s.setCc (compareWords (s.reg a) (s.reg b))).advance 2) ∨
      FrameExceptSystem (destinations i) s t := by
  by_cases hcmp : ∃ a b, i = .cmp a b
  · obtain ⟨a, b, rfl⟩ := hcmp
    cases h
    exact .inl ⟨a, b, rfl, rfl⟩
  · exact .inr (exec_frameExceptSystem h fun a b hi => hcmp ⟨a, b, hi⟩)

theorem exec_cc_legal {i : Instr} {s t : State} (hcc : s.cc.legal = true) (h : exec i s = .next t) :
    t.cc.legal = true := by
  obtain ⟨a, b, rfl, rfl⟩ | hframe := eq_cmp_or_frame h
  · exact compareWords_legal _ _
  · rwa [hframe.cc]

theorem State.Inv.sampleEnv {s : State} (h : s.Inv) : s.sampleEnv.Inv := by
  obtain ⟨hcfg, hpc, hmem, hstored, htext, hcc⟩ := h
  exact ⟨by simpa using hcfg, by simpa using hpc, by simpa using hmem, by simpa using hstored, by simpa using htext,
    by simpa using hcc⟩

theorem State.takeIrq_inv {s t : State} (hinv : s.Inv) (h : s.takeIrq = .next t) : t.Inv := by
  have hpc := State.takeException_pcEven h
  obtain ⟨-, rfl⟩ := State.takeException_spec h
  exact ⟨hinv.cfg, hpc, hinv.mem, hinv.stored, hinv.storedNotText, hinv.cc⟩

theorem exec_inv {i : Instr} {s t : State} (hinv : s.Inv) (h : exec i s = .next t) : t.Inv := by
  have hcfg := exec_cfg h
  have heffect := exec_memoryEffect h
  refine ⟨hcfg ▸ hinv.cfg, exec_pcEven hinv.cfg hinv.pcEven h, heffect.wf hinv.mem, heffect.sorted hinv.stored,
    fun a ha => ?_, exec_cc_legal hinv.cc h⟩
  rw [State.isText_congr hcfg]
  exact (heffect.not_text_of_mem_stored ha).elim (hinv.storedNotText a) id

theorem step_inv {s t : State} (hinv : s.Inv) (h : step s = .next t) : t.Inv := by
  obtain ⟨-, ⟨-, hirq⟩ | ⟨-, i, -, hexec⟩⟩ := step_cases h
  · exact State.takeIrq_inv hinv.sampleEnv hirq
  · exact exec_inv hinv.sampleEnv hexec

/-! ## Runs, and the fetch of program text -/

/-- What every step keeps, every run keeps. -/
theorem run_induction {P : State → Prop} (hstep : ∀ s t, P s → step s = .next t → P t) {k : Nat} {s t : State}
    (hs : P s) (h : core.run k s = .next t) : P t := by
  induction k generalizing s with
  | zero => cases h; exact hs
  | succ k ih =>
    simp only [Host.Core.run] at h
    split at h
    · rename_i u hu
      exact ih (hstep s u hs hu) h
    · cases h
    · cases h

/-- `t` meets the invariant and has the configuration and the program text of `s`. -/
structure KeepsText (s t : State) : Prop where
  inv : t.Inv
  cfg : t.cfg = s.cfg
  read : ∀ a, s.isText a = true → Memory.read t.mem a.toNat = Memory.read s.mem a.toNat

theorem step_keepsText {s t u : State} (h : KeepsText s t) (hstep : step t = .next u) : KeepsText s u where
  inv := step_inv h.inv hstep
  cfg := (step_cfg hstep).trans h.cfg
  read a ha := (step_read_text hstep (by rwa [State.isText_congr h.cfg])).trans (h.read a ha)

/-- The fetch of a byte of program text looks at its backing and its value: it was not stored to. -/
theorem KeepsText.fetchByte_eq {s t : State} (h : KeepsText s t) (hs : s.Inv) {a : Word} (ha : s.isText a = true) :
    t.fetchByte a = s.fetchByte a := by
  have hbacked : t.backed a = s.backed a := by simp only [State.backed, h.cfg]
  have hstored : a.toNat ∉ s.stored := fun hin => by simp [hs.storedNotText a hin] at ha
  have hstored' : a.toNat ∉ t.stored := fun hin => by
    simp [← State.isText_congr h.cfg, h.inv.storedNotText a hin] at ha
  simp only [State.fetchByte, hbacked, if_neg hstored, if_neg hstored', h.read a ha]

theorem readBytes_congr {read read' : Word → Except Stop Byte} {a : Word} {n : Nat}
    (h : ∀ k, k < n → read (byteAddr a k) = read' (byteAddr a k)) : readBytes read a n = readBytes read' a n := by
  induction n generalizing a with
  | zero => rfl
  | succ n ih =>
    have hfirst := h 0 (by omega)
    have hrest := ih (a := byteAddr a 1) fun k hk => by
      rw [byteAddr_byteAddr, Nat.add_comm]
      exact h (k + 1) (by omega)
    rw [byteAddr_zero] at hfirst
    simp only [readBytes, hfirst, hrest]

/-- The fetch reads at most six bytes, from `pc` on. -/
theorem State.fetch_congr {s t : State} (hpc : t.pc = s.pc) (hcfg : t.cfg = s.cfg)
    (h : ∀ k, k < 6 → t.fetchByte (byteAddr s.pc k) = s.fetchByte (byteAddr s.pc k)) : t.fetch = s.fetch := by
  have hword : readBytes t.fetchByte s.pc 2 = readBytes s.fetchByte s.pc 2 :=
    readBytes_congr fun k hk => h k (by omega)
  have htail (w : BitVec 16) : readBytes t.fetchByte (byteAddr s.pc 2) (tailLength w) =
      readBytes s.fetchByte (byteAddr s.pc 2) (tailLength w) :=
    readBytes_congr fun k hk => by
      rw [byteAddr_byteAddr]
      exact h (2 + k) (by have := tailLength_le_four w; omega)
  simp only [State.fetch, hpc, hcfg, hword, htail]

/-! ## The statements -/

/-- Settles O58: an interrupt entry and every instruction keep the invariant, and the environment's move is no part of
it. -/
theorem stepKeepsInvariant : Obligations.StepKeepsInvariant :=
  fun _ _ => step_inv

/-- Settles O59: marking is the configuration's, and a store succeeds only where no byte is text. -/
theorem textNeverChanges : Obligations.TextNeverChanges :=
  fun _ _ h a => ⟨State.isText_congr (step_cfg h) a, step_read_text h⟩

/-- Settles O60: every step of the run keeps what the fetch of program text looks at. -/
theorem textFetchStableOverRuns : Obligations.TextFetchStableOverRuns := by
  intro k s t a hs htext hrun
  have hkept : KeepsText s t := run_induction (fun _ _ => step_keepsText) ⟨hs, rfl, fun _ _ => rfl⟩ hrun
  exact State.fetch_congr rfl hkept.cfg fun k hk => hkept.fetchByte_eq hs (htext k hk)

/-- Settles O54: outside the bytes of its store a step keeps memory, and it adds exactly them to the record. -/
theorem storedTracksWrites : Obligations.StoredTracksWrites := by
  intro s t h
  obtain ⟨access, heffect⟩ := step_memoryEffect h
  exact ⟨fun a ha => heffect.mem_stored_of_read_ne (by simpa using ha),
    fun a ha => heffect.stored_mono (by simpa using ha)⟩

/-- Settles O51: registers by the frame of the instruction, memory by its access. -/
theorem everyInstructionFrame : Obligations.EveryInstructionFrame := by
  intro i s t h
  refine ⟨?registers, ?memory⟩
  case registers =>
    obtain ⟨a, b, rfl, rfl⟩ | hframe := eq_cmp_or_frame h
    · exact fun _ _ => rfl
    · exact hframe.regs
  case memory =>
    have heffect := exec_memoryEffect h
    cases haccess : storeAccess i s with
    | none =>
      rw [haccess] at heffect
      cases heffect with
      | kept hkept => exact hkept.sameMemory
    | some access =>
      rw [haccess] at heffect
      cases heffect with
      | stores hstores => exact ⟨hstores.outside, hstores.stored⟩

/-- Settles O52: the configuration and the interrupt line are in the frame of every instruction. -/
theorem configNeverChanges : Obligations.ConfigNeverChanges := by
  refine ⟨fun i s t h => ⟨exec_cfg h, ?line⟩, fun _ _ => step_cfg⟩
  obtain ⟨a, b, rfl, rfl⟩ | hframe := eq_cmp_or_frame h
  · exact ⟨rfl, rfl⟩
  · exact ⟨hframe.irqPending, hframe.envTick⟩

end Sys2Proof.Machine
end

section
/-! PROOFS. Special registers and the end of a run (`10_state.md` R29 to R38, `45_system.md`, `60_exceptions.md` R295): what
every instruction may do to the special registers and to the mark of `brk`, said once, and what `gsr`, `ssr` and `swi` do. -/

namespace Sys2Proof.Machine

/-! ## What an instruction does to the special registers and to the mark of `brk` -/

/-- What becomes of the special registers and of the mark of `brk` between `s` and `t`, by the instruction. -/
inductive SystemEffect (s t : State) : Instr → Prop
  | kept {i : Instr} (hsregs : t.sregs = s.sregs) (hended : t.ended = s.ended) : SystemEffect s t i
  | stored (a : Reg) (n : BitVec 8) (hended : t.ended = s.ended) : SystemEffect s t (.ssr a n)
  | brk (hsregs : t.sregs = s.sregs) : SystemEffect s t .brk
  | swi (x : Word) {code ra : Word} (h : ExceptionEntered code ra (s.setSReg .swiNumber x) t) : SystemEffect s t (.swi x)
  | bad (w : BitVec 16) {code ra : Word} (h : ExceptionEntered code ra s t) : SystemEffect s t (.bad w)
  | div (a b : Reg) {code ra : Word} (hzero : s.reg b = 0) (h : ExceptionEntered code ra s t) :
      SystemEffect s t (.div a b)

theorem FrameExceptMemory.systemEffect {written : List Reg} {s t : State} (h : FrameExceptMemory written s t)
    (i : Instr) : SystemEffect s t i :=
  .kept h.sregs h.ended

theorem execDiv_systemEffect {a b : Reg} {s t : State} (h : execDiv a b s = .next t) :
    SystemEffect s t (.div a b) := by
  obtain ⟨hzero, hraise⟩ | ⟨-, hwrite⟩ := execDiv_spec h
  · exact .div a b hzero (State.takeException_entered hraise)
  · exact (State.writeReg_frame hwrite).systemEffect _

/-- Every instruction but `ssr`, `brk` and those that raise keeps the special registers and the mark. -/
theorem exec_systemEffect {i : Instr} {s t : State} (h : exec i s = .next t) : SystemEffect s t i := by
  cases i with
  | ldiL | ldiS | ldiB | mov | add | sub | and | or | xor | not | neg | ashl | ashr | lshr | inc | dec | sexB | sexS
  | zexB | zexS | mul | mulX | umulX => exact (State.writeReg_frame h).systemEffect _
  | udiv => exact (State.writeReg_frame (execUdiv_spec h).2).systemEffect _
  | mod => exact (State.writeReg_frame (execMod_spec h).2).systemEffect _
  | umod => exact (State.writeReg_frame (execUmod_spec h).2).systemEffect _
  | div => exact execDiv_systemEffect h
  | cmp | nop => cases h; exact .kept rfl rfl
  | beq | bne | blt | bgt | bltu | bgtu | bge | ble | bgeu | bleu => exact (State.branchIf_frame h).systemEffect _
  | jmp | jmpa => exact (State.jumpTo_frame h).systemEffect _
  | jsr | jsra => exact (State.call_frame h).systemEffect _
  | ret => exact (execRet_frame h).systemEffect _
  | ldL | ldS | ldB | ldaL | ldaS | ldaB | ldoL | ldoS | ldoB => exact (State.loadTo_frame h).systemEffect _
  | stL | stS | stB | staL | staS | staB | stoL | stoS | stoB => exact (State.storeTo_frame h).systemEffect _
  | push => exact (execPush_frame h).systemEffect _
  | pop => exact (execPop_frame h).systemEffect _
  | gsr => exact (execGsr_frame h).systemEffect _
  | ssr a n =>
    obtain ⟨r, -, rfl⟩ := execSsr_spec h
    exact .stored a n rfl
  | swi x => exact .swi x (State.takeException_entered h)
  | bad w => exact .bad w (State.takeException_entered h)
  | brk => cases h; exact .brk rfl

/-- What `swi` leaves in the special registers that exception entry does not write (`45_system.md` R262). -/
theorem ExceptionEntered.sreg_after_swi {code ra x : Word} {s t : State}
    (h : ExceptionEntered code ra (s.setSReg .swiNumber x) t) :
    t.sregs.swiNumber = x ∧ ∀ r, r ≠ .swiNumber → r ≠ .cause → r ≠ .returnAddress → t.sreg r = s.sreg r := by
  refine ⟨h.otherSregs .swiNumber nofun nofun, fun r hn hc hr => ?_⟩
  rw [h.otherSregs r hc hr, State.sreg_setSReg_of_ne _ _ hn]

/-! ## Numbers and names (`10_state.md` R38) -/

/-- The number of a special register. -/
def SReg.number : SReg → Nat
  | .status => 0
  | .handler => 1
  | .cause => 2
  | .swiNumber => 3
  | .supervisorStack => 4
  | .returnAddress => 5
  | .deviceTree => 9
  | .plain k => 10 + k.val

theorem SReg.number_of_ofNumber {n : BitVec 8} {r : SReg} (h : SReg.ofNumber n = some r) : r.number = n.toNat := by
  revert h
  fun_cases SReg.ofNumber n
  case case1 hplain =>
    rintro ⟨⟩
    exact Nat.add_sub_cancel' hplain
  case case9 => exact nofun
  all_goals
    rintro ⟨⟩
    exact Eq.symm ‹_›

/-- Different numbers name different special registers. -/
theorem SReg.ofNumber_injective {m n : BitVec 8} {q r : SReg} (hm : SReg.ofNumber m = some q)
    (hn : SReg.ofNumber n = some r) (h : m ≠ n) : q ≠ r := by
  rintro rfl
  exact h (BitVec.eq_of_toNat_eq ((SReg.number_of_ofNumber hm).symm.trans (SReg.number_of_ofNumber hn)))

/-! ## `gsr` -/

/-- `gsr` stops where its number names no register, for the same. -/
theorem exec_gsr_stop {a : Reg} {n : BitVec 8} {s : State} {e : Stop} (h : s.namedSReg n = .error e) :
    exec (.gsr a n) s = e.result := by
  simp only [exec, execGsr, h]

theorem exec_gsr_of_namedSReg {a : Reg} {n : BitVec 8} {s : State} {r : SReg} (h : s.namedSReg n = .ok r) :
    exec (.gsr a n) s = s.writeReg a (s.sreg r) 2 := by
  simp only [exec, execGsr, h]

/-! ## The statements -/

/-- Settles O50: every instruction's effect on the special registers is one of six, of which `ssr`'s is left out. -/
theorem specialRegisterWriters : Obligations.SpecialRegisterWriters := by
  intro i s t h hssr
  have hkept (hsregs : t.sregs = s.sregs) (r : SReg) : t.sreg r = s.sreg r := by simp only [State.sreg, hsregs]
  cases exec_systemEffect h with
  | kept hsregs | brk hsregs =>
    exact ⟨fun r _ _ _ => hkept hsregs r, fun _ => hkept hsregs .swiNumber,
      fun _ _ _ => ⟨hkept hsregs .cause, hkept hsregs .returnAddress⟩⟩
  | stored a n => exact absurd rfl (hssr a n)
  | swi x entered =>
    obtain ⟨-, hothers⟩ := entered.sreg_after_swi
    exact ⟨fun r hc hn hr => hothers r hn hc hr, fun hswi => absurd rfl (hswi x), fun hswi => absurd rfl (hswi x)⟩
  | bad w entered =>
    exact ⟨fun r hc _ hr => entered.otherSregs r hc hr, fun _ => entered.otherSregs .swiNumber nofun nofun,
      fun _ hbad => absurd rfl (hbad w)⟩
  | div a b hzero entered =>
    exact ⟨fun r hc _ hr => entered.otherSregs r hc hr, fun _ => entered.otherSregs .swiNumber nofun nofun,
      fun _ _ hdiv => absurd hzero (hdiv a b rfl)⟩

/-- Settles O53: every other effect, exception entry too, keeps the mark. -/
theorem onlyBrkEndsRun : Obligations.OnlyBrkEndsRun := by
  intro i s t h hbrk
  cases exec_systemEffect h with
  | kept _ hended | stored _ _ hended => exact hended
  | brk => exact absurd rfl hbrk
  | swi _ entered | bad _ entered | div _ _ _ entered => exact entered.ended

/-- Settles O45: both name their register by the configuration, and different numbers name different registers. -/
theorem ssrGsrRoundTrip : Obligations.SsrGsrRoundTrip := by
  intro a b m n s t u hssr hgsr
  obtain ⟨r, hr, rfl⟩ := execSsr_spec hssr
  obtain ⟨q, hq, rfl⟩ := execGsr_spec hgsr
  have hqs : s.namedSReg m = .ok q := hq
  refine ⟨?same, fun hmn => ?other⟩
  case same =>
    rintro rfl
    cases hqs.symm.trans hr
    simp
  case other =>
    have hne := SReg.ofNumber_injective (State.namedSReg_spec hqs).1 (State.namedSReg_spec hr).1 hmn
    refine ⟨_, exec_gsr_of_namedSReg hqs, ?_⟩
    simp [State.sreg_setSReg_of_ne _ _ hne]

/-- Settles O49: number 5 names the return address, and the jump to it looks only at its parity. -/
theorem handlerReturn : Obligations.HandlerReturn := by
  intro r s hnum heven
  have hgsr := exec_gsr_of_namedSReg (a := r) (State.namedSReg_ok (s := s) (n := 5) (r := .returnAddress) rfl hnum)
  obtain ⟨t, hnext, hreg, hframe, -⟩ := s.writeReg_spec r (s.sreg .returnAddress) 2
  have hra : t.reg r = s.sregs.returnAddress := hreg
  rw [← hra] at heven
  refine ⟨t, _, hgsr.trans hnext, t.jumpTo_even heven, hra, ?_⟩
  exact ⟨hframe.toFrameExceptMemory.setPc _, ⟨hframe.bytes, hframe.stored⟩⟩

/-- Settles O43: the number names a register unless it is reserved, and `gsr` is the read of that register. -/
theorem gsrResult : Obligations.GsrResult := by
  refine ⟨specialRegistersNumbered, fun a n => ⟨encodes2_form2 0b10 a n rfl rfl,
    fun hn s => exec_gsr_stop (s.namedSReg_reserved hn), fun hn s hs => exec_gsr_stop (State.namedSReg_absent hn hs),
    fun hn s hs => ?read⟩⟩
  case read =>
    obtain ⟨r, hr, hnamed⟩ := State.exists_namedSReg hn hs
    obtain ⟨t, hnext, hreg, hframe, hpc⟩ := s.writeReg_spec a (s.sreg r) 2
    exact ⟨r, t, hr, (exec_gsr_of_namedSReg hnamed).trans hnext, hreg, hframe, hpc⟩

/-- Settles O46: the exception is raised where the request number is already in `s[3]`, and entry does not write it. -/
theorem swiResult : Obligations.SwiResult := by
  refine fun x y i32 => ⟨?encoding, fun s => ⟨exec_swi_raises i32 s, fun t h => ?registers⟩⟩
  case encoding => exact encodes6_form1 0x30 x y i32 (by decide) (fun _ => rfl) fun _ => rfl
  case registers => exact (State.takeException_entered h).sreg_after_swi

end Sys2Proof.Machine
end

section
/-! PROOFS. One step (`20_memory.md` R56, R58, R68, `30_encoding.md` R95, `60_exceptions.md` R291): what the fetch answers for
bytes that can be fetched, byte by byte, and what a step does with that answer or with an interrupt. -/

namespace Sys2Proof.Machine

/-! ## The bytes of a fetch -/

/-- Every one of these bytes can be fetched, at rising addresses from `a` on. -/
def Fetches (s : State) (a : Word) (bs : List Byte) : Prop :=
  ∀ k (hk : k < bs.length), s.fetchByte (byteAddr a k) = .ok bs[k]

theorem Holds.fetches {s : State} {a : Word} {bs : List Byte} (h : Holds s a bs)
    (hs : ∀ k, k < bs.length → (byteAddr a k).toNat ∉ s.stored) : Fetches s a bs := by
  intro k hk
  obtain ⟨hbacked, hread⟩ := h k hk
  exact State.fetchByte_ok hbacked (hs k hk) hread

/-- The fetch of the word and that of its trailing unit are fetches of their own bytes. -/
theorem Fetches.split {s : State} {a : Word} {b0 b1 : Byte} {ts : List Byte} (h : Fetches s a (b0 :: b1 :: ts)) :
    Fetches s a [b0, b1] ∧ Fetches s (byteAddr a 2) ts := by
  refine ⟨fun k hk => ?word, fun k hk => ?tail⟩
  case word =>
    have hk2 : k < 2 := hk
    have hbyte := h k (by simp only [List.length_cons]; omega)
    obtain rfl | rfl : k = 0 ∨ k = 1 := by omega
    · exact hbyte
    · exact hbyte
  case tail =>
    rw [byteAddr_byteAddr, Nat.add_comm]
    exact h (k + 2) (by simpa using hk)

theorem State.fetchByte_unbacked {s : State} {a : Word} (h : s.backed a = false) :
    s.fetchByte a = .error (.fault .unbacked) := by
  simp only [State.fetchByte, h, if_true]

theorem State.fetchByte_modified {s : State} {a : Word} (hb : s.backed a = true) (hs : a.toNat ∈ s.stored) :
    s.fetchByte a = .error (.refused .fetchOfModified) := by
  simp only [State.fetchByte, hb, Bool.true_eq_false, if_false, hs, if_true]

theorem State.fetchByte_unwritten {s : State} {a : Word} (hb : s.backed a = true) (hs : a.toNat ∉ s.stored)
    (hm : Memory.read s.mem a.toNat = none) : s.fetchByte a = .error (.fault .unwrittenMemory) := by
  simp only [State.fetchByte, hb, Bool.true_eq_false, if_false, hs, hm]

/-! ## The fetch of an instruction -/

theorem State.fetch_odd {s : State} (h : evenAddr s.pc = false) : s.fetch = .error (.fault .oddFetch) := by
  have hodd : s.pc.toNat % 2 = 1 := by simp [evenAddr] at h; omega
  simp only [State.fetch, hodd, if_true]

/-- At an even `pc` a fetch stops where the read of the word's bytes does. -/
theorem State.fetch_word_stop {s : State} {e : Stop} (he : evenAddr s.pc = true)
    (h : readBytes s.fetchByte s.pc 2 = .error e) : s.fetch = .error e := by
  have heven : ¬s.pc.toNat % 2 = 1 := by simp [evenAddr] at he; omega
  simp only [State.fetch, if_neg heven, h]

/-- At an even `pc`, with the word read, a fetch stops where the read of the trailing unit does. -/
theorem State.fetch_tail_stop {s : State} {bs : List Byte} {e : Stop} (he : evenAddr s.pc = true)
    (hword : readBytes s.fetchByte s.pc 2 = .ok bs)
    (h : readBytes s.fetchByte (byteAddr s.pc 2) (tailLength ((wordOfBytes s.cfg.endian bs).setWidth 16)) = .error e) :
    s.fetch = .error e := by
  have heven : ¬s.pc.toNat % 2 = 1 := by simp [evenAddr] at he; omega
  simp only [State.fetch, if_neg heven, hword, h]

/-- What decodes with no byte left is a word and its trailing unit. -/
theorem decode_eq_ok_nil {e : Endian} {bs : List Byte} {i : Instr} (h : decode e bs = .ok (i, [])) :
    ∃ b0 b1 ts, bs = b0 :: b1 :: ts ∧ ts.length = tailLength ((wordOfBytes e [b0, b1]).setWidth 16) ∧
      i = decodeUnits ((wordOfBytes e [b0, b1]).setWidth 16) (wordOfBytes e ts) := by
  match bs, h with
  | b0 :: b1 :: ts, h =>
    rw [decode_cons_cons e b0 b1 ts rfl] at h
    split at h
    · cases h
    · rename_i henough
      obtain ⟨hi, hdrop⟩ := Prod.mk.inj (Except.ok.inj h)
      have hlength := Nat.le_antisymm (List.drop_eq_nil_iff.1 hdrop) (Nat.not_lt.1 henough)
      rw [← hlength, List.take_length] at hi
      exact ⟨b0, b1, ts, rfl, hlength, hi.symm⟩

/-- The fetch answers the instruction that the bytes at an even `pc` decode to. -/
theorem State.fetch_of_decode {s : State} {bs : List Byte} {i : Instr} (he : evenAddr s.pc = true)
    (h : Fetches s s.pc bs) (hd : decode s.cfg.endian bs = .ok (i, [])) : s.fetch = .ok i := by
  obtain ⟨b0, b1, ts, rfl, hlength, rfl⟩ := decode_eq_ok_nil hd
  obtain ⟨hword, htail⟩ := h.split
  exact State.fetch_ok he (readBytes_ok _ _ _ hword) rfl (hlength ▸ readBytes_ok _ _ _ htail)

/-- Where the bytes at an even `pc` are too few for an instruction, the fetch stops for the byte after them. -/
theorem State.fetch_stop_of_truncated {s : State} {bs : List Byte} {e : Stop} (he : evenAddr s.pc = true)
    (h : Fetches s s.pc bs) (hd : decode s.cfg.endian bs = .error .truncated)
    (hstop : s.fetchByte (byteAddr s.pc bs.length) = .error e) : s.fetch = .error e := by
  match bs with
  | [] => exact State.fetch_word_stop he (readBytes_stops_at [] h (by decide) hstop)
  | [b0] => exact State.fetch_word_stop he (readBytes_stops_at [b0] h (by simp) hstop)
  | b0 :: b1 :: ts =>
    have hfew := (decode_truncated_iff _ b0 b1 ts).1 hd
    obtain ⟨hword, htail⟩ := h.split
    have hnext : s.fetchByte (byteAddr (byteAddr s.pc 2) ts.length) = .error e := by
      rw [byteAddr_byteAddr, Nat.add_comm]
      exact hstop
    exact State.fetch_tail_stop he (readBytes_ok _ _ _ hword) (readBytes_stops_at ts htail hfew hnext)

/-! ## A step -/

/-- The environment's move is no part of what a fetch looks at. -/
theorem State.sampleEnv_fetch (s : State) : s.sampleEnv.fetch = s.fetch := by
  rw [s.sampleEnv_eq]
  rfl

section
variable {s : State} (hended : s.ended = false)
include hended

theorem step_of_irqTaken (hirq : s.sampleEnv.irqTaken = true) : step s = s.sampleEnv.takeIrq := by
  simp only [step, hended, Bool.false_eq_true, if_false, hirq, if_true]

theorem step_of_fetch (hirq : s.sampleEnv.irqTaken = false) {i : Instr} (h : s.sampleEnv.fetch = .ok i) :
    step s = exec i s.sampleEnv := by
  simp only [step, hended, Bool.false_eq_true, if_false, hirq, h]

theorem step_of_fetch_stop (hirq : s.sampleEnv.irqTaken = false) {e : Stop} (h : s.sampleEnv.fetch = .error e) :
    step s = e.result := by
  simp only [step, hended, Bool.false_eq_true, if_false, hirq, h]

end

/-! ## Interrupts -/

theorem State.irqTaken_absent {s : State} (h : s.cfg.irqPresent = false) : s.irqTaken = false := by
  simp only [State.irqTaken, h, Bool.false_and]

theorem State.irqTaken_present {s : State} (h : s.cfg.irqPresent = true) :
    s.irqTaken = (s.irqPending && Config.irqEnabled s) := by
  simp only [State.irqTaken, h, Bool.true_and]

/-- With `IRQ_PRESENT` the environment may set the request, and it counts the step (`60_exceptions.md` R291). -/
theorem State.sampleEnv_present {s : State} (h : s.cfg.irqPresent = true) :
    s.sampleEnv =
      { s with irqPending := s.irqPending || Config.irqArrives s.envTick, envTick := s.envTick + 1 } :=
  if_pos h

/-- Taking an interrupt: entry to the handler from the address of the instruction not yet run, or the model fault of an odd
handler address. -/
theorem State.takeIrq_enters (s : State) :
    (evenAddr s.sregs.handler = true →
        ∃ t, s.takeIrq = .next t ∧ ExceptionEntered s.cfg.exIrq s.pc { s with irqPending := false } t) ∧
      (evenAddr s.sregs.handler = false → s.takeIrq = .fault .oddHandler) := by
  refine ⟨fun h => ?even, fun h => State.takeException_odd _ _ _ h⟩
  case even =>
    have hnext := State.takeException_even { s with irqPending := false } .irq s.pc h
    exact ⟨_, hnext, State.takeException_entered hnext⟩

theorem State.takeIrq_cc {s t : State} (h : s.takeIrq = .next t) : t.cc = s.cc := by
  obtain ⟨-, rfl⟩ := State.takeException_spec h
  rfl

/-! ## The statements -/

/-- Settles O9: the step is decided by what the environment leaves in `irqPending`, before any byte is fetched. -/
theorem interruptTakenBeforeFetch : Obligations.InterruptTakenBeforeFetch := by
  refine ⟨fun s h => ⟨State.sampleEnv_absent h, State.irqTaken_absent h⟩, fun s hended hpresent => ?_⟩
  intro u
  have hu : s.sampleEnv = u := State.sampleEnv_present hpresent
  have htaken : s.sampleEnv.irqTaken = (u.irqPending && Config.irqEnabled u) := by
    rw [State.irqTaken_present (by rwa [s.sampleEnv_cfg]), hu]
  split
  case isTrue hirq =>
    rw [step_of_irqTaken hended (htaken.trans hirq), hu]
    exact u.takeIrq_enters
  case isFalse hirq =>
    have hnot := htaken.trans (Bool.eq_false_iff.2 hirq)
    rw [← hu]
    cases hfetch : s.sampleEnv.fetch with
    | error e => exact step_of_fetch_stop hended hnot hfetch
    | ok i => exact step_of_fetch hended hnot hfetch

/-- Settles O24: an interrupt entry keeps the condition code, and so does every instruction but `cmp`. -/
theorem onlyCmpWritesCc : Obligations.OnlyCmpWritesCc := by
  intro s t h hne
  obtain ⟨-, ⟨-, hirq⟩ | ⟨hirq, i, hfetch, hexec⟩⟩ := step_cases h
  · exact absurd ((State.takeIrq_cc hirq).trans s.sampleEnv_cc) hne
  · obtain ⟨a, b, rfl, rfl⟩ | hframe := eq_cmp_or_frame hexec
    · exact ⟨a, b, hirq, hfetch, by simp⟩
    · exact absurd (hframe.cc.trans s.sampleEnv_cc) hne

/-- Settles O7: the fetch answers what the bytes decode to, and the environment's move is no part of it. -/
theorem stepRunsDecodedInstruction : Obligations.StepRunsDecodedInstruction := by
  intro s i bs hended hirq heven hholds hstored hdecode
  have hfetch := State.fetch_of_decode heven (hholds.fetches hstored) hdecode
  have hstep := step_of_fetch hended hirq (s.sampleEnv_fetch.trans hfetch)
  exact ⟨hstep, fun habsent => by rw [hstep, State.sampleEnv_absent habsent]⟩

/-- Settles O8: a fetch stops for an odd `pc`, else for the first byte that its word or trailing unit lacks. -/
theorem fetchStops : Obligations.FetchStops := by
  intro s hended hirq
  have hstop {e : Stop} (h : s.fetch = .error e) : step s = e.result :=
    step_of_fetch_stop hended hirq (s.sampleEnv_fetch.trans h)
  refine ⟨fun hodd => hstop (State.fetch_odd hodd), fun bs heven hholds hstored hdecode => ?_⟩
  have hnext {e : Stop} (h : s.fetchByte (byteAddr s.pc bs.length) = .error e) : step s = e.result :=
    hstop (State.fetch_stop_of_truncated heven (hholds.fetches hstored) hdecode h)
  exact ⟨fun hb => hnext (State.fetchByte_unbacked hb), fun hb hs => hnext (State.fetchByte_modified hb hs),
    fun hb hs hm => hnext (State.fetchByte_unwritten hb hs hm)⟩

/-- Settles O10: `brk` is the write of the mark, which a step looks at first. -/
theorem brkEndsRun : Obligations.BrkEndsRun :=
  fun x y => ⟨encodes2_form1 0x35 x y (by decide) (fun _ => rfl) rfl, fun _ => ⟨_, rfl, rfl, rfl⟩⟩

end Sys2Proof.Machine
end

section
/-! PROOFS. Pairs of instructions that fit together: `div` and `mod` (`41_muldiv.md`), `cmp` and a branch
(`42_compare_branch.md` R181, R193), `push` and `pop` (`44_load_store.md`). -/

namespace Sys2Proof.Machine

/-! ## Quotient and remainder -/

/-- The quotient rounded toward zero fits in a word, but for `INT_MIN` by -1. -/
theorem toInt_divSigned {x y : Word} (h : ¬(x.toInt = -2 ^ 31 ∧ y.toInt = -1)) :
    (divSigned x y).toInt = x.toInt.tdiv y.toInt := by
  have hfits : x ≠ BitVec.intMin 32 ∨ y ≠ -1#32 := by
    refine (not_and_or.1 h).imp (mt ?_) (mt ?_) <;>
    · rintro rfl
      rfl
  rw [divSigned_eq_ite_toInt, if_neg h, BitVec.toInt_ofInt, ← BitVec.toInt_sdiv, BitVec.toInt_sdiv_of_ne_or_ne x y hfits]

/-! ## The relations of the branches -/

/-- The ten rows are the ten conditions: each instruction is the shared branch on a condition that holds, after a `cmp`,
exactly on the row's relation between the operands. -/
theorem exists_cond_of_mem_relationRows : ∀ row ∈ relationRows, ∃ c : BranchCond,
    (∀ v10 s, exec (row.1 v10) s = s.branchIf c v10) ∧ ∀ x y, condHolds c (compareWords x y) = row.2 x y := by
  simp only [relationRows, List.forall_mem_cons]
  refine ⟨⟨.eq, fun _ _ => rfl, fun x y => rfl⟩, ⟨.ne, fun _ _ => rfl, fun x y => ?ne⟩,
    ⟨.lt, fun _ _ => rfl, fun x y => rfl⟩, ⟨.gt, fun _ _ => rfl, fun x y => ?gt⟩,
    ⟨.ge, fun _ _ => rfl, fun x y => ?ge⟩, ⟨.le, fun _ _ => rfl, fun x y => ?le⟩,
    ⟨.ltu, fun _ _ => rfl, fun x y => rfl⟩, ⟨.gtu, fun _ _ => rfl, fun x y => ?gtu⟩,
    ⟨.geu, fun _ _ => rfl, fun x y => ?geu⟩, ⟨.leu, fun _ _ => rfl, fun x y => ?leu⟩, by simp⟩
  all_goals
    rw [Bool.eq_iff_iff]
    simp only [condHolds, compareWords, Bool.and_eq_true, Bool.or_eq_true, Bool.not_eq_true', decide_eq_true_eq,
      decide_eq_false_iff_not, ne_eq]
  case gt | le => rw [← BitVec.toInt_inj]; omega
  case gtu | leu => rw [← BitVec.toNat_inj]; omega
  case ge | geu => omega

/-! ## The statements -/

/-- Settles O20: where both run the divisor is not zero, and both results are the integers' own, with one exception. -/
theorem divModIdentity : Obligations.DivModIdentity := by
  intro a b s t u hdiv hmod
  obtain ⟨hb, hmodw⟩ := execMod_spec hmod
  obtain ⟨hzero, -⟩ | ⟨-, hdivw⟩ := execDiv_spec hdiv
  · exact absurd hzero hb
  · cases hdivw
    cases hmodw
    simp only [State.advance_reg, State.reg_setReg_self, toInt_modSigned]
    refine ⟨fun h => ?fits, fun h => ?overflow⟩
    case fits => rw [toInt_divSigned h, Int.tdiv_mul_add_tmod]
    case overflow =>
      rw [divSigned_eq_ite_toInt, if_pos h, h.1, h.2]
      decide

/-- Settles O23: the branch looks at the condition code that `cmp` left, which orders the operands as the row says. -/
theorem cmpThenBranch : Obligations.CmpThenBranch := by
  intro row hrow a b v10 s t hcmp
  obtain ⟨c, hexec, hrelation⟩ := exists_cond_of_mem_relationRows row hrow
  cases hcmp
  obtain ⟨u, hnext, -, hpc⟩ := State.branchIf_spec ((s.setCc (compareWords (s.reg a) (s.reg b))).advance 2) c v10
  refine ⟨u, (hexec v10 _).trans hnext, ?_⟩
  rw [hpc, State.advance_cc, State.setCc_cc, hrelation, State.branchTarget, branchOffset_eq_ofInt]

/-- Settles O38: `pop` reads through the lowered pointer the word that `push` wrote there, and raises the pointer again. -/
theorem pushPopRoundTrip : Obligations.PushPopRoundTrip := by
  intro a b c s t hpush hca
  obtain ⟨u, hu, rfl⟩ := execPush_spec hpush
  have hread : u.memRead (s.eaPush a) .long = .ok (s.reg b) := by
    simpa [Width.bytes, Nat.mod_eq_of_lt (s.reg b).isLt] using State.memRead_of_memWrite hu
  have hpointer : ((u.setReg a (s.eaPush a)).advance 2).reg a = s.eaPush a := by simp
  refine ⟨_, exec_pop_of_memRead (v := s.reg b) hca.symm (by rw [hpointer]; exact hread), ?popped, ?pointer⟩
  case popped => rw [State.advance_reg, State.reg_setReg_of_ne _ _ hca, State.reg_setReg_self]
  case pointer => rw [State.advance_reg, State.reg_setReg_self, hpointer, State.eaPush, BitVec.sub_add_cancel]

end Sys2Proof.Machine
end

section
/-! PROOFS. Where a data access and a call stop (`20_memory.md` R50, R57, R68, `43_jump_call.md` R205): for one of their
bytes, and the call frame as one store of eight bytes. -/

namespace Sys2Proof.Machine

/-! ## Data accesses -/

/-- Every access has a first byte. -/
theorem Width.exists_bytes_eq_succ (w : Width) : ∃ n, w.bytes = n + 1 := by
  cases w <;> exact ⟨_, rfl⟩

theorem State.memRead_first_stop {s : State} {a : Word} {w : Width} {e : Stop} (ha : aligned a w = true)
    (h : s.loadByte a = .error e) : s.memRead a w = .error e := by
  obtain ⟨n, hn⟩ := w.exists_bytes_eq_succ
  simp only [State.memRead, ha, Bool.true_eq_false, if_false, hn, readBytes, h]

theorem State.storeBytes_first_stop {s : State} {a : Word} {bs : List Byte} {e : Stop} (hbs : bs ≠ [])
    (h : ∀ b, s.storeByte a b = .error e) : s.storeBytes a bs = .error e := by
  cases bs with
  | nil => exact absurd rfl hbs
  | cons b bs => simp only [State.storeBytes, h b]

theorem State.memWrite_first_stop {s : State} {a : Word} {w : Width} {e : Stop} (v : Word) (ha : aligned a w = true)
    (h : ∀ b, s.storeByte a b = .error e) : s.memWrite a w v = .error e := by
  obtain ⟨n, hn⟩ := w.exists_bytes_eq_succ
  simp only [State.memWrite, ha, Bool.true_eq_false, if_false]
  exact State.storeBytes_first_stop (List.ne_nil_of_length_eq_add_one ((bytesOfWord_length _ _ v).trans hn)) h

/-- A read that succeeds read bytes that are backed and have values. -/
theorem State.memRead_readable {s : State} {a v : Word} {w : Width} (h : s.memRead a w = .ok v) :
    Readable s a w.bytes := by
  obtain ⟨-, bs, hlength, hholds, -⟩ := State.memRead_spec h
  exact hlength ▸ hholds.readable

/-- What stops a write stops for a byte of every access around it. -/
theorem WriteStop.within {s : State} {a : Word} {j n m : Nat} {e : Stop} (h : WriteStop s (byteAddr a j) n e)
    (hin : j + n ≤ m) : WriteStop s a m e := by
  refine h.imp ?_ ?_ <;>
  · rintro ⟨he, k, hk, hcause⟩
    exact ⟨he, j + k, by omega, by rwa [byteAddr_byteAddr] at hcause⟩

/-- Where a write stops is a matter of the configuration. -/
theorem WriteStop.of_cfg_eq {s t : State} {a : Word} {n : Nat} {e : Stop} (h : WriteStop t a n e)
    (hcfg : t.cfg = s.cfg) : WriteStop s a n e := by
  simpa only [WriteStop, State.backed, State.isText, hcfg] using h

/-! ## The call frame -/

/-- The slot that a call leaves free is the uppermost of its frame (`43_jump_call.md` R205). -/
theorem State.eaCallFree_eq (s : State) : s.eaCallFree = byteAddr s.eaCallFrame 8 := by
  simp only [State.eaCallFree, State.eaCallFrame, byteAddr]
  bv_omega

/-- The slots of the frame are aligned where `$sp` is. -/
theorem State.aligned_eaCallFrame_iff (s : State) : aligned s.eaCallFrame .long = aligned (s.reg Reg.sp) .long := by
  simp only [aligned, Width.bytes, State.eaCallFrame, Bool.beq_eq_decide_eq, decide_eq_decide]
  bv_omega

theorem State.aligned_eaCallReturn_iff (s : State) : aligned s.eaCallReturn .long = aligned (s.reg Reg.sp) .long := by
  simp only [aligned, Width.bytes, State.eaCallReturn, Bool.beq_eq_decide_eq, decide_eq_decide]
  bv_omega

/-- The twelve bytes of the frame are its three slots. -/
theorem State.writable_frame_iff (s : State) : Writable s s.eaCallFrame 12 ↔
    Writable s s.eaCallFrame 4 ∧ Writable s s.eaCallReturn 4 ∧ Writable s s.eaCallFree 4 := by
  rw [s.eaCallReturn_eq, s.eaCallFree_eq, show (12 : Nat) = 4 + (4 + 4) from rfl, writable_add_iff, writable_add_iff,
    byteAddr_byteAddr]

section
variable {s : State} {target : Word} {len : Nat}

theorem State.call_misaligned (h : aligned (s.reg Reg.sp) .long = false) : s.call target len = .fault .misaligned := by
  rw [← s.aligned_eaCallReturn_iff] at h
  simp only [State.call, s.memWrite_misaligned _ h, Stop.result]

/-- Where the frame is writable, a call is its two stores, the write of `$sp` and `$fp`, and the jump. -/
theorem State.call_eq_jumpTo (ha : aligned (s.reg Reg.sp) .long = true) (hw : Writable s s.eaCallFrame 12) :
    ∃ v : State, s.call target len = ((v.setReg Reg.sp s.eaCallFrame).setReg Reg.fp s.eaCallFrame).jumpTo target := by
  obtain ⟨hframe, hreturn, hfree⟩ := s.writable_frame_iff.1 hw
  obtain ⟨u, hu⟩ := s.memWrite_ok (s.pc + BitVec.ofNat 32 len) (s.aligned_eaCallReturn_iff.trans ha) hreturn
  obtain ⟨v, hv⟩ := u.memWrite_ok (w := .long) (s.reg Reg.fp) (s.aligned_eaCallFrame_iff.trans ha)
    (hframe.of_cfg_eq (State.memWrite_cfg hu))
  refine ⟨v, ?_⟩
  simp only [State.call, hu, hv, (s.writable_iff _ _).2 hfree, Bool.true_eq_false, if_false]

/-- A call of an even target through a writable frame: what it stores and what it leaves unchanged. -/
theorem State.call_even_ok (ha : aligned (s.reg Reg.sp) .long = true) (hw : Writable s s.eaCallFrame 12)
    (heven : evenAddr target = true) :
    ∃ t, s.call target len = .next t ∧ t.reg Reg.sp = s.eaCallFrame ∧ t.reg Reg.fp = s.eaCallFrame ∧
      StoresOnly s.eaCallFrame
        (bytesOfWord s.cfg.endian 4 (s.reg Reg.fp) ++ bytesOfWord s.cfg.endian 4 (s.pc + BitVec.ofNat 32 len)) s t ∧
      FrameExceptMemory [Reg.fp, Reg.sp] s t ∧ t.pc = target := by
  obtain ⟨v, hcall⟩ := State.call_eq_jumpTo (target := target) (len := len) ha hw
  have hnext := hcall.trans (State.jumpTo_even _ heven)
  obtain ⟨-, -, hholds⟩ := State.call_holds hnext
  have hstores := State.call_stores hnext
  refine ⟨_, hnext, ?sp, ?fp, ⟨fun k hk => (hholds k hk).2, ?outside, ?stored⟩, State.call_frame hnext, rfl⟩
  case sp => rw [State.setPc_reg, State.reg_setReg_of_ne _ _ (by decide), State.reg_setReg_self]
  case fp => rw [State.setPc_reg, State.reg_setReg_self]
  case outside => simpa using hstores.outside
  case stored => simpa using hstores.stored

/-- A call through an aligned frame that is not writable stops for a byte of one of its slots. -/
theorem State.call_stop (ha : aligned (s.reg Reg.sp) .long = true) (hw : ¬Writable s s.eaCallFrame 12) :
    ∃ e, s.call target len = e.result ∧
      (WriteStop s s.eaCallFrame 8 e ∨ (¬Writable s s.eaCallFree 4 ∧ e = .fault .callFrameNotWritable)) := by
  have hareturn := s.aligned_eaCallReturn_iff.trans ha
  have haframe := s.aligned_eaCallFrame_iff.trans ha
  cases hu : s.memWrite s.eaCallReturn .long (s.pc + BitVec.ofNat 32 len) with
  | error e =>
    have hstop := State.memWrite_stop hareturn hu
    rw [s.eaCallReturn_eq] at hstop
    exact ⟨e, by simp only [State.call, hu], .inl (hstop.within (by decide))⟩
  | ok u =>
    cases hv : u.memWrite s.eaCallFrame .long (s.reg Reg.fp) with
    | error e =>
      have hstop := (State.memWrite_stop haframe hv).of_cfg_eq (State.memWrite_cfg hu)
      rw [← byteAddr_zero s.eaCallFrame] at hstop
      exact ⟨e, by simp only [State.call, hu, hv], .inl (hstop.within (by decide))⟩
    | ok v =>
      have hfree : ¬Writable s s.eaCallFree 4 := fun hfree => hw <| s.writable_frame_iff.2
        ⟨(State.memWrite_storesTo hv).writable.of_cfg_eq (State.memWrite_cfg hu).symm,
          (State.memWrite_storesTo hu).writable, hfree⟩
      have hcheck := Bool.eq_false_iff.2 (mt (s.writable_iff _ _).1 hfree)
      exact ⟨_, by simp only [State.call, hu, hv, hcheck, if_true]; rfl, .inr ⟨hfree, rfl⟩⟩

end

/-- An instruction that is the shared call in every state is the call of that target. -/
theorem calls_of_exec {i : Instr} {target : State → Word} {len : Nat}
    (hexec : ∀ s, exec i s = s.call (target s) len) : Calls i target len := by
  refine ⟨fun s ha hw heven => ?completes, fun s ha => ?misaligned, fun s ha hw hodd => ?oddTarget, fun s ha hw => ?stops⟩
  case completes => exact hexec s ▸ State.call_even_ok ha hw heven
  case misaligned => exact (hexec s).trans (State.call_misaligned ha)
  case oddTarget =>
    obtain ⟨v, hcall⟩ := State.call_eq_jumpTo (target := target s) (len := len) ha hw
    exact (hexec s).trans (hcall.trans (State.jumpTo_odd _ hodd))
  case stops =>
    obtain ⟨e, hstop, hcause⟩ := State.call_stop (target := target s) (len := len) ha hw
    exact ⟨e, (hexec s).trans hstop, hcause.imp_right .inl⟩

/-! ## The statements -/

/-- Settles O26: both are the shared call, which stops where one of its three slots is not writable. -/
theorem callResults : Obligations.CallResults := by
  refine ⟨fun a x => ⟨?jsrEncoding, calls_of_exec fun _ => rfl⟩,
    fun x y i32 => ⟨?jsraEncoding, calls_of_exec fun _ => rfl⟩⟩
  case jsrEncoding => exact encodes2_form1 0x19 _ _ (by decide) (fun _ => rfl) rfl
  case jsraEncoding => exact encodes6_form1 0x03 _ _ i32 (by decide) (fun _ => rfl) fun _ => rfl

/-- Settles O42: an access stops at its first byte where that byte stops it, and succeeds only where every byte does not. -/
theorem accessStops : Obligations.AccessStops := by
  intro s a v w ha
  refine ⟨fun hb => ⟨State.memRead_first_stop ha ?readUnbacked, State.memWrite_first_stop v ha fun b => ?writeUnbacked⟩,
    fun hb hm => State.memRead_first_stop ha ?unwritten, fun hb ht => State.memWrite_first_stop v ha fun b => ?text,
    fun hr => ?read, fun hw => ?write⟩
  case readUnbacked => simp only [State.loadByte, hb, if_true]
  case writeUnbacked => simp only [State.storeByte, hb, if_true]
  case unwritten => simp only [State.loadByte, hb, hm, Bool.true_eq_false, if_false]
  case text => simp only [State.storeByte, hb, ht, Bool.true_eq_false, if_false, if_true]
  case read =>
    cases h : s.memRead a w with
    | ok x => exact absurd (State.memRead_readable h) hr
    | error e => exact ⟨e, rfl, State.memRead_stop ha h⟩
  case write =>
    cases h : s.memWrite a w v with
    | ok t => exact absurd (State.memWrite_storesTo h).writable hw
    | error e => exact ⟨e, rfl, State.memWrite_stop ha h⟩

end Sys2Proof.Machine
end

section
/-! PROOFS. The state after reset (`70_reset_and_hazards.md` R320): its values, and that it meets the invariant. -/

namespace Sys2Proof.Machine

theorem State.reset_reg (r : Reg) : State.reset.reg r = 0 := by
  simp only [State.reg, State.reset, Vector.getElem_replicate]

/-- But for the pointer to the Device Tree, every special register is 0. -/
theorem State.reset_sreg {r : SReg} (h : r ≠ .deviceTree) : State.reset.sreg r = 0 := by
  cases r with
  | deviceTree => exact absurd rfl h
  | plain k => simp only [State.sreg, State.reset, resetSpecialRegs, SpecialRegs.get, Vector.getElem_replicate]
  | _ => rfl

/-- Settles O55: `pc` is even because `RESET_PC` is, and no byte is listed. -/
theorem resetSpecValues : Obligations.ResetSpecValues :=
  ⟨rfl, by decide, rfl, fun _ => rfl, rfl, by decide⟩

/-- Settles O56: every cell of the register files holds 0. -/
theorem resetModelChoices : Obligations.ResetModelChoices :=
  ⟨State.reset_reg, fun _ => State.reset_sreg, rfl⟩

/-- Settles O57: memory and the list of addresses stored to are empty. -/
theorem resetMeetsInvariant : Obligations.ResetMeetsInvariant where
  cfg := by decide
  pcEven := by decide
  mem := Memory.wf_reset
  stored := List.Pairwise.nil
  storedNotText _ h := absurd h List.not_mem_nil
  cc := by decide

end Sys2Proof.Machine
end
